-- ==== Sys2Proof/Word.lean ====
section
/-! DEFINITION. The word types of the controller: rule R5 (32-bit registers, data and memory words),
R20 to R22 (16-bit bitmaps) and R40 (the accessor reaches bytes).
-/

namespace Sys2Proof

/-- A register, an MMIO data value, a memory word or an address of the DMA address space (R4, R5, D8). -/
abbrev Word := BitVec 32

/-- One byte of the DMA address space. -/
abbrev Byte := BitVec 8

/-- A global bitmap, one bit per channel (R21, R22). -/
abbrev Bitmap := BitVec 16

/-- A channel index, 0 to 15 (R4, R11). -/
abbrev ChannelId := Fin 16

end Sys2Proof
end

