-- ==== Sys2Proof/Config.lean ====
section
/-! DEFINITION. The parameters of rule R4 and the values the spec leaves open.

Every bit position and the mask are marked by the spec itself `[from general knowledge, not in
source]` (D1 to D3, G1 to G3): PRESUMED, see notes/assumptions 1 to 3. The constants with no body
(`opaque`) are free values: nothing can be proved of what they are.
-/

namespace Sys2Proof.Config

/-! Bit positions in `status_control` (R4, R12). -/

def csActive : Nat := 0
def csEnd : Nat := 1
def csInt : Nat := 2
def csIsPaused : Nat := 4
def csIsHeld : Nat := 5
def csError : Nat := 8
def csAbort : Nat := 30
def csReset : Nat := 31

/-- The "fixed mask" of plainly writable CS bits: PRIORITY 19:16, PANIC_PRIORITY 23:20,
WAIT_FOR_OUTSTANDING_WRITES 28, DISDEBUG 29 and ACTIVE 0 (R4, R145). -/
def csRwMask : Word := 0x30FF0001#32

/-! Bit positions in `transfer_info` (R4, R71). WAIT_RESP (3), BURST_LENGTH (15:12), PERMAP (20:16)
and WAITS (25:21) are named there too and have no effect (R190). -/

def tiInten : Nat := 0
def tiTdmode : Nat := 1
def tiDestInc : Nat := 4
def tiDestIgnore : Nat := 7
def tiSrcInc : Nat := 8
def tiSrcIgnore : Nat := 11

/-- `SIZE_A`, bytes of window A (R4, D13). The 12-bit offset of `Access` is exactly this range. -/
def sizeA : Nat := 0x1000

/-- `SIZE_B`, bytes of window B (R4, R62). -/
def sizeB : Nat := 0x100

/-- `BASE_A`, the bus address of window A: OPEN (R46, D13), a free value. -/
opaque baseA : Nat

/-- `BASE_B`, the bus address of window B: OPEN, "separately based" (R46, D13), a free value. -/
opaque baseB : Nat

/-- `RESET_OTHER` for `State.reset`: the seven channel registers whose reset value the spec leaves
unspecified (R35, D19). DESIGN CHOICE, unsafe: notes/assumptions/7. -/
def resetOther : Word := 0#32

/-- `RESET_OTHER` for a later reset of the controller (R230): a free value per draw (R35, D19, U7). -/
opaque resetDraw : Nat → Word

/-- What a byte of the DMA address space that nothing has written reads as: "every byte 0 unless
stated" (95_test_vectors). DESIGN CHOICE, unsafe: notes/assumptions/6. -/
def unlistedByte : Byte := 0#8

/-- The spec's `FUEL` (R4, R204, D22), as a number of doublings: the engine gives a chain up after
`2 ^ chainLevels - 1` passes. At a descriptor boundary what follows depends only on the 2^32 bytes
of memory and on the 32-bit chain pointer, which have `2 ^ (2 ^ 35 + 32)` values, so a chain that is given up never
ends: the hardware's missing bound is not bounded here. -/
def chainLevels : Nat := 68719476736

end Sys2Proof.Config
end

