-- ==== Sys2Proof/Syntax.lean ====
section
/-! DEFINITION. The two kinds of "instruction" of the controller (00_scope section 1): the MMIO access
of the bus master (R60) and the control block of the engine (R70), and `Instr`, one constructor per
row of spec/opcode_table.json.
-/

namespace Sys2Proof

/-- `window` of an access (R60). -/
inductive Window where
  | a
  | b
deriving DecidableEq, Repr

/-- `dir` of an access (R60). -/
inductive Dir where
  | read
  | write
deriving DecidableEq, Repr

/-- An MMIO access as the bus master issues it: `(window, dir, offset, size, data)` (R60). -/
structure Access where
  window : Window
  dir    : Dir
  offset : BitVec 12
  size   : Nat
  data   : Word
deriving DecidableEq, Repr

/-- A control block: six consecutive 32-bit words (R70). -/
structure Block where
  ti     : Word
  src    : Word
  dst    : Word
  len    : Word
  stride : Word
  next   : Word
deriving DecidableEq, Repr

/-- What the decoder reads: the 14-bit access key `K` of R60 with the write data, or the six words of
a control block with the channel whose engine fetched them (a control block names no channel). -/
inductive Encoding where
  | access (key : BitVec 14) (data : Word)
  | block (c : ChannelId) (b : Block)
deriving DecidableEq, Repr

/-- The operations of the controller, one constructor per row of spec/opcode_table.json.

The suffix is the row's format: `AG` a global of window A, `AC` a register of channels 0 to 14 in
window A, `BC` a register of channel 15 in window B, `ANY` the catch-all row. `v` is the write data. -/
inductive Instr where
  | rdIntStatus
  | wrIntStatus (v : Word)
  | rdEnable
  | wrEnable (v : Word)
  /-- Window A offset `0xF00 + r`, neither 0xFE0 nor 0xFF0 (R65, R97). -/
  | rdInvalidAG (r : BitVec 8)
  | wrInvalidAG (r : BitVec 8) (v : Word)
  | rdCsAC (c : Fin 15)
  | rdCsBC
  | wrCsAC (c : Fin 15) (v : Word)
  | wrCsBC (v : Word)
  | rdConblkAdAC (c : Fin 15)
  | rdConblkAdBC
  | wrConblkAdAC (c : Fin 15) (v : Word)
  | wrConblkAdBC (v : Word)
  | rdTiAC (c : Fin 15)
  | rdTiBC
  | wrTiAC (c : Fin 15) (v : Word)
  | wrTiBC (v : Word)
  | rdSourceAdAC (c : Fin 15)
  | rdSourceAdBC
  | wrSourceAdAC (c : Fin 15) (v : Word)
  | wrSourceAdBC (v : Word)
  | rdDestAdAC (c : Fin 15)
  | rdDestAdBC
  | wrDestAdAC (c : Fin 15) (v : Word)
  | wrDestAdBC (v : Word)
  | rdTxfrLenAC (c : Fin 15)
  | rdTxfrLenBC
  | wrTxfrLenAC (c : Fin 15) (v : Word)
  | wrTxfrLenBC (v : Word)
  | rdStrideAC (c : Fin 15)
  | rdStrideBC
  | wrStrideAC (c : Fin 15) (v : Word)
  | wrStrideBC (v : Word)
  | rdNextconbkAC (c : Fin 15)
  | rdNextconbkBC
  | wrNextconbkAC (c : Fin 15) (v : Word)
  | wrNextconbkBC (v : Word)
  | rdDebugAC (c : Fin 15)
  | rdDebugBC
  | wrDebugAC (c : Fin 15) (v : Word)
  | wrDebugBC (v : Word)
  /-- Offset `r` of the slot of channel `c` (15 is window B) where no register begins (R65, R96). -/
  | rdInvalidANY (c : ChannelId) (r : BitVec 8)
  | wrInvalidANY (c : ChannelId) (r : BitVec 8) (v : Word)
  /-- A control block with TDMODE = 0, interpreted by the engine of channel `c` (R187). -/
  | cbLinear (c : ChannelId) (b : Block)
  /-- A control block with TDMODE = 1 (R188). -/
  | cb2D (c : ChannelId) (b : Block)
deriving DecidableEq, Repr

end Sys2Proof
end

