-- ==== Sys2Proof/WellFormed.lean ====
section
/-! DEFINITION. Which terms of `Instr` are the operation of some encoding, and which bus addresses are
offsets of a window.
-/

namespace Sys2Proof

/-- The nine register offsets of a channel slot (R63). -/
def definedOffset (r : BitVec 8) : Bool :=
  [0x00#8, 0x04#8, 0x08#8, 0x0C#8, 0x10#8, 0x14#8, 0x18#8, 0x1C#8, 0x20#8].contains r

/-- The two global registers of window A, as the low byte of their offset (R64). -/
def definedGlobal (r : BitVec 8) : Bool := r == 0xE0#8 || r == 0xF0#8

/-- An invalid access is one at an offset where no register begins (R65), and a control block has the
form its TDMODE flag says (R71). Every other constructor admits every operand. -/
def Instr.wf : Instr → Bool
  | .rdInvalidAG r => !definedGlobal r
  | .wrInvalidAG r _ => !definedGlobal r
  | .rdInvalidANY _ r => !definedOffset r
  | .wrInvalidANY _ r _ => !definedOffset r
  | .cbLinear _ b => !b.ti.getLsbD Config.tiTdmode
  | .cb2D _ b => b.ti.getLsbD Config.tiTdmode
  | .rdIntStatus | .wrIntStatus _ | .rdEnable | .wrEnable _
  | .rdCsAC _ | .rdCsBC | .wrCsAC _ _ | .wrCsBC _
  | .rdConblkAdAC _ | .rdConblkAdBC | .wrConblkAdAC _ _ | .wrConblkAdBC _
  | .rdTiAC _ | .rdTiBC | .wrTiAC _ _ | .wrTiBC _
  | .rdSourceAdAC _ | .rdSourceAdBC | .wrSourceAdAC _ _ | .wrSourceAdBC _
  | .rdDestAdAC _ | .rdDestAdBC | .wrDestAdAC _ _ | .wrDestAdBC _
  | .rdTxfrLenAC _ | .rdTxfrLenBC | .wrTxfrLenAC _ _ | .wrTxfrLenBC _
  | .rdStrideAC _ | .rdStrideBC | .wrStrideAC _ _ | .wrStrideBC _
  | .rdNextconbkAC _ | .rdNextconbkBC | .wrNextconbkAC _ _ | .wrNextconbkBC _
  | .rdDebugAC _ | .rdDebugBC | .wrDebugAC _ _ | .wrDebugBC _ => true

/-- The size of a window (R4). -/
def Window.size : Window → Nat
  | .a => Config.sizeA
  | .b => Config.sizeB

/-- The bus address of a window's first byte (R46, D13). -/
def Window.base : Window → Nat
  | .a => Config.baseA
  | .b => Config.baseB

/-- The bus address `addr` is the offset `offset` of the window `w` (R25, R46). -/
def Window.Reaches (w : Window) (addr : Nat) (offset : BitVec 12) : Prop :=
  offset.toNat < w.size ∧ addr = w.base + offset.toNat

end Sys2Proof
end

