-- ==== Sys2Proof/Decode.lean ====
section
/-! DEFINITION. The MMIO address decoder (40_mmio_decoder, R90 to R97) and the choice between the two
control-block forms (R71, R187, R188), total on every access, key and control block, refusing by
name; then the encoder, from the same tables (R60 to R64, R70).
-/

namespace Sys2Proof

/-- Why the decoder reads no instruction. -/
inductive DecodeError where
  /-- R90: an access of another size than 4 bytes. -/
  | accessWidth (w : Window) (offset : BitVec 12) (size : Nat)
  /-- R60: an offset of window B that is not below 0x100 "does not arise"; it does not reach the block (U13). -/
  | outsideWindow (offset : BitVec 12)
deriving DecidableEq, Repr

/-- The bit `w` of an access key (R60). -/
def Window.bit : Window → Bool
  | .a => false
  | .b => true

/-- The bit `d` of an access key (R60). -/
def Dir.bit : Dir → Bool
  | .read => false
  | .write => true

/-- `K = w << 13 | d << 12 | offset` (R60). -/
def accessKey (w : Window) (d : Dir) (offset : BitVec 12) : BitVec 14 :=
  BitVec.ofBool w.bit ++ BitVec.ofBool d.bit ++ offset

/-- The channel whose slot of window A an access falls into; channel 15 has none there (R61). -/
def slotA (c : Fin 15) : ChannelId := c.castSucc

/-- The one channel of window B (R62). -/
def channelB : ChannelId := 15

/-- Reads of the slot of a channel of window A: the register map of R63, else an invalid offset (R93, R94). -/
def decodeReadAC (c : Fin 15) (r : BitVec 8) : Instr :=
  if r = 0x00#8 then .rdCsAC c
  else if r = 0x04#8 then .rdConblkAdAC c
  else if r = 0x08#8 then .rdTiAC c
  else if r = 0x0C#8 then .rdSourceAdAC c
  else if r = 0x10#8 then .rdDestAdAC c
  else if r = 0x14#8 then .rdTxfrLenAC c
  else if r = 0x18#8 then .rdStrideAC c
  else if r = 0x1C#8 then .rdNextconbkAC c
  else if r = 0x20#8 then .rdDebugAC c
  else .rdInvalidANY (slotA c) r

/-- Writes to the slot of a channel of window A (R63, R93, R95). -/
def decodeWriteAC (c : Fin 15) (r : BitVec 8) (v : Word) : Instr :=
  if r = 0x00#8 then .wrCsAC c v
  else if r = 0x04#8 then .wrConblkAdAC c v
  else if r = 0x08#8 then .wrTiAC c v
  else if r = 0x0C#8 then .wrSourceAdAC c v
  else if r = 0x10#8 then .wrDestAdAC c v
  else if r = 0x14#8 then .wrTxfrLenAC c v
  else if r = 0x18#8 then .wrStrideAC c v
  else if r = 0x1C#8 then .wrNextconbkAC c v
  else if r = 0x20#8 then .wrDebugAC c v
  else .wrInvalidANY (slotA c) r v

/-- Reads of window B (R62, R92, R93). -/
def decodeReadBC (r : BitVec 8) : Instr :=
  if r = 0x00#8 then .rdCsBC
  else if r = 0x04#8 then .rdConblkAdBC
  else if r = 0x08#8 then .rdTiBC
  else if r = 0x0C#8 then .rdSourceAdBC
  else if r = 0x10#8 then .rdDestAdBC
  else if r = 0x14#8 then .rdTxfrLenBC
  else if r = 0x18#8 then .rdStrideBC
  else if r = 0x1C#8 then .rdNextconbkBC
  else if r = 0x20#8 then .rdDebugBC
  else .rdInvalidANY channelB r

/-- Writes to window B (R62, R92, R93). -/
def decodeWriteBC (r : BitVec 8) (v : Word) : Instr :=
  if r = 0x00#8 then .wrCsBC v
  else if r = 0x04#8 then .wrConblkAdBC v
  else if r = 0x08#8 then .wrTiBC v
  else if r = 0x0C#8 then .wrSourceAdBC v
  else if r = 0x10#8 then .wrDestAdBC v
  else if r = 0x14#8 then .wrTxfrLenBC v
  else if r = 0x18#8 then .wrStrideBC v
  else if r = 0x1C#8 then .wrNextconbkBC v
  else if r = 0x20#8 then .wrDebugBC v
  else .wrInvalidANY channelB r v

/-- Reads of window A offsets `0xF00 + r` (R64, R91, R97). -/
def decodeReadAG (r : BitVec 8) : Instr :=
  if r = 0xE0#8 then .rdIntStatus
  else if r = 0xF0#8 then .rdEnable
  else .rdInvalidAG r

/-- Writes to window A offsets `0xF00 + r` (R64, R91, R97). -/
def decodeWriteAG (r : BitVec 8) (v : Word) : Instr :=
  if r = 0xE0#8 then .wrIntStatus v
  else if r = 0xF0#8 then .wrEnable v
  else .wrInvalidAG r v

/-- The decoder on an access key and the write data (R91 to R93; `write` is `K[12]`, `high` is `K[11:8]`, `r` is `K[7:0]`). -/
def decodeKey (key : BitVec 14) (v : Word) : Except DecodeError Instr :=
  let inB := key.getLsbD 13
  let write := key.getLsbD 12
  let high := (key.extractLsb' 8 4).toNat
  let r := key.extractLsb' 0 8
  if inB then
    if high = 0 then .ok (if write then decodeWriteBC r v else decodeReadBC r)
    else .error (.outsideWindow (key.extractLsb' 0 12))
  else if h : high < 15 then
    .ok (if write then decodeWriteAC ⟨high, h⟩ r v else decodeReadAC ⟨high, h⟩ r)
  else .ok (if write then decodeWriteAG r v else decodeReadAG r)

/-- The form of a control block is bit TDMODE of its word 0 (R71); every block has one. -/
def decodeBlock (c : ChannelId) (b : Block) : Instr :=
  if b.ti.getLsbD Config.tiTdmode then .cb2D c b else .cbLinear c b

/-- The decoder, total on every encoding. -/
def decode : Encoding → Except DecodeError Instr
  | .access key v => decodeKey key v
  | .block c b => .ok (decodeBlock c b)

/-- `Decode` of R90: the size is checked before the offset is looked at. -/
def decodeAccess (a : Access) : Except DecodeError Instr :=
  if a.size = 4 then decode (.access (accessKey a.window a.dir a.offset) a.data)
  else .error (.accessWidth a.window a.offset a.size)

/-! The encoder. -/

/-- The key of a register of a channel of window A (format AC, R61). -/
def keyAC (d : Dir) (c : Fin 15) (r : BitVec 8) : BitVec 14 :=
  accessKey .a d (BitVec.ofNat 4 c.val ++ r)

/-- The key of a window A offset `0xF00 + r` (format AG, R61). -/
def keyAG (d : Dir) (r : BitVec 8) : BitVec 14 := accessKey .a d (0xF#4 ++ r)

/-- The key of a window B offset (format BC, R62). -/
def keyBC (d : Dir) (r : BitVec 8) : BitVec 14 := accessKey .b d (0#4 ++ r)

/-- The key of offset `r` of the slot of channel `c`, in the window that reaches it (R61, R62). -/
def keyOfSlot (d : Dir) (c : ChannelId) (r : BitVec 8) : BitVec 14 :=
  if h : c.val < 15 then keyAC d ⟨c.val, h⟩ r else keyBC d r

/-- The encoding of an instruction: its access key with its data (0 for a read), or its control block. -/
def encode : Instr → Encoding
  | .rdIntStatus => .access (keyAG .read 0xE0#8) 0
  | .wrIntStatus v => .access (keyAG .write 0xE0#8) v
  | .rdEnable => .access (keyAG .read 0xF0#8) 0
  | .wrEnable v => .access (keyAG .write 0xF0#8) v
  | .rdInvalidAG r => .access (keyAG .read r) 0
  | .wrInvalidAG r v => .access (keyAG .write r) v
  | .rdCsAC c => .access (keyAC .read c 0x00#8) 0
  | .rdCsBC => .access (keyBC .read 0x00#8) 0
  | .wrCsAC c v => .access (keyAC .write c 0x00#8) v
  | .wrCsBC v => .access (keyBC .write 0x00#8) v
  | .rdConblkAdAC c => .access (keyAC .read c 0x04#8) 0
  | .rdConblkAdBC => .access (keyBC .read 0x04#8) 0
  | .wrConblkAdAC c v => .access (keyAC .write c 0x04#8) v
  | .wrConblkAdBC v => .access (keyBC .write 0x04#8) v
  | .rdTiAC c => .access (keyAC .read c 0x08#8) 0
  | .rdTiBC => .access (keyBC .read 0x08#8) 0
  | .wrTiAC c v => .access (keyAC .write c 0x08#8) v
  | .wrTiBC v => .access (keyBC .write 0x08#8) v
  | .rdSourceAdAC c => .access (keyAC .read c 0x0C#8) 0
  | .rdSourceAdBC => .access (keyBC .read 0x0C#8) 0
  | .wrSourceAdAC c v => .access (keyAC .write c 0x0C#8) v
  | .wrSourceAdBC v => .access (keyBC .write 0x0C#8) v
  | .rdDestAdAC c => .access (keyAC .read c 0x10#8) 0
  | .rdDestAdBC => .access (keyBC .read 0x10#8) 0
  | .wrDestAdAC c v => .access (keyAC .write c 0x10#8) v
  | .wrDestAdBC v => .access (keyBC .write 0x10#8) v
  | .rdTxfrLenAC c => .access (keyAC .read c 0x14#8) 0
  | .rdTxfrLenBC => .access (keyBC .read 0x14#8) 0
  | .wrTxfrLenAC c v => .access (keyAC .write c 0x14#8) v
  | .wrTxfrLenBC v => .access (keyBC .write 0x14#8) v
  | .rdStrideAC c => .access (keyAC .read c 0x18#8) 0
  | .rdStrideBC => .access (keyBC .read 0x18#8) 0
  | .wrStrideAC c v => .access (keyAC .write c 0x18#8) v
  | .wrStrideBC v => .access (keyBC .write 0x18#8) v
  | .rdNextconbkAC c => .access (keyAC .read c 0x1C#8) 0
  | .rdNextconbkBC => .access (keyBC .read 0x1C#8) 0
  | .wrNextconbkAC c v => .access (keyAC .write c 0x1C#8) v
  | .wrNextconbkBC v => .access (keyBC .write 0x1C#8) v
  | .rdDebugAC c => .access (keyAC .read c 0x20#8) 0
  | .rdDebugBC => .access (keyBC .read 0x20#8) 0
  | .wrDebugAC c v => .access (keyAC .write c 0x20#8) v
  | .wrDebugBC v => .access (keyBC .write 0x20#8) v
  | .rdInvalidANY c r => .access (keyOfSlot .read c r) 0
  | .wrInvalidANY c r v => .access (keyOfSlot .write c r) v
  | .cbLinear c b => .block c b
  | .cb2D c b => .block c b

/-- The instruction whose bits are `w` as spec/opcode_table.json numbers them: the rows keyed by `K`
take two bytes (14 bits, the rest 0) and carry the data 0; the two rows keyed by `ti` carry the word
`ti` and five words of zeros, for channel 0. -/
def tableEncoding (nbits w : Nat) : Option Encoding :=
  if 8 < nbits ∧ nbits ≤ 16 then
    if w < 2 ^ 14 then some (.access (BitVec.ofNat 14 w) 0) else none
  else if w < 2 ^ 32 then some (.block 0 ⟨BitVec.ofNat 32 w, 0, 0, 0, 0, 0⟩)
  else none

/-- What the decoder reads from those bits. -/
def decodeTableWord (nbits w : Nat) : Option Instr :=
  (tableEncoding nbits w).bind fun e => (decode e).toOption

end Sys2Proof
end

