-- ==== Sys2Proof/Machine/State.lean ====
section
/-! DEFINITION. The state of the machine: the complete state of the controller (R10), the memory behind
its accessor (R40, R41), and the model's own record of what crosses the controller's interfaces (R2).
-/

namespace Sys2Proof.Machine

/-- One of the 16 execution contexts: the nine registers of R11 and the level `IRQ[c]` of R20. -/
structure Channel where
  cs        : Word
  conblkAd  : Word
  ti        : Word
  sourceAd  : Word
  destAd    : Word
  txfrLen   : Word
  stride    : Word
  nextconbk : Word
  debug     : Word
  irq       : Bool
deriving DecidableEq, Repr

/-- The complete state of the controller (R10): 16 channels, `ENABLE` (R21) and `INT_STATUS` (R22). -/
structure Controller where
  channels  : Vector Channel 16
  enable    : Bitmap
  intStatus : Bitmap
deriving DecidableEq, Repr

/-- The bytes of the DMA address space (R25): the listed ones, every other byte reading as
`Config.unlistedByte`. -/
abbrev Memory := List Host.Cell

/-- The canonical form of a memory: addresses strictly rising and inside the 2^32 bytes of the DMA
address space (D8), and no entry equal to what an unlisted address reads as. -/
abbrev Memory.wf (m : Memory) : Prop :=
  m.Pairwise (fun x y => x.1 < y.1) ∧ ∀ x ∈ m, x.1 < 2 ^ 32 ∧ x.2 ≠ Config.unlistedByte

/-- The order in which the accessor lays the bytes of a word from its address up (R42, D10, U14). -/
inductive ByteOrder where
  | little
  | big
deriving DecidableEq, Repr

/-- The byte addresses `first` to `last`. -/
structure Span where
  first : Nat
  last  : Nat
deriving DecidableEq, Repr

/-- The policy of the Guest Memory Accessor: the parameter `Mem` of R4, wiring fixed for a run (R23, D11,
D12, U4, U14). It holds for addresses as the engine hands them over (R40, R47).

`order` is the byte order; `aligned` says that only multiples of 4 are accepted; `topWraps` that a word
may run over the top of the address space; `noRead` and `noWrite` list the bytes no read, no write may
touch; `ignored` is how many high address bits the memory does not look at, so that it wraps modulo its
size. `windowA` and `windowB` are where the controller's own windows are visible in the DMA address
space, if they are (R25, R51, D23, U12). -/
structure Accessor where
  order    : ByteOrder
  aligned  : Bool
  topWraps : Bool
  noRead   : List Span
  noWrite  : List Span
  ignored  : Fin 31
  windowA  : Option Word
  windowB  : Option Word
deriving DecidableEq, Repr

/-- The spec's default instance (20_memory section 1): flat, little-endian, every word access allowed at
every address, wrapping modulo 2^32; and no window in the DMA address space (R25, R51). -/
def Accessor.flat : Accessor where
  order := .little
  aligned := false
  topWraps := true
  noRead := []
  noWrite := []
  ignored := 0
  windowA := none
  windowB := none

/-- `Mem` (R4): the memory behind the accessor, its bytes and the accessor's policy. -/
structure Mem where
  bytes    : Memory
  accessor : Accessor
deriving DecidableEq, Repr

/-- The canonical form of the bytes. -/
abbrev Mem.wf (m : Mem) : Prop := m.bytes.wf

/-- One use of the memory master interface: `MemRead(addr, 4)` giving `value` (R40) or `MemWrite(addr, 4, value)` (R41). -/
inductive MemAccess where
  | read (addr value : Word)
  | write (addr value : Word)
deriving DecidableEq, Repr

/-- A diagnostic record, `diag(guest_error, info)` (R203): not architectural, nothing reads it. -/
inductive Diag where
  /-- R94, R95: an access at an invalid offset. -/
  | invalidOffset (w : Window) (d : Dir) (offset : BitVec 12)
  /-- R114, R116, R118, R120, R122, R124: an ignored write to register offset `r` of channel `c`. -/
  | readOnlyWrite (c : ChannelId) (r : BitVec 8)
deriving DecidableEq, Repr

/-- What the outside world does to the machine, one at a time (R3, R248). -/
inductive Event where
  /-- The bus master issues an MMIO access. -/
  | access (a : Access)
  /-- Another agent stores a byte of the DMA address space between two accesses (R3, R248, D24). -/
  | store (addr : Word) (value : Byte)
  /-- The controller's reset (R230). -/
  | reset
deriving DecidableEq, Repr

/-- What the latest event showed at the interfaces of R2: the value a read returned, the diagnostics
emitted, and the accesses made on the memory port, the newest first. -/
structure Outputs where
  response : Option Word
  diags    : List Diag
  traffic  : List MemAccess
deriving DecidableEq, Repr

/-- The machine. `ctl` is the controller's state (R10) and `mem` the memory behind its accessor (R4); `inbox`
(the events to come, the next first), `out` and `draws` (how many free values resets have drawn) are
the model's own (notes/assumptions 8 to 10). -/
structure State where
  ctl   : Controller
  mem   : Mem
  inbox : List Event
  out   : Outputs
  draws : Nat
deriving DecidableEq, Repr

/-- Why the machine stops. Both are the spec's hang: the triggering write never completes and has no
result (R183, R244, U5, U6). Safe: no state follows, so nothing can be concluded of one. -/
inductive Fault where
  /-- Raised by `CB.LINEAR`, `CB.2D` and by a `WR.CS` whose chain reaches such a block: the bytes of a
  row are not a multiple of 4, so the copy loop of channel `c` never ends (R183, U6), and none of the
  accesses it makes for ever is refused. Safe. -/
  | rowNeverEnds (c : ChannelId)
  /-- Raised by `WR.CS`: the chain of channel `c` never reaches a zero link (R204, R244, U5). Safe. -/
  | chainNeverEnds (c : ChannelId)
deriving DecidableEq, Repr

/-- Why the model gives an access no meaning. -/
inductive Refusal where
  /-- An instruction without a meaning in `exec`; no arm raises it. Safe. -/
  | notModelled (mnemonic : String)
  /-- Raised by the fetch: an access of another size than 4 bytes, `InvalidAccessWidth` (R90, R202, D15). Safe. -/
  | invalidAccessWidth (w : Window) (offset : BitVec 12) (size : Nat)
  /-- Raised by the fetch: an offset outside window B; such an access does not reach the block (R60, U13). Safe. -/
  | outsideWindow (offset : BitVec 12)
  /-- Raised by `CB.LINEAR`, `CB.2D` and by a `WR.CS` whose chain makes such an access: an engine access
  would reach one of the controller's own windows (R51, D23, U12), in a row that never ends too. Safe. -/
  | ownWindow (d : Dir) (addr : Word)
  /-- Raised likewise: the accessor's policy rejects an engine access (U4, D11, D12). Safe. -/
  | memoryRejects (d : Dir) (addr : Word)
deriving DecidableEq, Repr

/-- A channel after reset: CS and CONBLK_AD zero and the line deasserted (R35); `other` gives the seven
registers the spec leaves unspecified, TI, SOURCE_AD, DEST_AD, TXFR_LEN, STRIDE, NEXTCONBK, DEBUG (D19). -/
def Channel.afterReset (other : Vector Word 7) : Channel where
  cs := 0
  conblkAd := 0
  ti := other[0]
  sourceAd := other[1]
  destAd := other[2]
  txfrLen := other[3]
  stride := other[4]
  nextconbk := other[5]
  debug := other[6]
  irq := false

/-- The controller after reset (R35, R230): every channel idle and enabled, no interrupt pending. -/
def Controller.afterReset (other : Vector (Vector Word 7) 16) : Controller where
  channels := Vector.ofFn fun c => Channel.afterReset other[c]
  enable := 0xFFFF#16
  intStatus := 0

/-- Nothing has crossed the interfaces. -/
def Outputs.none : Outputs := ⟨Option.none, [], []⟩

/-- The machine right after reset (R35), the unspecified registers at `Config.resetOther`, no memory
listed behind the spec's default accessor, and no event pending. -/
def State.reset : State where
  ctl := Controller.afterReset (Vector.replicate 16 (Vector.replicate 7 Config.resetOther))
  mem := ⟨[], Accessor.flat⟩
  inbox := []
  out := Outputs.none
  draws := 0

end Sys2Proof.Machine
end

