-- ==== Sys2Proof/Machine/Ops.lean ====
section
/-! DEFINITION. The named operations over memory, registers, bitmaps and interfaces that every meaning
is written with, and the raising and acknowledging of an interrupt (60_exceptions section 4).
-/

namespace Sys2Proof.Machine

/-! Single bits of a word (R5). -/

/-- `w | BIT(n)`. -/
def setBit (n : Nat) (w : Word) : Word := w ||| (1#32 <<< n)

/-- `w & ~BIT(n)`. -/
def clearBit (n : Nat) (w : Word) : Word := w &&& ~~~(1#32 <<< n)

/-! The bytes of the memory (R25). -/

/-- The byte at address `a`. -/
def Memory.readByte (m : Memory) (a : Nat) : Byte :=
  match m with
  | [] => Config.unlistedByte
  | x :: rest => if x.1 = a then x.2 else Memory.readByte rest a

/-- Put `v` in front of `m`, unless an unlisted byte reads as `v` anyway. -/
def Memory.push (a : Nat) (v : Byte) (m : Memory) : Memory :=
  if v = Config.unlistedByte then m else (a, v) :: m

/-- Store the byte `v` at address `a`, keeping the canonical form. -/
def Memory.writeByte (m : Memory) (a : Nat) (v : Byte) : Memory :=
  match m with
  | [] => Memory.push a v []
  | x :: rest =>
    if a < x.1 then Memory.push a v (x :: rest)
    else if a = x.1 then Memory.push a v rest
    else x :: Memory.writeByte rest a v

/-! The accessor (R40 to R43): the parameter `Mem` of R4, within its contract (D11, D12). -/

/-- Where the byte at address `a` stands: the ignored high bits of `a` make no difference. -/
def Accessor.location (k : Accessor) (a : Word) : Nat := a.toNat % 2 ^ (32 - k.ignored.val)

/-- Where byte `i` from address `a` up stands, the address modulo 2^32 (D8). -/
def Accessor.byteLocation (k : Accessor) (a : Word) (i : Nat) : Nat :=
  k.location (a + BitVec.ofNat 32 i)

/-- How far from its address up the byte of a word with bits `8 * i + 7 : 8 * i` stands (R42). -/
def ByteOrder.place (o : ByteOrder) (i : Nat) : Nat :=
  match o with
  | .little => i
  | .big => 3 - i

/-- The byte that stands at `x`. -/
def Mem.readByte (m : Mem) (x : Nat) : Byte := m.bytes.readByte x

/-- Store the byte `v` at `x`. -/
def Mem.writeByte (m : Mem) (x : Nat) (v : Byte) : Mem := { m with bytes := m.bytes.writeByte x v }

/-- Where bits `8 * i + 7 : 8 * i` of the word at `a` stand (R42). -/
def Mem.slot (m : Mem) (a : Word) (i : Nat) : Nat :=
  m.accessor.byteLocation a (m.accessor.order.place i)

/-- `MemRead(a, 4)` (R40). -/
def Mem.readWord (m : Mem) (a : Word) : Word :=
  m.readByte (m.slot a 3) ++ m.readByte (m.slot a 2) ++ m.readByte (m.slot a 1) ++
    m.readByte (m.slot a 0)

/-- `MemWrite(a, 4, v)` (R41). -/
def Mem.writeWord (m : Mem) (a : Word) (v : Word) : Mem :=
  (((m.writeByte (m.slot a 0) (v.extractLsb' 0 8)).writeByte (m.slot a 1)
    (v.extractLsb' 8 8)).writeByte (m.slot a 2) (v.extractLsb' 16 8)).writeByte
      (m.slot a 3) (v.extractLsb' 24 8)

/-- Some byte of the word at address `addr` lies in the window of `size` bytes that is visible from
`base` on. -/
def wordInWindow (base : Option Word) (size : Nat) (addr : Word) : Bool :=
  match base with
  | none => false
  | some base => (List.range 4).any fun i => (addr + BitVec.ofNat 32 i - base).toNat < size

/-- Some byte of the word at address `addr` lies in one of the spans. -/
def wordInSpans (spans : List Span) (addr : Word) : Bool :=
  spans.any fun p => (List.range 4).any fun i =>
    p.first ≤ (addr + BitVec.ofNat 32 i).toNat && (addr + BitVec.ofNat 32 i).toNat ≤ p.last

/-- The access would reach one of the controller's own windows (R51). -/
def Accessor.reachesWindow (k : Accessor) (addr : Word) : Bool :=
  wordInWindow k.windowA Config.sizeA addr || wordInWindow k.windowB Config.sizeB addr

/-- The bytes that no access of this direction may touch. -/
def Accessor.spans (k : Accessor) : Dir → List Span
  | .read => k.noRead
  | .write => k.noWrite

/-- The policy rejects the access (U4, D11): it is never rounded and never skipped. -/
def Accessor.rejects (k : Accessor) (d : Dir) (addr : Word) : Bool :=
  (k.aligned && addr.toNat % 4 != 0) || (!k.topWraps && 2 ^ 32 < addr.toNat + 4) ||
    wordInSpans (k.spans d) addr

/-- Why the word access at `addr` is refused, if it is (D12, D23). -/
def Accessor.refusal (k : Accessor) (d : Dir) (addr : Word) : Option Refusal :=
  if k.reachesWindow addr then some (.ownWindow d addr)
  else if k.rejects d addr then some (.memoryRejects d addr)
  else none

/-- The direction and the address of a use of the memory port. -/
def MemAccess.dir : MemAccess → Dir
  | .read _ _ => .read
  | .write _ _ => .write

def MemAccess.addr : MemAccess → Word
  | .read a _ => a
  | .write a _ => a

/-- The refusal of the first of some accesses, the newest first, that is refused. -/
def Accessor.firstRefusal (k : Accessor) : List MemAccess → Option Refusal
  | [] => none
  | x :: older => (k.firstRefusal older).or (k.refusal x.dir x.addr)

/-! A run of word accesses that has no last one, at `addr`, `addr + 4`, … modulo 2^32 (R183). -/

/-- Why access number `n` of such a run is refused, if it is. -/
def Accessor.refusalAt (k : Accessor) (d : Dir) (addr : Word) (n : Nat) : Option Refusal :=
  k.refusal d (addr + BitVec.ofNat 32 (4 * n))

/-- The lowest bytes of what the accessor refuses: of the windows, of the spans, and of the bottom of the
address space, into which a word would run over the top. -/
def Accessor.edges (k : Accessor) (d : Dir) : List Word :=
  0 :: (k.windowA.toList ++ k.windowB.toList ++ (k.spans d).map fun p => BitVec.ofNat 32 p.first)

/-- How many words from `addr` up lie below the first one that holds byte `edge` or begins above it. -/
def wordsBelow (addr edge : Word) : Nat := ((edge - 3 - addr).toNat + 3) / 4

/-- The number of the first access refused, if one is, of such a run or, where the address stands still (`up`
is false), of accesses at `addr`. It is access 0 or the first to meet an edge, so no other is looked at. -/
def Accessor.firstRefused (k : Accessor) (d : Dir) (up : Bool) (addr : Word) : Option Nat :=
  ((0 :: if up then (k.edges d).map (wordsBelow addr) else []).filter fun n =>
    (k.refusalAt d addr n).isSome).min?

/-! Registers (R11): every read and write of a channel goes through these. -/

/-- The registers and line of channel `c`. -/
def Controller.ch (k : Controller) (c : ChannelId) : Channel := k.channels[c]

/-- Replace channel `c`. -/
def Controller.setCh (k : Controller) (c : ChannelId) (x : Channel) : Controller :=
  { k with channels := k.channels.set c x }

/-- The registers and line of channel `c`. -/
def State.ch (s : State) (c : ChannelId) : Channel := s.ctl.ch c

/-- Replace channel `c`. -/
def State.setCh (s : State) (c : ChannelId) (x : Channel) : State :=
  { s with ctl := s.ctl.setCh c x }

/-- `CH[c].CS <- f(CH[c].CS)`. -/
def State.modifyCs (s : State) (c : ChannelId) (f : Word → Word) : State :=
  s.setCh c { s.ch c with cs := f (s.ch c).cs }

/-- `ENABLE <- v`. -/
def State.setEnable (s : State) (v : Bitmap) : State := { s with ctl := { s.ctl with enable := v } }

/-- `INT_STATUS <- v`. -/
def State.setIntStatus (s : State) (v : Bitmap) : State :=
  { s with ctl := { s.ctl with intStatus := v } }

/-- Drive `IRQ[c]` (R20). -/
def State.setIrq (s : State) (c : ChannelId) (level : Bool) : State :=
  s.setCh c { s.ch c with irq := level }

/-- `INT_STATUS | BIT(c)` on a bitmap. -/
def Bitmap.setFor (m : Bitmap) (c : ChannelId) : Bitmap := m ||| (1#16 <<< c.val)

/-- `INT_STATUS & ~BIT(c)` on a bitmap. -/
def Bitmap.clearFor (m : Bitmap) (c : ChannelId) : Bitmap := m &&& ~~~(1#16 <<< c.val)

/-! Taking and acknowledging an interrupt: the controller's only exception (R200, R216, R217). -/

/-- Interrupt `c` is raised: INT, `INT_STATUS[c]` and `IRQ[c]` together (R170, R216). It saves nothing,
changes no mode and stops nothing. -/
def raiseInterrupt (c : ChannelId) (s : State) : State :=
  let s := s.modifyCs c (setBit Config.csInt)
  let s := s.setIntStatus (Bitmap.setFor s.ctl.intStatus c)
  s.setIrq c true

/-- Interrupt `c` is acknowledged: INT, `INT_STATUS[c]` and `IRQ[c]` cleared together (R144, R217). -/
def acknowledgeInterrupt (c : ChannelId) (s : State) : State :=
  let s := s.modifyCs c (clearBit Config.csInt)
  let s := s.setIntStatus (Bitmap.clearFor s.ctl.intStatus c)
  s.setIrq c false

/-! The interfaces (R2). -/

/-- An access begins: what the event before it showed is gone. -/
def State.begin (s : State) : State := { s with out := Outputs.none }

/-- A read completes and returns `v`. -/
def State.answer (s : State) (v : Word) : State := { s with out := { s.out with response := some v } }

/-- `diag(guest_error, d)` (R203). -/
def State.diag (s : State) (d : Diag) : State := { s with out := { s.out with diags := d :: s.out.diags } }

/-- Accesses made on the memory port, the newest first (R193). -/
def State.log (s : State) (accesses : List MemAccess) : State :=
  { s with out := { s.out with traffic := accesses ++ s.out.traffic } }

/-! What other agents do (R3). -/

/-- Another agent stores the byte at address `a` between two accesses (R248). -/
def storeByte (a : Word) (v : Byte) (s : State) : State :=
  { s.begin with mem := s.mem.writeByte (s.mem.accessor.location a) v }

/-- The values drawn by one reset for the seven unspecified registers of each channel, from the free
value number `n` on (R35, D19). -/
def resetDraws (n : Nat) : Vector (Vector Word 7) 16 :=
  Vector.ofFn fun c => Vector.ofFn fun k => Config.resetDraw (n + 7 * c.val + k.val)

/-- The controller's reset (R230): the memory is not touched. -/
def resetController (s : State) : State :=
  { s.begin with ctl := Controller.afterReset (resetDraws s.draws), draws := s.draws + 112 }

/-- The refusal of an access the decoder reads no instruction from (R90, U13). -/
def refusalOf : DecodeError → Refusal
  | .accessWidth w offset size => .invalidAccessWidth w offset size
  | .outsideWindow offset => .outsideWindow offset

/-! Where the next instruction is fetched from. -/

/-- The access that carries the key `key` and the data `v` (R60). -/
def accessOfKey (key : BitVec 14) (v : Word) : Access where
  window := if key.getLsbD 13 then .b else .a
  dir := if key.getLsbD 12 then .write else .read
  offset := key.extractLsb' 0 12
  size := 4
  data := v

/-- Put an access before every pending event. -/
def State.issue (s : State) (a : Access) : State := { s with inbox := .access a :: s.inbox }

/-- Where `State.placed` lays a control block. -/
def placedAt : Word := 0x1000#32

/-- Store the six words of a control block from address `a` on (R70). -/
def Mem.writeBlock (m : Mem) (a : Word) (b : Block) : Mem :=
  (((((m.writeWord a b.ti).writeWord (a + 4) b.src).writeWord (a + 8) b.dst).writeWord
    (a + 12) b.len).writeWord (a + 16) b.stride).writeWord (a + 20) b.next

/-- Make the next step run the encoded instruction: an access is issued; a control block is stored at
`placedAt`, channel `c` is enabled, inactive and pointed at it, and the write that raises its ACTIVE is
issued (R233). -/
def State.placed (s : State) : Encoding → State
  | .access key v => s.issue (accessOfKey key v)
  | .block c b =>
    let s := { s with mem := s.mem.writeBlock placedAt b }
    let s := s.setEnable (Bitmap.setFor s.ctl.enable c)
    let s := s.setCh c { s.ch c with conblkAd := placedAt, cs := clearBit Config.csActive (s.ch c).cs }
    s.issue (accessOfKey (keyOfSlot .write c 0x00#8) (setBit Config.csActive 0))

end Sys2Proof.Machine
end

