-- ==== Sys2Proof/Machine/Operands.lean ====
section
/-! DEFINITION. The operand forms: the registers and offsets an access names, and the fields of the words
of a control block (R71 to R73).
-/

namespace Sys2Proof.Machine

/-- The window A offset of register offset `r` in the slot of channel `c` (R61), or the window B offset
of channel 15 (R62). -/
def slotOffset (c : ChannelId) (r : BitVec 8) : BitVec 12 :=
  if c = channelB then 0#4 ++ r else BitVec.ofNat 4 c.val ++ r

/-- The window that reaches channel `c` (R11). -/
def slotWindow (c : ChannelId) : Window := if c = channelB then .b else .a

/-- The six flags of `transfer_info` the engine tests (R71, R190). -/
def interruptEnable (ti : Word) : Bool := ti.getLsbD Config.tiInten
def twoDimensional (ti : Word) : Bool := ti.getLsbD Config.tiTdmode
def sourceIncrement (ti : Word) : Bool := ti.getLsbD Config.tiSrcInc
def sourceIgnore (ti : Word) : Bool := ti.getLsbD Config.tiSrcIgnore
def destIncrement (ti : Word) : Bool := ti.getLsbD Config.tiDestInc
def destIgnore (ti : Word) : Bool := ti.getLsbD Config.tiDestIgnore

/-- `sext_16` of a 16-bit field (R5). -/
def signExtend16 (h : BitVec 16) : Word := h.signExtend 32

/-- The geometry of a transfer, resolved before its first step (R163, R164): the rows, the bytes of a
row (`x_row`), the row strides, and how the remaining length is packed (R168). -/
structure Geometry where
  packed    : Bool
  rows      : Nat
  rowBytes  : Word
  dstStride : Word
  srcStride : Word
deriving DecidableEq, Repr

/-- Linear mode: one row, the whole word is the byte count, strides are zero (R72, R163). -/
def linearGeometry (b : Block) : Geometry where
  packed := false
  rows := 1
  rowBytes := b.len
  dstStride := 0
  srcStride := 0

/-- 2D mode: rows in bits 29:16, bytes per row in bits 15:0, signed strides (R72, R73, R164). -/
def planeGeometry (b : Block) : Geometry where
  packed := true
  rows := (b.len.extractLsb' 16 14).toNat
  rowBytes := (b.len.extractLsb' 0 16).setWidth 32
  dstStride := signExtend16 (b.stride.extractLsb' 16 16)
  srcStride := signExtend16 (b.stride.extractLsb' 0 16)

/-- The steps of one row: a quarter of its bytes; none if the count, falling by 4 modulo 2^32, never
reaches 0 (R168, R183). -/
def rowSteps (bytes : Word) : Option Nat :=
  if bytes.toNat % 4 = 0 then some (bytes.toNat / 4) else none

/-- The re-pack of the remaining length: `(y << 16) | x` in 2D mode, else `x` (R168). -/
def packLength (g : Geometry) (y : Nat) (x : Word) : Word :=
  if g.packed then (BitVec.ofNat 32 y <<< 16) ||| x else x

end Sys2Proof.Machine
end

