-- ==== Sys2Proof/Machine/Flags.lean ====
section
/-! DEFINITION. Every computation of the flags of `status_control`: the steps of a CS write in their order
(R140 to R145), the completion of a descriptor (R170) and the exit of the engine (R181).
-/

namespace Sys2Proof.Machine

/-- Bit ACTIVE of channel `c`. -/
def State.active (s : State) (c : ChannelId) : Bool := (s.ch c).cs.getLsbD Config.csActive

/-- RESET step: a written 1 sets the sticky bit and does nothing else (R141). -/
def resetStep (c : ChannelId) (v : Word) (s : State) : State :=
  if v.getLsbD Config.csReset then s.modifyCs c (setBit Config.csReset) else s

/-- ABORT step, likewise (R142). -/
def abortStep (c : ChannelId) (v : Word) (s : State) : State :=
  if v.getLsbD Config.csAbort then s.modifyCs c (setBit Config.csAbort) else s

/-- END step: write 1 to clear (R143). -/
def endStep (c : ChannelId) (v : Word) (s : State) : State :=
  if v.getLsbD Config.csEnd then s.modifyCs c (clearBit Config.csEnd) else s

/-- INT step: a written 1 acknowledges the interrupt (R144). -/
def intStep (c : ChannelId) (v : Word) (s : State) : State :=
  if v.getLsbD Config.csInt then acknowledgeInterrupt c s else s

/-- Merge step: the bits of `CS_RW_MASK` are replaced by those of `v` (R145). -/
def mergeStep (c : ChannelId) (v : Word) (s : State) : State :=
  s.modifyCs c fun cs => (cs &&& ~~~Config.csRwMask) ||| (v &&& Config.csRwMask)

/-- The five steps of a CS write, in the order of R140, before its ACTIVE edge is looked at. -/
def csSteps (c : ChannelId) (v : Word) (s : State) : State :=
  mergeStep c v (intStep c v (endStep c v (abortStep c v (resetStep c v s))))

/-- Completion of a descriptor with flag word `ti`: END always, the interrupt if INTEN (R170). -/
def completeStep (c : ChannelId) (ti : Word) (s : State) : State :=
  let s := s.modifyCs c (setBit Config.csEnd)
  if interruptEnable ti then raiseInterrupt c s else s

/-- Exit of the engine: ACTIVE cleared unconditionally (R181). -/
def exitStep (c : ChannelId) (s : State) : State := s.modifyCs c (clearBit Config.csActive)

end Sys2Proof.Machine
end

