-- ==== Sys2Proof/Machine/Engine.lean ====
section
/-! DEFINITION. The control-block execution engine, `Engine(c)` (43_execution_engine, R160 to R193): the
fetch, the copy loops, one pass over a control block, and the run of a chain.
-/

namespace Sys2Proof.Machine

/-- What the copy loops of a channel read and write: its registers, the memory, and the memory port with
the accesses of this copy, the newest first. -/
structure Lane where
  ch      : Channel
  mem     : Mem
  traffic : List MemAccess
deriving DecidableEq, Repr

/-- The lane of channel `c`, no access made yet. -/
def State.lane (s : State) (c : ChannelId) : Lane := ⟨s.ch c, s.mem, []⟩

/-- Put the lane of channel `c` back. -/
def State.setLane (s : State) (c : ChannelId) (l : Lane) : State :=
  { s.setCh c l.ch with mem := l.mem, out := { s.out with traffic := l.traffic ++ s.out.traffic } }

/-! One step of the copy loop. -/

/-- Source side (R166): the data, and the lane with the cursor advanced. -/
def sourceStep (ti : Word) (l : Lane) : Word × Lane :=
  let addr := l.ch.sourceAd
  let data := if sourceIgnore ti then 0 else l.mem.readWord addr
  (data,
    { l with
      ch := { l.ch with sourceAd := if sourceIncrement ti then addr + 4 else addr }
      traffic := if sourceIgnore ti then l.traffic else .read addr data :: l.traffic })

/-- Destination side (R167). -/
def destStep (ti : Word) (data : Word) (l : Lane) : Lane :=
  let addr := l.ch.destAd
  { ch := { l.ch with destAd := if destIncrement ti then addr + 4 else addr }
    mem := if destIgnore ti then l.mem else l.mem.writeWord addr data
    traffic := if destIgnore ti then l.traffic else .write addr data :: l.traffic }

/-- One step (R165 to R168): source, destination, then the length re-packed with `y` rows and `x` bytes
left. -/
def copyStep (g : Geometry) (ti : Word) (y : Nat) (x : Word) (l : Lane) : Lane :=
  let (data, l) := sourceStep ti l
  let l := destStep ti data l
  { l with ch := { l.ch with txfrLen := packLength g y x } }

/-- The inner loop: `n` steps, `x` bytes left before the first (R165, R168). -/
def copyRow (g : Geometry) (ti : Word) (y : Nat) : Nat → Word → Lane → Lane
  | 0, _, l => l
  | n + 1, x, l => copyRow g ti y n (x - 4) (copyStep g ti y (x - 4) l)

/-- Row end with rows left: the strides are added to the cursors (R169). -/
def strideStep (g : Geometry) (l : Lane) : Lane :=
  { l with ch := { l.ch with
      sourceAd := l.ch.sourceAd + g.srcStride
      destAd := l.ch.destAd + g.dstStride } }

/-- The outer loop over `y` rows of `n` steps each; every row starts with the full row length (R165, R169). -/
def copyRows (g : Geometry) (ti : Word) (n : Nat) : Nat → Lane → Lane
  | 0, l => l
  | 1, l => copyRow g ti 1 n g.rowBytes l
  | y + 2, l => copyRows g ti n (y + 1) (strideStep g (copyRow g ti (y + 2) n g.rowBytes l))

/-- The copy of a whole transfer; none if it has a row and the row never ends (R183, R184). -/
def copyAll (g : Geometry) (ti : Word) (l : Lane) : Option Lane :=
  if g.rows = 0 then some l else (rowSteps g.rowBytes).map fun n => copyRows g ti n g.rows l

/-- The refusal a row that never ends runs into, if it does, from the cursors `src` and `dst` on: that of the
read or the write that comes first, a step reading before it writes (R165, R51, D12). -/
def Accessor.endlessRefusal (k : Accessor) (ti src dst : Word) : Option Refusal :=
  let read := if sourceIgnore ti then none else k.firstRefused .read (sourceIncrement ti) src
  let write := if destIgnore ti then none else k.firstRefused .write (destIncrement ti) dst
  match read, write with
  | none, none => none
  | some n, none => k.refusalAt .read src n
  | none, some m => k.refusalAt .write dst m
  | some n, some m => if n ≤ m then k.refusalAt .read src n else k.refusalAt .write dst m

/-! One pass over a control block. -/

/-- The six words stored in the registers that cache them (R162). -/
def loadBlock (b : Block) (ch : Channel) : Channel :=
  { ch with
    ti := b.ti
    sourceAd := b.src
    destAd := b.dst
    txfrLen := b.len
    stride := b.stride
    nextconbk := b.next }

/-- Chain advance: `CONBLK_AD <- NEXTCONBK`, the cached word (R180). -/
def advanceStep (c : ChannelId) (s : State) : State :=
  s.setCh c { s.ch c with conblkAd := (s.ch c).nextconbk }

/-- The loop body of R160 after its fetch: load, copy with geometry `g`, completion, chain advance. The run
is refused at the first access of the copy that reaches a window of the controller or that the accessor
rejects (R51, D12, D23), whether or not the copy ends; else a row that never ends is a fault (R183). -/
def runBlock (g : Geometry) (c : ChannelId) (b : Block) (s : State) :
    Host.Outcome State Fault Refusal :=
  let l := s.lane c
  match copyAll g b.ti { l with ch := loadBlock b l.ch } with
  | none =>
    match s.mem.accessor.endlessRefusal b.ti b.src b.dst with
    | some r => .refused r
    | none => .fault (.rowNeverEnds c)
  | some l =>
    match s.mem.accessor.firstRefusal l.traffic with
    | some r => .refused r
    | none => .next (advanceStep c (completeStep c b.ti (s.setLane c l)))

/-- A pass over a control block on the linear branch (R163, R187). -/
def runLinear (c : ChannelId) (b : Block) (s : State) : Host.Outcome State Fault Refusal :=
  runBlock (linearGeometry b) c b s

/-- A pass over a control block on the 2D branch (R164, R188). -/
def runPlane (c : ChannelId) (b : Block) (s : State) : Host.Outcome State Fault Refusal :=
  runBlock (planeGeometry b) c b s

/-! The chain. -/

/-- The six words from address `a` on, addresses modulo 2^32 (R70, R162). -/
def Mem.readBlock (m : Mem) (a : Word) : Block where
  ti := m.readWord a
  src := m.readWord (a + 4)
  dst := m.readWord (a + 8)
  len := m.readWord (a + 12)
  stride := m.readWord (a + 16)
  next := m.readWord (a + 20)

/-- The six reads of a fetch, in ascending address order, the newest first (R162). -/
def fetchTraffic (a : Word) (b : Block) : List MemAccess :=
  [.read (a + 20) b.next, .read (a + 16) b.stride, .read (a + 12) b.len, .read (a + 8) b.dst,
    .read (a + 4) b.src, .read a b.ti]

/-- The control block `CONBLK_AD` of channel `c` points at. -/
def State.currentBlock (s : State) (c : ChannelId) : Block := s.mem.readBlock (s.ch c).conblkAd

/-- The six reads of the fetch on the memory port. -/
def fetchStep (c : ChannelId) (s : State) : State :=
  s.log (fetchTraffic (s.ch c).conblkAd (s.currentBlock c))

/-- *Idle*: no chain to run (R33). -/
def State.idle (s : State) (c : ChannelId) : Bool := (s.ch c).conblkAd == 0

/-- *Eligible*: enable bit set and not idle (R33); the loop condition of R161. -/
def State.eligible (s : State) (c : ChannelId) : Bool :=
  s.ctl.enable.getLsbD c.val && !s.idle c

/-- The engine between two descriptors. -/
inductive Chain where
  /-- The loop condition failed and the exit is done. -/
  | ended (s : State)
  /-- A pass completed; the loop condition is to be tested again. -/
  | running (s : State)
  /-- A row never ends (R183). -/
  | faulted (r : Fault)
  /-- An access is refused (R51, D12). -/
  | refused (r : Refusal)
deriving DecidableEq, Repr

/-- What a pass leaves the loop in. -/
def Chain.ofOutcome : Host.Outcome State Fault Refusal → Chain
  | .next t => .running t
  | .fault r => .faulted r
  | .refused r => .refused r

/-- Why the fetch of channel `c` is refused, if it is. -/
def State.fetchRefusal (s : State) (c : ChannelId) : Option Refusal :=
  s.mem.accessor.firstRefusal (fetchTraffic (s.ch c).conblkAd (s.currentBlock c))

/-- The block `b` fetched, taken on the branch its TDMODE flag selects (R160). -/
def runFetched (c : ChannelId) (b : Block) (s : State) : Host.Outcome State Fault Refusal :=
  if twoDimensional b.ti then runPlane c b s else runLinear c b s

/-- One turn of the loop of R160: the condition, then the exit or one pass. -/
def chainPass (c : ChannelId) (s : State) : Chain :=
  if s.eligible c then
    match s.fetchRefusal c with
    | some r => .refused r
    | none => Chain.ofOutcome (runFetched c (s.currentBlock c) (fetchStep c s))
  else .ended (exitStep c s)

/-- `2 ^ k` turns, fewer if the chain ends. -/
def chainPasses (c : ChannelId) : Nat → State → Chain
  | 0, s => chainPass c s
  | k + 1, s =>
    match chainPasses c k s with
    | .running t => chainPasses c k t
    | r => r

/-- `2 ^ k + 2 ^ (k + 1) + …` turns, `n` terms, fewer if the chain ends. -/
def runChain (c : ChannelId) : Nat → Nat → State → Chain
  | 0, _, s => .running s
  | n + 1, k, s =>
    match chainPasses c k s with
    | .running t => runChain c n (k + 1) t
    | r => r

/-- What a run of the chain of channel `c` answers: the state after the exit, the fault of a row or a
chain that never ends (R183, R244), or the refusal of an access (R51, D12). -/
def chainOutcome (c : ChannelId) : Chain → Host.Outcome State Fault Refusal
  | .ended t => .next t
  | .running _ => .fault (.chainNeverEnds c)
  | .faulted r => .fault r
  | .refused r => .refused r

/-- `Engine(c)` (R160), run to completion inside the access that triggers it (R3, R240). -/
def engine (c : ChannelId) (s : State) : Host.Outcome State Fault Refusal :=
  chainOutcome c (runChain c Config.chainLevels 0 s)

end Sys2Proof.Machine
end

