-- ==== Sys2Proof/Machine/ControlBlocks.lean ====
section
/-! DEFINITION. The two control-block forms as instructions (R187, R188): what one pass of the engine of
channel `c` does with the six words it fetched.
-/

namespace Sys2Proof.Machine

/-- `CB.LINEAR` (R187). -/
def execCbLinear (c : ChannelId) (b : Block) (s : State) : Host.Outcome State Fault Refusal :=
  runLinear c b s

/-- `CB.2D` (R188). -/
def execCb2D (c : ChannelId) (b : Block) (s : State) : Host.Outcome State Fault Refusal :=
  runPlane c b s

end Sys2Proof.Machine
end

