-- ==== Sys2Proof/Machine/Globals.lean ====
section
/-! DEFINITION. The two global registers of window A (41_register_access section 2).
-/

namespace Sys2Proof.Machine

/-- A read of a global bitmap returns it zero-extended and changes no state (R64, R133). -/
def readBitmap (m : Bitmap) (s : State) : Host.Outcome State Fault Refusal :=
  .next (s.begin.answer (m.setWidth 32))

/-- `RD.INT_STATUS` (R127). -/
def execRdIntStatus (s : State) : Host.Outcome State Fault Refusal :=
  readBitmap s.ctl.intStatus s

/-- `WR.INT_STATUS`: ignored (R128). -/
def execWrIntStatus (_v : Word) (s : State) : Host.Outcome State Fault Refusal :=
  .next s.begin

/-- `RD.ENABLE` (R129). -/
def execRdEnable (s : State) : Host.Outcome State Fault Refusal :=
  readBitmap s.ctl.enable s

/-- `WR.ENABLE`: the low 16 bits replace the bitmap; it starts and stops nothing (R130). -/
def execWrEnable (v : Word) (s : State) : Host.Outcome State Fault Refusal :=
  .next (s.begin.setEnable (v.extractLsb' 0 16))

end Sys2Proof.Machine
end

