-- ==== Sys2Proof/Machine/InvalidOffsets.lean ====
section
/-! DEFINITION. The catch-all operations of the decoder, `RD.INVALID` and `WR.INVALID` (R94, R95).
-/

namespace Sys2Proof.Machine

/-- `InvalidOffset(window, read, offset)`: a diagnostic, and the value 0 (R94). -/
def readInvalid (w : Window) (offset : BitVec 12) (s : State) : Host.Outcome State Fault Refusal :=
  .next ((s.begin.diag (.invalidOffset w .read offset)).answer 0)

/-- `InvalidOffset(window, write, offset)`: a diagnostic, and nothing else (R95). -/
def writeInvalid (w : Window) (offset : BitVec 12) (s : State) : Host.Outcome State Fault Refusal :=
  .next (s.begin.diag (.invalidOffset w .write offset))

/-- `RD.INVALID` at window A offset `0xF00 + r` (R94, R97). -/
def execRdInvalidAG (r : BitVec 8) (s : State) : Host.Outcome State Fault Refusal :=
  readInvalid .a (0xF#4 ++ r) s

/-- `WR.INVALID` at window A offset `0xF00 + r` (R95, R97). -/
def execWrInvalidAG (r : BitVec 8) (_v : Word) (s : State) : Host.Outcome State Fault Refusal :=
  writeInvalid .a (0xF#4 ++ r) s

/-- `RD.INVALID` at offset `r` of the slot of channel `c` (R94, R96). -/
def execRdInvalidANY (c : ChannelId) (r : BitVec 8) (s : State) :
    Host.Outcome State Fault Refusal :=
  readInvalid (slotWindow c) (slotOffset c r) s

/-- `WR.INVALID` at offset `r` of the slot of channel `c` (R95, R96). -/
def execWrInvalidANY (c : ChannelId) (r : BitVec 8) (_v : Word) (s : State) :
    Host.Outcome State Fault Refusal :=
  writeInvalid (slotWindow c) (slotOffset c r) s

end Sys2Proof.Machine
end

