-- ==== Sys2Proof/Machine/RegisterReads.lean ====
section
/-! DEFINITION. Reads of the channel registers through both windows (41_register_access section 1).
-/

namespace Sys2Proof.Machine

/-- A read of register `f` of channel `c` returns its value and changes no state (R45, R133). -/
def readRegister (f : Channel → Word) (c : ChannelId) (s : State) : Host.Outcome State Fault Refusal :=
  .next (s.begin.answer (f (s.ch c)))

/-- `RD.CS`, channels 0 to 14 (R110). -/
def execRdCsAC (c : Fin 15) (s : State) : Host.Outcome State Fault Refusal :=
  readRegister Channel.cs (slotA c) s

/-- `RD.CS`, channel 15 (R110). -/
def execRdCsBC (s : State) : Host.Outcome State Fault Refusal :=
  readRegister Channel.cs channelB s

/-- `RD.CONBLK_AD`, channels 0 to 14 (R111). -/
def execRdConblkAdAC (c : Fin 15) (s : State) : Host.Outcome State Fault Refusal :=
  readRegister Channel.conblkAd (slotA c) s

/-- `RD.CONBLK_AD`, channel 15 (R111). -/
def execRdConblkAdBC (s : State) : Host.Outcome State Fault Refusal :=
  readRegister Channel.conblkAd channelB s

/-- `RD.TI`, channels 0 to 14 (R113). -/
def execRdTiAC (c : Fin 15) (s : State) : Host.Outcome State Fault Refusal :=
  readRegister Channel.ti (slotA c) s

/-- `RD.TI`, channel 15 (R113). -/
def execRdTiBC (s : State) : Host.Outcome State Fault Refusal :=
  readRegister Channel.ti channelB s

/-- `RD.SOURCE_AD`, channels 0 to 14 (R115). -/
def execRdSourceAdAC (c : Fin 15) (s : State) : Host.Outcome State Fault Refusal :=
  readRegister Channel.sourceAd (slotA c) s

/-- `RD.SOURCE_AD`, channel 15 (R115). -/
def execRdSourceAdBC (s : State) : Host.Outcome State Fault Refusal :=
  readRegister Channel.sourceAd channelB s

/-- `RD.DEST_AD`, channels 0 to 14 (R117). -/
def execRdDestAdAC (c : Fin 15) (s : State) : Host.Outcome State Fault Refusal :=
  readRegister Channel.destAd (slotA c) s

/-- `RD.DEST_AD`, channel 15 (R117). -/
def execRdDestAdBC (s : State) : Host.Outcome State Fault Refusal :=
  readRegister Channel.destAd channelB s

/-- `RD.TXFR_LEN`, channels 0 to 14 (R119). -/
def execRdTxfrLenAC (c : Fin 15) (s : State) : Host.Outcome State Fault Refusal :=
  readRegister Channel.txfrLen (slotA c) s

/-- `RD.TXFR_LEN`, channel 15 (R119). -/
def execRdTxfrLenBC (s : State) : Host.Outcome State Fault Refusal :=
  readRegister Channel.txfrLen channelB s

/-- `RD.STRIDE`, channels 0 to 14 (R121). -/
def execRdStrideAC (c : Fin 15) (s : State) : Host.Outcome State Fault Refusal :=
  readRegister Channel.stride (slotA c) s

/-- `RD.STRIDE`, channel 15 (R121). -/
def execRdStrideBC (s : State) : Host.Outcome State Fault Refusal :=
  readRegister Channel.stride channelB s

/-- `RD.NEXTCONBK`, channels 0 to 14 (R123). -/
def execRdNextconbkAC (c : Fin 15) (s : State) : Host.Outcome State Fault Refusal :=
  readRegister Channel.nextconbk (slotA c) s

/-- `RD.NEXTCONBK`, channel 15 (R123). -/
def execRdNextconbkBC (s : State) : Host.Outcome State Fault Refusal :=
  readRegister Channel.nextconbk channelB s

/-- `RD.DEBUG`, channels 0 to 14 (R125). -/
def execRdDebugAC (c : Fin 15) (s : State) : Host.Outcome State Fault Refusal :=
  readRegister Channel.debug (slotA c) s

/-- `RD.DEBUG`, channel 15 (R125). -/
def execRdDebugBC (s : State) : Host.Outcome State Fault Refusal :=
  readRegister Channel.debug channelB s

end Sys2Proof.Machine
end

