-- ==== Sys2Proof/Machine/RegisterWrites.lean ====
section
/-! DEFINITION. Writes of the channel registers other than `status_control`, through both windows
(41_register_access section 1).
-/

namespace Sys2Proof.Machine

/-- A write that replaces channel `c` by `f` of it and does nothing else. -/
def writeRegister (f : Channel → Channel) (c : ChannelId) (s : State) :
    Host.Outcome State Fault Refusal :=
  .next (s.begin.setCh c (f (s.ch c)))

/-- A write to a read-only register is ignored: `diag(guest_error, (c, write, r))` (R201). -/
def ignoreWrite (c : ChannelId) (r : BitVec 8) (s : State) : Host.Outcome State Fault Refusal :=
  .next (s.begin.diag (.readOnlyWrite c r))

/-- `WR.CONBLK_AD`, channels 0 to 14: stored verbatim, with no chain side effect (R112). -/
def execWrConblkAdAC (c : Fin 15) (v : Word) (s : State) : Host.Outcome State Fault Refusal :=
  writeRegister (fun ch => { ch with conblkAd := v }) (slotA c) s

/-- `WR.CONBLK_AD`, channel 15: stored verbatim, with no chain side effect (R112). -/
def execWrConblkAdBC (v : Word) (s : State) : Host.Outcome State Fault Refusal :=
  writeRegister (fun ch => { ch with conblkAd := v }) channelB s

/-- `WR.TI`, channels 0 to 14: read-only, the write is ignored (R114). -/
def execWrTiAC (c : Fin 15) (_v : Word) (s : State) : Host.Outcome State Fault Refusal :=
  ignoreWrite (slotA c) 0x08#8 s

/-- `WR.TI`, channel 15: read-only, the write is ignored (R114). -/
def execWrTiBC (_v : Word) (s : State) : Host.Outcome State Fault Refusal :=
  ignoreWrite channelB 0x08#8 s

/-- `WR.SOURCE_AD`, channels 0 to 14: read-only, the write is ignored (R116). -/
def execWrSourceAdAC (c : Fin 15) (_v : Word) (s : State) : Host.Outcome State Fault Refusal :=
  ignoreWrite (slotA c) 0x0C#8 s

/-- `WR.SOURCE_AD`, channel 15: read-only, the write is ignored (R116). -/
def execWrSourceAdBC (_v : Word) (s : State) : Host.Outcome State Fault Refusal :=
  ignoreWrite channelB 0x0C#8 s

/-- `WR.DEST_AD`, channels 0 to 14: read-only, the write is ignored (R118). -/
def execWrDestAdAC (c : Fin 15) (_v : Word) (s : State) : Host.Outcome State Fault Refusal :=
  ignoreWrite (slotA c) 0x10#8 s

/-- `WR.DEST_AD`, channel 15: read-only, the write is ignored (R118). -/
def execWrDestAdBC (_v : Word) (s : State) : Host.Outcome State Fault Refusal :=
  ignoreWrite channelB 0x10#8 s

/-- `WR.TXFR_LEN`, channels 0 to 14: read-only, the write is ignored (R120). -/
def execWrTxfrLenAC (c : Fin 15) (_v : Word) (s : State) : Host.Outcome State Fault Refusal :=
  ignoreWrite (slotA c) 0x14#8 s

/-- `WR.TXFR_LEN`, channel 15: read-only, the write is ignored (R120). -/
def execWrTxfrLenBC (_v : Word) (s : State) : Host.Outcome State Fault Refusal :=
  ignoreWrite channelB 0x14#8 s

/-- `WR.STRIDE`, channels 0 to 14: read-only, the write is ignored (R122). -/
def execWrStrideAC (c : Fin 15) (_v : Word) (s : State) : Host.Outcome State Fault Refusal :=
  ignoreWrite (slotA c) 0x18#8 s

/-- `WR.STRIDE`, channel 15: read-only, the write is ignored (R122). -/
def execWrStrideBC (_v : Word) (s : State) : Host.Outcome State Fault Refusal :=
  ignoreWrite channelB 0x18#8 s

/-- `WR.NEXTCONBK`, channels 0 to 14: read-only, the write is ignored (R124). -/
def execWrNextconbkAC (c : Fin 15) (_v : Word) (s : State) : Host.Outcome State Fault Refusal :=
  ignoreWrite (slotA c) 0x1C#8 s

/-- `WR.NEXTCONBK`, channel 15: read-only, the write is ignored (R124). -/
def execWrNextconbkBC (_v : Word) (s : State) : Host.Outcome State Fault Refusal :=
  ignoreWrite channelB 0x1C#8 s

/-- `WR.DEBUG`, channels 0 to 14: stored verbatim (R126). -/
def execWrDebugAC (c : Fin 15) (v : Word) (s : State) : Host.Outcome State Fault Refusal :=
  writeRegister (fun ch => { ch with debug := v }) (slotA c) s

/-- `WR.DEBUG`, channel 15: stored verbatim (R126). -/
def execWrDebugBC (v : Word) (s : State) : Host.Outcome State Fault Refusal :=
  writeRegister (fun ch => { ch with debug := v }) channelB s

end Sys2Proof.Machine
end

