-- ==== Sys2Proof/Machine/StatusControl.lean ====
section
/-! DEFINITION. `WR.CS`, the write of `status_control` (42_status_control): the only operation that clears
flags, acknowledges an interrupt and starts the engine.
-/

namespace Sys2Proof.Machine

/-- `WriteCS(c, v)` (R140): the five steps, then the engine if bit ACTIVE rose (R146). -/
def writeCs (c : ChannelId) (v : Word) (s : State) : Host.Outcome State Fault Refusal :=
  let t := csSteps c v s.begin
  if !s.active c && t.active c then engine c t else .next t

/-- `WR.CS`, channels 0 to 14 (R140). -/
def execWrCsAC (c : Fin 15) (v : Word) (s : State) : Host.Outcome State Fault Refusal :=
  writeCs (slotA c) v s

/-- `WR.CS`, channel 15 (R140). -/
def execWrCsBC (v : Word) (s : State) : Host.Outcome State Fault Refusal :=
  writeCs channelB v s

end Sys2Proof.Machine
end

