-- ==== Sys2Proof/Machine/Dispatch.lean ====
section
/-! DEFINITION. `exec`: one arm per row of spec/opcode_table.json, each one call of the row's meaning. -/

namespace Sys2Proof.Machine

def exec (i : Instr) (s : State) : Host.Outcome State Fault Refusal :=
  match i with
  | .rdIntStatus => Sys2Proof.Machine.execRdIntStatus s
  | .wrIntStatus v => Sys2Proof.Machine.execWrIntStatus v s
  | .rdEnable => Sys2Proof.Machine.execRdEnable s
  | .wrEnable v => Sys2Proof.Machine.execWrEnable v s
  | .rdInvalidAG r => Sys2Proof.Machine.execRdInvalidAG r s
  | .wrInvalidAG r v => Sys2Proof.Machine.execWrInvalidAG r v s
  | .rdCsAC c => Sys2Proof.Machine.execRdCsAC c s
  | .rdCsBC => Sys2Proof.Machine.execRdCsBC s
  | .wrCsAC c v => Sys2Proof.Machine.execWrCsAC c v s
  | .wrCsBC v => Sys2Proof.Machine.execWrCsBC v s
  | .rdConblkAdAC c => Sys2Proof.Machine.execRdConblkAdAC c s
  | .rdConblkAdBC => Sys2Proof.Machine.execRdConblkAdBC s
  | .wrConblkAdAC c v => Sys2Proof.Machine.execWrConblkAdAC c v s
  | .wrConblkAdBC v => Sys2Proof.Machine.execWrConblkAdBC v s
  | .rdTiAC c => Sys2Proof.Machine.execRdTiAC c s
  | .rdTiBC => Sys2Proof.Machine.execRdTiBC s
  | .wrTiAC c v => Sys2Proof.Machine.execWrTiAC c v s
  | .wrTiBC v => Sys2Proof.Machine.execWrTiBC v s
  | .rdSourceAdAC c => Sys2Proof.Machine.execRdSourceAdAC c s
  | .rdSourceAdBC => Sys2Proof.Machine.execRdSourceAdBC s
  | .wrSourceAdAC c v => Sys2Proof.Machine.execWrSourceAdAC c v s
  | .wrSourceAdBC v => Sys2Proof.Machine.execWrSourceAdBC v s
  | .rdDestAdAC c => Sys2Proof.Machine.execRdDestAdAC c s
  | .rdDestAdBC => Sys2Proof.Machine.execRdDestAdBC s
  | .wrDestAdAC c v => Sys2Proof.Machine.execWrDestAdAC c v s
  | .wrDestAdBC v => Sys2Proof.Machine.execWrDestAdBC v s
  | .rdTxfrLenAC c => Sys2Proof.Machine.execRdTxfrLenAC c s
  | .rdTxfrLenBC => Sys2Proof.Machine.execRdTxfrLenBC s
  | .wrTxfrLenAC c v => Sys2Proof.Machine.execWrTxfrLenAC c v s
  | .wrTxfrLenBC v => Sys2Proof.Machine.execWrTxfrLenBC v s
  | .rdStrideAC c => Sys2Proof.Machine.execRdStrideAC c s
  | .rdStrideBC => Sys2Proof.Machine.execRdStrideBC s
  | .wrStrideAC c v => Sys2Proof.Machine.execWrStrideAC c v s
  | .wrStrideBC v => Sys2Proof.Machine.execWrStrideBC v s
  | .rdNextconbkAC c => Sys2Proof.Machine.execRdNextconbkAC c s
  | .rdNextconbkBC => Sys2Proof.Machine.execRdNextconbkBC s
  | .wrNextconbkAC c v => Sys2Proof.Machine.execWrNextconbkAC c v s
  | .wrNextconbkBC v => Sys2Proof.Machine.execWrNextconbkBC v s
  | .rdDebugAC c => Sys2Proof.Machine.execRdDebugAC c s
  | .rdDebugBC => Sys2Proof.Machine.execRdDebugBC s
  | .wrDebugAC c v => Sys2Proof.Machine.execWrDebugAC c v s
  | .wrDebugBC v => Sys2Proof.Machine.execWrDebugBC v s
  | .rdInvalidANY c r => Sys2Proof.Machine.execRdInvalidANY c r s
  | .wrInvalidANY c r v => Sys2Proof.Machine.execWrInvalidANY c r v s
  | .cbLinear c b => Sys2Proof.Machine.execCbLinear c b s
  | .cb2D c b => Sys2Proof.Machine.execCb2D c b s

end Sys2Proof.Machine
end

