-- ==== Sys2Proof/Machine/Fetch.lean ====
section
/-! DEFINITION. Fetching: the next event of the outside world, taken and completed whole (R3), and the
placing of an instruction where the next step fetches it.
-/

namespace Sys2Proof.Machine

/-- An access of the bus master: decoded, then executed (R90 to R93); refused where the decoder reads no
instruction. -/
def runAccess (a : Access) (s : State) : Host.Outcome State Fault Refusal :=
  match decodeAccess a with
  | .ok i => exec i s
  | .error e => .refused (refusalOf e)

/-- One event (R3, R230, R248). -/
def runEvent (e : Event) (s : State) : Host.Outcome State Fault Refusal :=
  match e with
  | .access a => runAccess a s
  | .store addr v => .next (storeByte addr v s)
  | .reset => .next (resetController s)

/-- The next event is taken and completed before any other (R3, R240); with none pending nothing changes (R34). -/
def runNext (s : State) : Host.Outcome State Fault Refusal :=
  match s.inbox with
  | [] => .next s
  | e :: rest => runEvent e { s with inbox := rest }

/-- `s` made to run next the instruction whose bits are `w` (notes/assumptions/9). -/
def placeTableWord (s : State) (nbits w : Nat) : State :=
  match tableEncoding nbits w with
  | some e => s.placed e
  | none => s

end Sys2Proof.Machine
end

