-- ==== Sys2Proof/Machine/Step.lean ====
section
/-! DEFINITION. One step of the machine (R3), and the host's way to make it run one instruction next.
-/

namespace Sys2Proof.Machine

/-- One step: one event of the outside world, whole (R3). -/
def step (s : State) : Host.Outcome State Fault Refusal := runNext s

/-- `s` made to run next the instruction whose bits are `w`, as spec/opcode_table.json numbers them. -/
def State.withFetchWord (s : State) (nbits w : Nat) : State := placeTableWord s nbits w

end Sys2Proof.Machine
end

