-- ==== Sys2Proof/Safety.lean ====
section
/-! DEFINITION. The terms claims are stated in: the invariants of 10_state section 9, what an access leaves
alone, the plain loop of the engine, the copies of R187 and R188 written out as that text writes them,
and what a safe run is.
-/

namespace Sys2Proof

/-- An access that reads: `K[12]` is 0 (R60). -/
def Instr.isRead (i : Instr) : Bool :=
  match encode i with
  | .access key _ => !key.getLsbD 12
  | .block _ _ => false

/-- The channel an instruction names, if it names one (R34). -/
def Instr.channel : Instr → Option ChannelId
  | .rdIntStatus | .wrIntStatus _ | .rdEnable | .wrEnable _
  | .rdInvalidAG _ | .wrInvalidAG _ _ => none
  | .rdCsAC c | .rdConblkAdAC c | .rdTiAC c | .rdSourceAdAC c | .rdDestAdAC c | .rdTxfrLenAC c
  | .rdStrideAC c | .rdNextconbkAC c | .rdDebugAC c => some (slotA c)
  | .wrCsAC c _ | .wrConblkAdAC c _ | .wrTiAC c _ | .wrSourceAdAC c _ | .wrDestAdAC c _
  | .wrTxfrLenAC c _ | .wrStrideAC c _ | .wrNextconbkAC c _ | .wrDebugAC c _ => some (slotA c)
  | .rdCsBC | .rdConblkAdBC | .rdTiBC | .rdSourceAdBC | .rdDestAdBC | .rdTxfrLenBC
  | .rdStrideBC | .rdNextconbkBC | .rdDebugBC => some channelB
  | .wrCsBC _ | .wrConblkAdBC _ | .wrTiBC _ | .wrSourceAdBC _ | .wrDestAdBC _
  | .wrTxfrLenBC _ | .wrStrideBC _ | .wrNextconbkBC _ | .wrDebugBC _ => some channelB
  | .rdInvalidANY c _ | .wrInvalidANY c _ _ | .cbLinear c _ | .cb2D c _ => some c

/-- `i` is `WR.CS c, v`, through the window that reaches channel `c` (R78). -/
def Instr.IsCsWrite (i : Instr) (c : ChannelId) (v : Word) : Prop :=
  (∃ c', i = .wrCsAC c' v ∧ c = slotA c') ∨ (i = .wrCsBC v ∧ c = channelB)

end Sys2Proof

namespace Sys2Proof.Machine

/-! What holds between accesses. -/

/-- `INT_STATUS[c] = CH[c].CS[CS_INT] = IRQ[c]` for every channel (R30). -/
abbrev State.interruptsAgree (s : State) : Prop :=
  ∀ c : ChannelId, s.ctl.intStatus.getLsbD c.val = (s.ch c).cs.getLsbD Config.csInt ∧
    (s.ch c).irq = (s.ch c).cs.getLsbD Config.csInt

/-- ACTIVE is 0 in every channel (R31). -/
abbrev State.inactive (s : State) : Prop := ∀ c : ChannelId, s.active c = false

/-- The bits of CS that R32 lets be 1: `CS_RW_MASK`, END, INT, ABORT and RESET. -/
def csUsed : Word :=
  setBit Config.csEnd (setBit Config.csInt (setBit Config.csAbort
    (setBit Config.csReset Config.csRwMask)))

/-- Every other bit of CS is 0 in every channel (R32). -/
abbrev State.reservedClear (s : State) : Prop := ∀ c : ChannelId, (s.ch c).cs &&& ~~~csUsed = 0

/-- What holds between any two accesses (R30, R31, R32), with the memory in its canonical form. -/
abbrev State.Inv (s : State) : Prop :=
  s.interruptsAgree ∧ s.inactive ∧ s.reservedClear ∧ s.mem.wf

/-- Source `c` is pending in one of its three places (R212). -/
def State.pending (s : State) (c : ChannelId) : Bool :=
  (s.ch c).cs.getLsbD Config.csInt || s.ctl.intStatus.getLsbD c.val || (s.ch c).irq

/-! What an access leaves alone. -/

/-- Nothing but what the access shows at the interfaces differs. -/
def Unchanged (s t : State) : Prop :=
  t.ctl = s.ctl ∧ t.mem = s.mem ∧ t.inbox = s.inbox ∧ t.draws = s.draws

/-- The state outside channel `c`, the memory and the outputs: every other channel with its bit of
`INT_STATUS`, `ENABLE`, the events to come. -/
def UnchangedOutside (c : ChannelId) (s t : State) : Prop :=
  (∀ d, d ≠ c → t.ch d = s.ch d ∧ t.ctl.intStatus.getLsbD d.val = s.ctl.intStatus.getLsbD d.val) ∧
    t.ctl.enable = s.ctl.enable ∧ t.inbox = s.inbox ∧ t.draws = s.draws

/-- The access `i` completes in `s`, returns `v`, uses no memory and changes nothing. -/
def Returns (i : Instr) (s : State) (v : Word) : Prop :=
  ∃ t, exec i s = .next t ∧ t.out.response = some v ∧ t.out.traffic = [] ∧ Unchanged s t

/-- The access `i` completes in `s`, returns no value, uses no memory and changes nothing. -/
def Ignored (i : Instr) (s : State) : Prop :=
  ∃ t, exec i s = .next t ∧ t.out.response = none ∧ t.out.traffic = [] ∧ Unchanged s t

/-- The access `i` completes in `s`, returns no value, uses no memory, and changes nothing but channel
`c`, which becomes `x`. -/
def Stores (i : Instr) (s : State) (c : ChannelId) (x : Channel) : Prop :=
  ∃ t, exec i s = .next t ∧ t.out.response = none ∧ t.out.traffic = [] ∧ t.ch c = x ∧
    UnchangedOutside c s t ∧ t.ctl.intStatus = s.ctl.intStatus ∧ t.mem = s.mem

/-! The CS write. -/

/-- Bit `i` of CS after the five steps of R140, of a write of `v` over `old`: masked bits are replaced,
RESET and ABORT can only be set, END and INT only cleared, every other bit stays. -/
def csBit (v old : Word) (i : Nat) : Bool :=
  if Config.csRwMask.getLsbD i then v.getLsbD i
  else if i = Config.csReset ∨ i = Config.csAbort then old.getLsbD i || v.getLsbD i
  else if i = Config.csEnd ∨ i = Config.csInt then old.getLsbD i && !v.getLsbD i
  else old.getLsbD i

/-- What the five steps of a write of `v` to the CS of channel `c` make of `s` (R140 to R145). -/
def CsWritten (c : ChannelId) (v : Word) (s t : State) : Prop :=
  (∀ i, i < 32 → (t.ch c).cs.getLsbD i = csBit v (s.ch c).cs i) ∧
    (t.ctl.intStatus.getLsbD c.val =
      (s.ctl.intStatus.getLsbD c.val && !v.getLsbD Config.csInt)) ∧
    t.ch c = { s.ch c with
      cs := (t.ch c).cs, irq := (s.ch c).irq && !v.getLsbD Config.csInt } ∧
    UnchangedOutside c s t ∧ t.mem = s.mem

/-! The engine's loop, and the two copies as R187 and R188 write them. -/

/-- `n` turns of the loop of R160 from `s`, one by one; fewer if the chain ends or gets stuck. -/
def turns (c : ChannelId) : Nat → State → Chain
  | 0, s => .running s
  | n + 1, s =>
    match chainPass c s with
    | .running t => turns c n t
    | r => r

/-- The chain of channel `c` ends from `s`, in the state `t` after the engine's exit (R180, R181). -/
def ChainEnds (c : ChannelId) (s t : State) : Prop := ∃ n, turns c n s = .ended t

/-- The chain of channel `c` never ends from `s` (R244). -/
def ChainNeverEnds (c : ChannelId) (s : State) : Prop := ∀ n, ∃ t, turns c n s = .running t

/-- The chain of channel `c` reaches, from `s`, a block with a row that never ends and makes no access that is
refused (R183). -/
def ChainGetsStuck (c : ChannelId) (s : State) : Prop := ∃ n, turns c n s = .faulted (.rowNeverEnds c)

/-- The chain of channel `c` reaches, from `s`, an access that is refused for `r` (R51, D12). -/
def ChainIsRefused (c : ChannelId) (s : State) (r : Refusal) : Prop := ∃ n, turns c n s = .refused r

/-- Where the copies of R187 and R188 stand: the memory and the two cursors. -/
structure Copied where
  mem : Mem
  src : Word
  dst : Word
deriving DecidableEq, Repr

/-- One step as R187 and R188 write it. -/
def Copied.step (ti : Word) (k : Copied) : Copied where
  mem := if destIgnore ti then k.mem
    else k.mem.writeWord k.dst (if sourceIgnore ti then 0 else k.mem.readWord k.src)
  src := if sourceIncrement ti then k.src + 4 else k.src
  dst := if destIncrement ti then k.dst + 4 else k.dst

/-- `n` steps. -/
def Copied.steps (ti : Word) : Nat → Copied → Copied
  | 0, k => k
  | n + 1, k => Copied.steps ti n (k.step ti)

/-- `rows` rows of `n` steps, the strides `ss` and `ds` added between rows and not after the last (R188). -/
def Copied.rows (ti ss ds : Word) (n : Nat) : Nat → Copied → Copied
  | 0, k => k
  | rows + 1, k =>
    let k := k.steps ti n
    if rows = 0 then k
    else Copied.rows ti ss ds n rows { k with src := k.src + ss, dst := k.dst + ds }

/-- The uses of the memory port by one step, the newest first: the read, then the write (R165 to R167). -/
def Copied.port (ti : Word) (k : Copied) : List MemAccess :=
  (if destIgnore ti then []
    else [.write k.dst (if sourceIgnore ti then 0 else k.mem.readWord k.src)]) ++
    if sourceIgnore ti then [] else [.read k.src (k.mem.readWord k.src)]

/-- Those by `n` steps. -/
def Copied.stepsPort (ti : Word) : Nat → Copied → List MemAccess
  | 0, _ => []
  | n + 1, k => Copied.stepsPort ti n (k.step ti) ++ k.port ti

/-- Those by `rows` rows of `n` steps (R188). -/
def Copied.rowsPort (ti ss ds : Word) (n : Nat) : Nat → Copied → List MemAccess
  | 0, _ => []
  | rows + 1, k =>
    let e := k.steps ti n
    (if rows = 0 then []
      else Copied.rowsPort ti ss ds n rows { e with src := e.src + ss, dst := e.dst + ds }) ++
      k.stepsPort ti n

/-- The address step `i` of a linear block reads: `src + (SRC_INC ? 4*i : 0)` (R187). -/
def linearSource (b : Block) (i : Nat) : Word :=
  b.src + if sourceIncrement b.ti then BitVec.ofNat 32 (4 * i) else 0

/-- The address step `i` of a linear block stores to: `dst + (DEST_INC ? 4*i : 0)` (R187). -/
def linearDest (b : Block) (i : Nat) : Word :=
  b.dst + if destIncrement b.ti then BitVec.ofNat 32 (4 * i) else 0

/-- The memory after the first `n` steps of a linear block, as R187 writes them. -/
def linearMemory (b : Block) (m : Mem) : Nat → Mem
  | 0 => m
  | n + 1 =>
    let m := linearMemory b m n
    if destIgnore b.ti then m
    else m.writeWord (linearDest b n) (if sourceIgnore b.ti then 0 else m.readWord (linearSource b n))

/-- The uses of the memory port by the first `n` steps of a linear block on the memory `m`, the newest
first (R187, R193). -/
def linearTraffic (b : Block) (m : Mem) : Nat → List MemAccess
  | 0 => []
  | n + 1 => Copied.port b.ti ⟨linearMemory b m n, linearSource b n, linearDest b n⟩ ++
      linearTraffic b m n

/-- The rows of a 2D block, `len[29:16]` (R188). -/
def planeRows (b : Block) : Nat := (b.len.extractLsb' 16 14).toNat

/-- The bytes per row of a 2D block, `len[15:0]` (R188). -/
def planeBytes (b : Block) : Nat := (b.len.extractLsb' 0 16).toNat

/-- `ss = sext_16(stride[15:0])` (R188). -/
def planeSourceStride (b : Block) : Word := (b.stride.extractLsb' 0 16).signExtend 32

/-- `ds = sext_16(stride[31:16])` (R188). -/
def planeDestStride (b : Block) : Word := (b.stride.extractLsb' 16 16).signExtend 32

/-- The address step `i` of row `j` of a 2D block reads: the stride on top of the in-row increments (R169). -/
def planeSource (b : Block) (j i : Nat) : Word :=
  b.src + BitVec.ofNat 32 j * planeSourceStride b +
    if sourceIncrement b.ti then BitVec.ofNat 32 (4 * (j * (planeBytes b / 4) + i)) else 0

/-- The address step `i` of row `j` of a 2D block stores to (R169). -/
def planeDest (b : Block) (j i : Nat) : Word :=
  b.dst + BitVec.ofNat 32 j * planeDestStride b +
    if destIncrement b.ti then BitVec.ofNat 32 (4 * (j * (planeBytes b / 4) + i)) else 0

/-- The uses of the memory port by a 2D block on the memory `m`, the newest first (R188, R193). -/
def planeTraffic (b : Block) (m : Mem) : List MemAccess :=
  Copied.rowsPort b.ti (planeSourceStride b) (planeDestStride b) (planeBytes b / 4) (planeRows b)
    ⟨m, b.src, b.dst⟩

/-- The copy of the block ends: its byte count, or that of its rows if it has any, is a multiple of 4 (R183, R184). -/
def BlockEnds (b : Block) : Prop :=
  if twoDimensional b.ti then planeRows b = 0 ∨ planeBytes b % 4 = 0 else b.len.toNat % 4 = 0

/-- `x` is where one of the four bytes of the word at `w` stands. -/
def Accessor.InWord (k : Accessor) (x : Nat) (w : Word) : Prop :=
  ∃ i, i < 4 ∧ x = k.byteLocation w i

/-- The two words share no byte. -/
def Accessor.Apart (k : Accessor) (v w : Word) : Prop := ∀ x, k.InWord x v → ¬ k.InWord x w

/-- The word access is accepted: no byte of it lies in a window of the controller, and the policy does not
reject it (R51, D12). -/
def Accessor.accepts (k : Accessor) (d : Dir) (addr : Word) : Bool :=
  !k.reachesWindow addr && !k.rejects d addr

/-- Every access shown on the memory port was accepted. -/
def State.TrafficAccepted (s : State) : Prop :=
  ∀ x ∈ s.out.traffic, s.mem.accessor.accepts x.dir x.addr = true

/-- Every access a linear block makes is accepted (R187, R193). -/
def LinearAccepted (k : Accessor) (b : Block) : Prop :=
  ∀ i, i < b.len.toNat / 4 →
    (sourceIgnore b.ti = false → k.accepts .read (linearSource b i) = true) ∧
    (destIgnore b.ti = false → k.accepts .write (linearDest b i) = true)

/-- Every access a 2D block makes is accepted (R188, R193). -/
def PlaneAccepted (k : Accessor) (b : Block) : Prop :=
  ∀ j i, j < planeRows b → i < planeBytes b / 4 →
    (sourceIgnore b.ti = false → k.accepts .read (planeSource b j i) = true) ∧
    (destIgnore b.ti = false → k.accepts .write (planeDest b j i) = true)

/-- Every access the block makes is accepted. -/
def BlockAccepted (k : Accessor) (b : Block) : Prop :=
  if twoDimensional b.ti then PlaneAccepted k b else LinearAccepted k b

/-- The six reads of the fetch from address `a` are accepted (R162). -/
def FetchAccepted (k : Accessor) (a : Word) : Prop :=
  ∀ i, i < 6 → k.accepts .read (a + BitVec.ofNat 32 (4 * i)) = true

/-- The completion of a descriptor with flag word `ti` and the chain advance to `next`, on a channel `x`
(R170, R180): END always, INT and the line if INTEN. -/
def completed (ti next : Word) (x : Channel) : Channel :=
  { x with
    cs := if interruptEnable ti then setBit Config.csInt (setBit Config.csEnd x.cs)
      else setBit Config.csEnd x.cs
    irq := x.irq || interruptEnable ti
    conblkAd := next }

/-! Safe runs. -/

/-- A safe run: `k` steps from `s` meet no fault and no refusal. -/
def SafeFor (k : Nat) (s : State) : Prop := ∃ t, Sys2Proof.core.run k s = .next t

end Sys2Proof.Machine
end

