-- ==== Sys2Proof/Certificates/Slice0/Obligations.lean ====
section
/-! DEFINITION. The statements for the provers. Each names the rule of spec/ it formalises; one that says it
is the model's choice names its log entry under notes/assumptions.
-/

open Sys2Proof Sys2Proof.Machine

/-! Encodings. -/

/-- R60 to R64, R70, R71: no bit of an encoding is dropped. -/
def Obligations.DecodeOfEncodeGivesTheInstruction : Prop :=
  ∀ i : Instr, i.wf = true → decode (encode i) = .ok i

/-- R60 to R65: the decoder reads no two encodings as one instruction, but for the data of a read. -/
def Obligations.EncodeOfDecodeGivesTheKey : Prop :=
  ∀ (e : Encoding) (i : Instr), decode e = .ok i → i.wf = true ∧
    match e with
    | .access key v => ∃ w, encode i = .access key w ∧ (i.isRead = false → w = v)
    | .block c b => encode i = .block c b

/-- R60, R65, R91 to R93: every 4-byte access inside its window is an operation of its direction. -/
def Obligations.EveryAccessDecodes : Prop :=
  ∀ a : Access, a.size = 4 → a.offset.toNat < a.window.size →
    ∃ i, decodeAccess a = .ok i ∧ i.wf = true ∧ (i.isRead = true ↔ a.dir = .read)

/-- Words written out from R60 to R64 and from the vectors V1 to V12 and P1, P2: access keys and flag words. -/
def Obligations.SpecWordsDecode : Prop :=
  decodeTableWord 16 0x0024 = some (.rdInvalidANY 0 0x24#8) ∧
  decodeTableWord 16 0x0F00 = some (.rdInvalidAG 0x00#8) ∧
  decodeTableWord 16 0x0FE4 = some (.rdInvalidAG 0xE4#8) ∧
  decodeTableWord 16 0x1FE0 = some (.wrIntStatus 0) ∧
  decodeTableWord 16 0x0FF0 = some .rdEnable ∧
  decodeTableWord 16 0x1E20 = some (.wrDebugAC 14 0) ∧
  decodeTableWord 16 0x2020 = some .rdDebugBC ∧
  decodeTableWord 16 0x1508 = some (.wrTiAC 5 0) ∧
  decodeTableWord 16 0x1504 = some (.wrConblkAdAC 5 0) ∧
  decodeTableWord 16 0x3000 = some (.wrCsBC 0) ∧
  decodeTableWord 32 0x00000110 = some (.cbLinear 0 ⟨0x110, 0, 0, 0, 0, 0⟩) ∧
  decodeTableWord 32 0x00000113 = some (.cb2D 0 ⟨0x113, 0, 0, 0, 0, 0⟩)

/-- R61 to R64, R91 to R93: the register map, in both windows and both directions. -/
def Obligations.AccessesDecodeByTheRegisterMap : Prop :=
  ∀ (c : Fin 15) (v : Word),
    decodeAccess ⟨.a, .read, BitVec.ofNat 4 c.val ++ 0x00#8, 4, v⟩ = .ok (.rdCsAC c) ∧
    decodeAccess ⟨.a, .write, BitVec.ofNat 4 c.val ++ 0x00#8, 4, v⟩ = .ok (.wrCsAC c v) ∧
    decodeAccess ⟨.b, .read, 0#4 ++ 0x00#8, 4, v⟩ = .ok .rdCsBC ∧
    decodeAccess ⟨.b, .write, 0#4 ++ 0x00#8, 4, v⟩ = .ok (.wrCsBC v) ∧
    decodeAccess ⟨.a, .read, BitVec.ofNat 4 c.val ++ 0x04#8, 4, v⟩ = .ok (.rdConblkAdAC c) ∧
    decodeAccess ⟨.a, .write, BitVec.ofNat 4 c.val ++ 0x04#8, 4, v⟩ = .ok (.wrConblkAdAC c v) ∧
    decodeAccess ⟨.b, .read, 0#4 ++ 0x04#8, 4, v⟩ = .ok .rdConblkAdBC ∧
    decodeAccess ⟨.b, .write, 0#4 ++ 0x04#8, 4, v⟩ = .ok (.wrConblkAdBC v) ∧
    decodeAccess ⟨.a, .read, BitVec.ofNat 4 c.val ++ 0x08#8, 4, v⟩ = .ok (.rdTiAC c) ∧
    decodeAccess ⟨.a, .write, BitVec.ofNat 4 c.val ++ 0x08#8, 4, v⟩ = .ok (.wrTiAC c v) ∧
    decodeAccess ⟨.b, .read, 0#4 ++ 0x08#8, 4, v⟩ = .ok .rdTiBC ∧
    decodeAccess ⟨.b, .write, 0#4 ++ 0x08#8, 4, v⟩ = .ok (.wrTiBC v) ∧
    decodeAccess ⟨.a, .read, BitVec.ofNat 4 c.val ++ 0x0C#8, 4, v⟩ = .ok (.rdSourceAdAC c) ∧
    decodeAccess ⟨.a, .write, BitVec.ofNat 4 c.val ++ 0x0C#8, 4, v⟩ = .ok (.wrSourceAdAC c v) ∧
    decodeAccess ⟨.b, .read, 0#4 ++ 0x0C#8, 4, v⟩ = .ok .rdSourceAdBC ∧
    decodeAccess ⟨.b, .write, 0#4 ++ 0x0C#8, 4, v⟩ = .ok (.wrSourceAdBC v) ∧
    decodeAccess ⟨.a, .read, BitVec.ofNat 4 c.val ++ 0x10#8, 4, v⟩ = .ok (.rdDestAdAC c) ∧
    decodeAccess ⟨.a, .write, BitVec.ofNat 4 c.val ++ 0x10#8, 4, v⟩ = .ok (.wrDestAdAC c v) ∧
    decodeAccess ⟨.b, .read, 0#4 ++ 0x10#8, 4, v⟩ = .ok .rdDestAdBC ∧
    decodeAccess ⟨.b, .write, 0#4 ++ 0x10#8, 4, v⟩ = .ok (.wrDestAdBC v) ∧
    decodeAccess ⟨.a, .read, BitVec.ofNat 4 c.val ++ 0x14#8, 4, v⟩ = .ok (.rdTxfrLenAC c) ∧
    decodeAccess ⟨.a, .write, BitVec.ofNat 4 c.val ++ 0x14#8, 4, v⟩ = .ok (.wrTxfrLenAC c v) ∧
    decodeAccess ⟨.b, .read, 0#4 ++ 0x14#8, 4, v⟩ = .ok .rdTxfrLenBC ∧
    decodeAccess ⟨.b, .write, 0#4 ++ 0x14#8, 4, v⟩ = .ok (.wrTxfrLenBC v) ∧
    decodeAccess ⟨.a, .read, BitVec.ofNat 4 c.val ++ 0x18#8, 4, v⟩ = .ok (.rdStrideAC c) ∧
    decodeAccess ⟨.a, .write, BitVec.ofNat 4 c.val ++ 0x18#8, 4, v⟩ = .ok (.wrStrideAC c v) ∧
    decodeAccess ⟨.b, .read, 0#4 ++ 0x18#8, 4, v⟩ = .ok .rdStrideBC ∧
    decodeAccess ⟨.b, .write, 0#4 ++ 0x18#8, 4, v⟩ = .ok (.wrStrideBC v) ∧
    decodeAccess ⟨.a, .read, BitVec.ofNat 4 c.val ++ 0x1C#8, 4, v⟩ = .ok (.rdNextconbkAC c) ∧
    decodeAccess ⟨.a, .write, BitVec.ofNat 4 c.val ++ 0x1C#8, 4, v⟩ = .ok (.wrNextconbkAC c v) ∧
    decodeAccess ⟨.b, .read, 0#4 ++ 0x1C#8, 4, v⟩ = .ok .rdNextconbkBC ∧
    decodeAccess ⟨.b, .write, 0#4 ++ 0x1C#8, 4, v⟩ = .ok (.wrNextconbkBC v) ∧
    decodeAccess ⟨.a, .read, BitVec.ofNat 4 c.val ++ 0x20#8, 4, v⟩ = .ok (.rdDebugAC c) ∧
    decodeAccess ⟨.a, .write, BitVec.ofNat 4 c.val ++ 0x20#8, 4, v⟩ = .ok (.wrDebugAC c v) ∧
    decodeAccess ⟨.b, .read, 0#4 ++ 0x20#8, 4, v⟩ = .ok .rdDebugBC ∧
    decodeAccess ⟨.b, .write, 0#4 ++ 0x20#8, 4, v⟩ = .ok (.wrDebugBC v) ∧
    decodeAccess ⟨.a, .read, 0xF#4 ++ 0xE0#8, 4, v⟩ = .ok .rdIntStatus ∧
    decodeAccess ⟨.a, .write, 0xF#4 ++ 0xE0#8, 4, v⟩ = .ok (.wrIntStatus v) ∧
    decodeAccess ⟨.a, .read, 0xF#4 ++ 0xF0#8, 4, v⟩ = .ok .rdEnable ∧
    decodeAccess ⟨.a, .write, 0xF#4 ++ 0xF0#8, 4, v⟩ = .ok (.wrEnable v)

/-- R97: window A offsets 0xF00 to 0xFDF are not channel 15. -/
def Obligations.WindowAGapIsNotChannel15 : Prop :=
  ∀ (r : BitVec 8) (v : Word), r.toNat < 0xE0 →
    decodeAccess ⟨.a, .read, 0xF#4 ++ r, 4, v⟩ = .ok (.rdInvalidAG r) ∧
    decodeAccess ⟨.a, .write, 0xF#4 ++ r, 4, v⟩ = .ok (.wrInvalidAG r v) ∧
    ∀ s, Returns (.rdInvalidAG r) s 0 ∧ Ignored (.wrInvalidAG r v) s

/-- R96: an offset that is not a multiple of 4 matches no register, in either window. -/
def Obligations.UnalignedOffsetsMatchNoRegister : Prop :=
  ∀ a : Access, a.size = 4 → a.offset.toNat < a.window.size → a.offset.toNat % 4 ≠ 0 →
    ∃ i, decodeAccess a = .ok i ∧
      (a.dir = .read → ∀ s, Returns i s 0) ∧ (a.dir = .write → ∀ s, Ignored i s)

/-! The step. -/

/-- R3, R90 to R93: a step takes the next access and runs the operation it decodes to, and nothing else. -/
def Obligations.StepRunsTheDecodedAccess : Prop :=
  ∀ (s : State) (a : Access) (rest : List Event) (i : Instr),
    s.inbox = .access a :: rest → decodeAccess a = .ok i →
      step s = exec i { s with inbox := rest }

/-- R90 with D15: an access of another size is refused, before its offset is looked at. -/
def Obligations.WrongWidthIsRefused : Prop :=
  ∀ (s : State) (a : Access) (rest : List Event), s.inbox = .access a :: rest → a.size ≠ 4 →
    step s = .refused (.invalidAccessWidth a.window a.offset a.size)

/-- The model's choice for what R60 says does not arise (notes/assumptions/14): an offset outside window B. -/
def Obligations.OffsetOutsideWindowBIsRefused : Prop :=
  ∀ (s : State) (a : Access) (rest : List Event), s.inbox = .access a :: rest → a.size = 4 →
    a.window = .b → Config.sizeB ≤ a.offset.toNat →
      step s = .refused (.outsideWindow a.offset)

/-- R34, R248 with D24: no event, no change; another agent's store changes its byte and nothing else. -/
def Obligations.OtherAgentsOnlyStore : Prop :=
  (∀ s : State, s.inbox = [] → step s = .next s) ∧
  ∀ (s : State) (a : Word) (v : Byte) (rest : List Event), s.mem.wf →
    s.inbox = .store a v :: rest →
      ∃ t, step s = .next t ∧ t.ctl = s.ctl ∧ t.inbox = rest ∧ t.draws = s.draws ∧
        t.mem.accessor = s.mem.accessor ∧
        ∀ x, t.mem.readByte x = if x = s.mem.accessor.location a then v else s.mem.readByte x

/-- R35, R230 with D17, D20: what any reset of the controller leaves, whatever the unspecified registers draw. -/
def Obligations.ControllerResetLeavesTheStatedValues : Prop :=
  ∀ (s : State) (rest : List Event), s.inbox = .reset :: rest →
    ∃ t, step s = .next t ∧
      (∀ c, (t.ch c).cs = 0 ∧ (t.ch c).conblkAd = 0 ∧ (t.ch c).irq = false) ∧
      t.ctl.enable = BitVec.allOnes 16 ∧ t.ctl.intStatus = 0 ∧ t.mem = s.mem ∧ t.inbox = rest

/-- R35 with D17, D20: the same of the state the machine starts in. -/
def Obligations.ResetStateHasTheStatedValues : Prop :=
  (∀ c, (State.reset.ch c).cs = 0 ∧ (State.reset.ch c).conblkAd = 0 ∧
    (State.reset.ch c).irq = false) ∧
  State.reset.ctl.enable = 0xFFFF#16 ∧ State.reset.ctl.intStatus = 0 ∧
  (∀ c, State.reset.eligible c = false)

/-- R60 and the table's bit numbering: a placed access key is run by the very next step. -/
def Obligations.PlacedAccessRunsNext : Prop :=
  ∀ (s : State) (nbits w : Nat) (i : Instr), 8 < nbits → nbits ≤ 16 →
    decodeTableWord nbits w = some i → step (s.withFetchWord nbits w) = exec i s

/-! Reads. -/

/-- R110, R111, R113, R115, R117, R119, R121, R123, R125, in both windows. -/
def Obligations.ChannelReadsReturnTheRegister : Prop :=
  ∀ (c : Fin 15) (s : State),
    Returns (.rdCsAC c) s (s.ch (slotA c)).cs ∧
    Returns (.rdConblkAdAC c) s (s.ch (slotA c)).conblkAd ∧
    Returns (.rdTiAC c) s (s.ch (slotA c)).ti ∧
    Returns (.rdSourceAdAC c) s (s.ch (slotA c)).sourceAd ∧
    Returns (.rdDestAdAC c) s (s.ch (slotA c)).destAd ∧
    Returns (.rdTxfrLenAC c) s (s.ch (slotA c)).txfrLen ∧
    Returns (.rdStrideAC c) s (s.ch (slotA c)).stride ∧
    Returns (.rdNextconbkAC c) s (s.ch (slotA c)).nextconbk ∧
    Returns (.rdDebugAC c) s (s.ch (slotA c)).debug ∧
    Returns .rdCsBC s (s.ch 15).cs ∧
    Returns .rdConblkAdBC s (s.ch 15).conblkAd ∧
    Returns .rdTiBC s (s.ch 15).ti ∧
    Returns .rdSourceAdBC s (s.ch 15).sourceAd ∧
    Returns .rdDestAdBC s (s.ch 15).destAd ∧
    Returns .rdTxfrLenBC s (s.ch 15).txfrLen ∧
    Returns .rdStrideBC s (s.ch 15).stride ∧
    Returns .rdNextconbkBC s (s.ch 15).nextconbk ∧
    Returns .rdDebugBC s (s.ch 15).debug

/-- R127, R129: the bitmaps, zero-extended. -/
def Obligations.GlobalReadsReturnTheBitmap : Prop :=
  ∀ s : State,
    Returns .rdIntStatus s (BitVec.ofNat 32 s.ctl.intStatus.toNat) ∧
    Returns .rdEnable s (BitVec.ofNat 32 s.ctl.enable.toNat)

/-- R94: 0, whatever the channel holds. -/
def Obligations.InvalidReadsReturnZero : Prop :=
  ∀ (r : BitVec 8) (c : ChannelId) (s : State),
    Returns (.rdInvalidAG r) s 0 ∧ Returns (.rdInvalidANY c r) s 0

/-- R133: no read changes any state, and a repeated read returns the same value. -/
def Obligations.ReadsNeverChangeState : Prop :=
  ∀ (i : Instr) (s : State), i.isRead = true →
    ∃ t, exec i s = .next t ∧ Unchanged s t ∧
      ∀ u, Unchanged s u → ∃ w, exec i u = .next w ∧ w.out.response = t.out.response

/-! Writes other than WR.CS. -/

/-- R112 with D30: stored verbatim, and nothing fetched, started or loaded. -/
def Obligations.ConblkAdWritesStoreVerbatim : Prop :=
  ∀ (c : Fin 15) (v : Word) (s : State),
    Stores (.wrConblkAdAC c v) s (slotA c) { s.ch (slotA c) with conblkAd := v } ∧
    Stores (.wrConblkAdBC v) s 15 { s.ch 15 with conblkAd := v }

/-- R125, R126 with D29: stored verbatim, and read back. -/
def Obligations.DebugRoundTrips : Prop :=
  ∀ (c : Fin 15) (v : Word) (s : State),
    Stores (.wrDebugAC c v) s (slotA c) { s.ch (slotA c) with debug := v } ∧
    Stores (.wrDebugBC v) s 15 { s.ch 15 with debug := v } ∧
    (∀ t, exec (.wrDebugAC c v) s = .next t → Returns (.rdDebugAC c) t v) ∧
    ∀ t, exec (.wrDebugBC v) s = .next t → Returns .rdDebugBC t v

/-- R114, R116, R118, R120, R122, R124, in both windows. -/
def Obligations.ReadOnlyRegisterWritesAreIgnored : Prop :=
  ∀ (c : Fin 15) (v : Word) (s : State),
    Ignored (.wrTiAC c v) s ∧ Ignored (.wrTiBC v) s ∧
    Ignored (.wrSourceAdAC c v) s ∧ Ignored (.wrSourceAdBC v) s ∧
    Ignored (.wrDestAdAC c v) s ∧ Ignored (.wrDestAdBC v) s ∧
    Ignored (.wrTxfrLenAC c v) s ∧ Ignored (.wrTxfrLenBC v) s ∧
    Ignored (.wrStrideAC c v) s ∧ Ignored (.wrStrideBC v) s ∧
    Ignored (.wrNextconbkAC c v) s ∧ Ignored (.wrNextconbkBC v) s

/-- R95, R128. -/
def Obligations.IntStatusAndInvalidWritesAreIgnored : Prop :=
  ∀ (r : BitVec 8) (c : ChannelId) (v : Word) (s : State),
    Ignored (.wrIntStatus v) s ∧ Ignored (.wrInvalidAG r v) s ∧ Ignored (.wrInvalidANY c r v) s

/-- R130: the low 16 bits replace the bitmap, and the write has no other effect. -/
def Obligations.EnableWriteReplacesTheBitmap : Prop :=
  ∀ (v : Word) (s : State),
    ∃ t, exec (.wrEnable v) s = .next t ∧ t.ctl.enable = BitVec.ofNat 16 v.toNat ∧
      t.ctl = { s.ctl with enable := t.ctl.enable } ∧ t.mem = s.mem ∧ t.inbox = s.inbox ∧
      t.draws = s.draws ∧ t.out.response = none ∧ t.out.traffic = []

/-! WR.CS. -/

/-- R140 to R146 with D2, D4, D26: a CS write that raises no ACTIVE edge takes the five steps and no more. -/
def Obligations.CsWriteWithoutStartTakesTheFiveSteps : Prop :=
  ∀ (i : Instr) (c : ChannelId) (v : Word) (s : State), i.IsCsWrite c v →
    (v.getLsbD Config.csActive = false ∨ s.active c = true) →
      ∃ t, exec i s = .next t ∧ CsWritten c v s t ∧ t.out.response = none ∧ t.out.traffic = []

/-- R143: END is write 1 to clear, has no link to `INT_STATUS` or the line, and is set again by a descriptor
the same write runs. -/
def Obligations.EndIsWriteOneToClear : Prop :=
  ∀ (i : Instr) (c : ChannelId) (v : Word) (s : State), i.IsCsWrite c v →
    (v.getLsbD Config.csActive = false ∨ s.active c = true ∨ s.eligible c = false →
      ∃ t, exec i s = .next t ∧
        (t.ch c).cs.getLsbD Config.csEnd =
          ((s.ch c).cs.getLsbD Config.csEnd && !v.getLsbD Config.csEnd) ∧
        t.ctl.intStatus.getLsbD c.val =
          (s.ctl.intStatus.getLsbD c.val && !v.getLsbD Config.csInt) ∧
        (t.ch c).irq = ((s.ch c).irq && !v.getLsbD Config.csInt)) ∧
    (v.getLsbD Config.csActive = true → s.active c = false → s.eligible c = true →
      ∀ t, exec i s = .next t → (t.ch c).cs.getLsbD Config.csEnd = true)

/-- R144: a written INT clears INT, `INT_STATUS[c]` and `IRQ[c]` together, whether or not they were set, and a
written 0 changes none of the three: in the steps of every CS write, which are all that a write takes
that runs no chain. No other channel is touched, and nothing else executed deasserts a line. -/
def Obligations.IntIsWriteOneToClear : Prop :=
  (∀ (c : ChannelId) (v : Word) (s : State),
    ((csSteps c v s.begin).ch c).cs.getLsbD Config.csInt =
      ((s.ch c).cs.getLsbD Config.csInt && !v.getLsbD Config.csInt) ∧
    (csSteps c v s.begin).ctl.intStatus.getLsbD c.val =
      (s.ctl.intStatus.getLsbD c.val && !v.getLsbD Config.csInt) ∧
    ((csSteps c v s.begin).ch c).irq = ((s.ch c).irq && !v.getLsbD Config.csInt)) ∧
  (∀ (i : Instr) (c : ChannelId) (v : Word) (s : State), i.IsCsWrite c v →
    (v.getLsbD Config.csActive = false ∨ s.active c = true ∨ s.eligible c = false) →
      ∃ t, exec i s = .next t ∧
        (t.ch c).cs.getLsbD Config.csInt =
          ((s.ch c).cs.getLsbD Config.csInt && !v.getLsbD Config.csInt) ∧
        t.ctl.intStatus.getLsbD c.val =
          (s.ctl.intStatus.getLsbD c.val && !v.getLsbD Config.csInt) ∧
        (t.ch c).irq = ((s.ch c).irq && !v.getLsbD Config.csInt) ∧ UnchangedOutside c s t) ∧
  ∀ (i : Instr) (c : ChannelId) (s t : State), exec i s = .next t →
    (s.ch c).irq = true → (t.ch c).irq = false →
      ∃ v, i.IsCsWrite c v ∧ v.getLsbD Config.csInt = true

/-- R148, R181, R193 with D5: started on a channel that is not eligible, the engine makes no memory access
and clears ACTIVE; the steps of the write still apply. -/
def Obligations.StartOfIneligibleChannelRunsNothing : Prop :=
  ∀ (i : Instr) (c : ChannelId) (v : Word) (s : State), i.IsCsWrite c v →
    v.getLsbD Config.csActive = true → s.active c = false → s.eligible c = false →
      ∃ t, exec i s = .next t ∧ t.out.traffic = [] ∧ t.out.response = none ∧ t.mem = s.mem ∧
        UnchangedOutside c s t ∧
        (∀ k, k < 32 → (t.ch c).cs.getLsbD k =
          if k = Config.csActive then false else csBit v (s.ch c).cs k) ∧
        t.ctl.intStatus.getLsbD c.val =
          (s.ctl.intStatus.getLsbD c.val && !v.getLsbD Config.csInt) ∧
        t.ch c = { s.ch c with
          cs := (t.ch c).cs, irq := (s.ch c).irq && !v.getLsbD Config.csInt }

/-- R146, R160, R183, R244 with D22, R51 and R40 with D12, D23: a write that raises ACTIVE answers the state
in which the chain of the channel ends; it faults exactly where the chain never does, with no bound on
the chain, and is refused exactly where an access of the chain is. -/
def Obligations.StartRunsTheWholeChain : Prop :=
  ∀ (i : Instr) (c : ChannelId) (v : Word) (s : State), i.IsCsWrite c v → s.mem.wf →
    v.getLsbD Config.csActive = true → s.active c = false →
      (∀ t, exec i s = .next t ↔ ChainEnds c (csSteps c v s.begin) t) ∧
      (exec i s = .fault (.chainNeverEnds c) ↔ ChainNeverEnds c (csSteps c v s.begin)) ∧
      (exec i s = .fault (.rowNeverEnds c) ↔ ChainGetsStuck c (csSteps c v s.begin)) ∧
      ∀ r, exec i s = .refused r ↔ ChainIsRefused c (csSteps c v s.begin) r

/-- R160, R161: a turn of the engine on an eligible channel runs the decoded control block, if the six reads
of its fetch are accepted; else it is refused (R51, D12). -/
def Obligations.TurnRunsTheDecodedBlock : Prop :=
  ∀ (c : ChannelId) (s : State),
    (s.eligible c = false → chainPass c s = .ended (exitStep c s)) ∧
    (s.eligible c = true → FetchAccepted s.mem.accessor (s.ch c).conblkAd → ∀ t,
      chainPass c s = .running t ↔
        exec (decodeBlock c (s.currentBlock c)) (fetchStep c s) = .next t) ∧
    (s.eligible c = true → ¬ FetchAccepted s.mem.accessor (s.ch c).conblkAd →
      ∃ r, chainPass c s = .refused r)

/-- R146, R160, R161, R181: a write that starts a chain of one block runs that block and exits, on a memory
that accepts its accesses. -/
def Obligations.StartOfOneBlockRunsIt : Prop :=
  ∀ (i : Instr) (c : ChannelId) (v : Word) (s : State), i.IsCsWrite c v →
    v.getLsbD Config.csActive = true → s.active c = false → s.eligible c = true →
    FetchAccepted s.mem.accessor (s.ch c).conblkAd →
    BlockAccepted s.mem.accessor (s.currentBlock c) →
    BlockEnds (s.currentBlock c) → (s.currentBlock c).next = 0 →
      ∃ t, exec (decodeBlock c (s.currentBlock c)) (fetchStep c (csSteps c v s.begin)) = .next t ∧
        exec i s = .next (exitStep c t)

/-- R161, R170, R180, R181, R192: a completed start on an eligible channel ran its chain to the zero link. -/
def Obligations.CompletedStartLeavesTheChannelIdle : Prop :=
  ∀ (i : Instr) (c : ChannelId) (v : Word) (s t : State), i.IsCsWrite c v →
    v.getLsbD Config.csActive = true → s.active c = false → s.eligible c = true →
    exec i s = .next t →
      (t.ch c).conblkAd = 0 ∧ (t.ch c).cs.getLsbD Config.csEnd = true ∧ t.active c = false

/-- R147: one write acknowledges and starts, and the interrupt of its chain stands at the end. -/
def Obligations.AcknowledgeAndRestartInOneWrite : Prop :=
  ∀ (i : Instr) (c : ChannelId) (v : Word) (s : State), i.IsCsWrite c v →
    v.getLsbD Config.csActive = true → v.getLsbD Config.csEnd = true →
    v.getLsbD Config.csInt = true → s.active c = false → s.eligible c = true →
    FetchAccepted s.mem.accessor (s.ch c).conblkAd →
    BlockAccepted s.mem.accessor (s.currentBlock c) →
    BlockEnds (s.currentBlock c) → (s.currentBlock c).next = 0 →
      ∃ t, exec i s = .next t ∧ (t.ch c).cs.getLsbD Config.csEnd = true ∧
        (t.ch c).cs.getLsbD Config.csInt = interruptEnable (s.currentBlock c).ti ∧
        t.ctl.intStatus.getLsbD c.val = interruptEnable (s.currentBlock c).ti ∧
        (t.ch c).irq = interruptEnable (s.currentBlock c).ti

/-- R180, R244 with D22: started on a block that copies nothing and links to itself, the write never
completes. -/
def Obligations.SelfLinkedBlockNeverEnds : Prop :=
  ∀ (i : Instr) (c : ChannelId) (v : Word) (s : State), i.IsCsWrite c v → s.mem.wf →
    v.getLsbD Config.csActive = true → s.active c = false → s.eligible c = true →
    FetchAccepted s.mem.accessor (s.ch c).conblkAd →
    (s.currentBlock c).len = 0 → (s.currentBlock c).next = (s.ch c).conblkAd →
      exec i s = .fault (.chainNeverEnds c)

/-! Control blocks. -/

/-- R187: `CB.LINEAR`, whole, on a memory that accepts its accesses. -/
def Obligations.LinearBlockCompletes : Prop :=
  ∀ (c : ChannelId) (b : Block) (s : State), b.len.toNat % 4 = 0 →
    LinearAccepted s.mem.accessor b →
    ∃ t, exec (.cbLinear c b) s = .next t ∧
      t.mem = linearMemory b s.mem (b.len.toNat / 4) ∧
      t.ch c = completed b.ti b.next { s.ch c with
        ti := b.ti
        sourceAd := b.src + if sourceIncrement b.ti then b.len else 0
        destAd := b.dst + if destIncrement b.ti then b.len else 0
        txfrLen := 0
        stride := b.stride
        nextconbk := b.next } ∧
      t.ctl.intStatus.getLsbD c.val =
        (s.ctl.intStatus.getLsbD c.val || interruptEnable b.ti) ∧
      UnchangedOutside c s t

/-- R188: `CB.2D`, whole, on a memory that accepts its accesses. -/
def Obligations.PlaneBlockCompletes : Prop :=
  ∀ (c : ChannelId) (b : Block) (s : State), planeRows b = 0 ∨ planeBytes b % 4 = 0 →
    PlaneAccepted s.mem.accessor b →
    ∃ t k, k = Copied.rows b.ti (planeSourceStride b) (planeDestStride b) (planeBytes b / 4)
        (planeRows b) ⟨s.mem, b.src, b.dst⟩ ∧
      exec (.cb2D c b) s = .next t ∧ t.mem = k.mem ∧
      t.ch c = completed b.ti b.next { s.ch c with
        ti := b.ti
        sourceAd := k.src
        destAd := k.dst
        txfrLen := if 0 < planeRows b ∧ 0 < planeBytes b / 4 then 0x00010000#32 else b.len
        stride := b.stride
        nextconbk := b.next } ∧
      t.ctl.intStatus.getLsbD c.val =
        (s.ctl.intStatus.getLsbD c.val || interruptEnable b.ti) ∧
      UnchangedOutside c s t

/-- R170: every block executed sets END, one that copied nothing too; INT, `INT_STATUS[c]` and `IRQ[c]` are
set together, by its INTEN only, and none of the four is cleared. -/
def Obligations.CompletionSetsTheFlags : Prop :=
  ∀ (i : Instr) (c : ChannelId) (b : Block) (s : State), (i = .cbLinear c b ∨ i = .cb2D c b) →
    (b.len = 0 → ∃ t, exec i s = .next t) ∧
    ∀ t, exec i s = .next t →
      (t.ch c).ti = b.ti ∧ (t.ch c).cs.getLsbD Config.csEnd = true ∧
      (t.ch c).cs.getLsbD Config.csInt =
        ((s.ch c).cs.getLsbD Config.csInt || interruptEnable b.ti) ∧
      t.ctl.intStatus.getLsbD c.val =
        (s.ctl.intStatus.getLsbD c.val || interruptEnable b.ti) ∧
      (t.ch c).irq = ((s.ch c).irq || interruptEnable b.ti)

/-- R165, R166, R167, R193: the accesses of a linear block on the memory port, in their order. -/
def Obligations.LinearBlockUsesThePortInOrder : Prop :=
  ∀ (c : ChannelId) (b : Block) (s t : State), exec (.cbLinear c b) s = .next t →
    t.out.traffic = linearTraffic b s.mem (b.len.toNat / 4) ++ s.out.traffic

/-- R183, R184 with D7, and R51 with D23: a block is the fault `rowNeverEnds` exactly where its count, falling
by 4 modulo 2^32, never reaches 0 and none of the accesses it then makes for ever is refused. -/
def Obligations.BlockStopsWhereARowNeverEnds : Prop :=
  ∀ (c : ChannelId) (b : Block) (s : State),
    (exec (.cbLinear c b) s = .fault (.rowNeverEnds c) ↔
      (∀ n : Nat, b.len - BitVec.ofNat 32 (4 * n) ≠ 0) ∧
      ∀ n : Nat, s.mem.accessor.firstRefusal (linearTraffic b s.mem n) = none) ∧
    (exec (.cb2D c b) s = .fault (.rowNeverEnds c) ↔ planeRows b ≠ 0 ∧
      (∀ n : Nat, BitVec.ofNat 32 (planeBytes b) - BitVec.ofNat 32 (4 * n) ≠ 0) ∧
      ∀ n : Nat, s.mem.accessor.firstRefusal
        (Copied.stepsPort b.ti n ⟨s.mem, b.src, b.dst⟩) = none)

/-- R167, R187: a linear block changes no byte outside the words it stores to, and none at all with DEST_IGNORE. -/
def Obligations.LinearBlockStoresOnlyToItsWords : Prop :=
  ∀ (c : ChannelId) (b : Block) (s t : State), s.mem.wf → exec (.cbLinear c b) s = .next t →
    (destIgnore b.ti = true → t.mem = s.mem) ∧
    ∀ a, (∀ i, i < b.len.toNat / 4 → ¬ s.mem.accessor.InWord a (linearDest b i)) →
      t.mem.readByte a = s.mem.readByte a

/-- R167, R169, R188: likewise for the rows of a 2D block. -/
def Obligations.PlaneBlockStoresOnlyToItsWords : Prop :=
  ∀ (c : ChannelId) (b : Block) (s t : State), s.mem.wf → exec (.cb2D c b) s = .next t →
    (destIgnore b.ti = true → t.mem = s.mem) ∧
    ∀ a, (∀ j i, j < planeRows b → i < planeBytes b / 4 → ¬ s.mem.accessor.InWord a (planeDest b j i)) →
      t.mem.readByte a = s.mem.readByte a

/-- R187 and the source's 1D property: regions that share no byte are copied word for word. With DEST_INC on
a memory that looks at every address bit the words stored are apart of themselves; without DEST_INC the
one word stored ends as the last word read. -/
def Obligations.LinearBlockCopiesDisjointRegions : Prop :=
  ∀ (c : ChannelId) (b : Block) (s t : State), s.mem.wf → exec (.cbLinear c b) s = .next t →
    sourceIgnore b.ti = false → destIgnore b.ti = false →
    (∀ i j, i < b.len.toNat / 4 → j < b.len.toNat / 4 →
      s.mem.accessor.Apart (linearSource b i) (linearDest b j)) →
      (destIncrement b.ti = true →
        (s.mem.accessor.ignored = 0 ∨ ∀ i j, i < b.len.toNat / 4 → j < b.len.toNat / 4 → i ≠ j →
          s.mem.accessor.Apart (linearDest b i) (linearDest b j)) →
        ∀ i, i < b.len.toNat / 4 →
          t.mem.readWord (linearDest b i) = s.mem.readWord (linearSource b i)) ∧
      (destIncrement b.ti = false → 0 < b.len.toNat / 4 →
        t.mem.readWord b.dst = s.mem.readWord (linearSource b (b.len.toNat / 4 - 1)))

/-- R188 and the source's 2D property: where the words stored are apart from each other and from the words
read, every row is copied in full. -/
def Obligations.PlaneBlockCopiesEveryRow : Prop :=
  ∀ (c : ChannelId) (b : Block) (s t : State), s.mem.wf → exec (.cb2D c b) s = .next t →
    sourceIgnore b.ti = false → destIgnore b.ti = false →
    (∀ j i j' i', j < planeRows b → i < planeBytes b / 4 → j' < planeRows b →
      i' < planeBytes b / 4 →
        s.mem.accessor.Apart (planeSource b j i) (planeDest b j' i') ∧
        ((j, i) ≠ (j', i') → s.mem.accessor.Apart (planeDest b j i) (planeDest b j' i'))) →
      ∀ j i, j < planeRows b → i < planeBytes b / 4 →
        t.mem.readWord (planeDest b j i) = s.mem.readWord (planeSource b j i)

/-- R52: with both increments and the destination one word above the source, the first word propagates. -/
def Obligations.OverlappingCopyPropagatesTheFirstWord : Prop :=
  ∀ (c : ChannelId) (b : Block) (s t : State), s.mem.wf → exec (.cbLinear c b) s = .next t →
    sourceIgnore b.ti = false → destIgnore b.ti = false → sourceIncrement b.ti = true →
    destIncrement b.ti = true → b.dst = b.src + 4 →
      ∀ i, i < b.len.toNat / 4 → t.mem.readWord (linearDest b i) = s.mem.readWord b.src

/-- R166: with SRC_IGNORE the words stored are 0. -/
def Obligations.SourceIgnoreFillsWithZero : Prop :=
  ∀ (c : ChannelId) (b : Block) (s t : State), s.mem.wf → exec (.cbLinear c b) s = .next t →
    sourceIgnore b.ti = true → destIgnore b.ti = false →
      ∀ i, i < b.len.toNat / 4 → t.mem.readWord (linearDest b i) = 0

/-- R162, R165 to R167, R193: the memory accesses of a turn, in their order: the six reads of the fetch, then
those of the block it fetched; and their number. -/
def Obligations.TurnUsesThePortAsCounted : Prop :=
  ∀ (c : ChannelId) (s t : State), chainPass c s = .running t →
    t.out.traffic =
      (if twoDimensional (s.currentBlock c).ti then planeTraffic (s.currentBlock c) s.mem
        else linearTraffic (s.currentBlock c) s.mem ((s.currentBlock c).len.toNat / 4)) ++
      fetchTraffic (s.ch c).conblkAd (s.currentBlock c) ++ s.out.traffic ∧
    t.out.traffic.length = s.out.traffic.length + 6 +
      (if twoDimensional (s.currentBlock c).ti
        then planeRows (s.currentBlock c) * (planeBytes (s.currentBlock c) / 4)
        else (s.currentBlock c).len.toNat / 4) *
      ((if sourceIgnore (s.currentBlock c).ti then 0 else 1) +
        if destIgnore (s.currentBlock c).ti then 0 else 1)

/-- R51 with D23, R40 and R41 with D12, U4, U12: a control block is refused exactly where one of its accesses
reaches a window of the controller or is rejected by the accessor, and then for the first such access in
the order of R187 and R188; where a row never ends (R183), among all the steps it would make. -/
def Obligations.BlockIsRefusedAtItsFirstRefusedAccess : Prop :=
  ∀ (c : ChannelId) (b : Block) (s : State) (r : Refusal),
    (exec (.cbLinear c b) s = .refused r ↔
      if b.len.toNat % 4 = 0 then
        s.mem.accessor.firstRefusal (linearTraffic b s.mem (b.len.toNat / 4)) = some r
      else ∃ n, s.mem.accessor.firstRefusal (linearTraffic b s.mem n) = some r) ∧
    (exec (.cb2D c b) s = .refused r ↔
      if planeRows b = 0 ∨ planeBytes b % 4 = 0 then
        s.mem.accessor.firstRefusal (planeTraffic b s.mem) = some r
      else ∃ n, s.mem.accessor.firstRefusal
        (Copied.stepsPort b.ti n ⟨s.mem, b.src, b.dst⟩) = some r)

/-- R51 with D23: a started chain whose fetch would read a window of the controller is refused, and so is one
whose fetch the accessor rejects (R40 with D12). -/
def Obligations.StartIsRefusedWhereTheFetchIs : Prop :=
  ∀ (i : Instr) (c : ChannelId) (v : Word) (s : State), i.IsCsWrite c v →
    v.getLsbD Config.csActive = true → s.active c = false → s.eligible c = true →
      (s.mem.accessor.reachesWindow (s.ch c).conblkAd = true →
        exec i s = .refused (.ownWindow .read (s.ch c).conblkAd)) ∧
      (s.mem.accessor.reachesWindow (s.ch c).conblkAd = false →
        s.mem.accessor.rejects .read (s.ch c).conblkAd = true →
          exec i s = .refused (.memoryRejects .read (s.ch c).conblkAd)) ∧
      (¬ FetchAccepted s.mem.accessor (s.ch c).conblkAd → ∃ r, exec i s = .refused r)

/-- R41, R42 with D10, U14: a word written stands in the byte order of the accessor, reads back, and leaves
every other byte alone. -/
def Obligations.WordsStandInTheByteOrder : Prop :=
  ∀ (m : Mem) (a v : Word), m.wf → (m.writeWord a v).readWord a = v ∧
    (∀ x, ¬ m.accessor.InWord x a → (m.writeWord a v).readByte x = m.readByte x) ∧
    ∀ i, i < 4 → (m.writeWord a v).readByte (m.accessor.byteLocation a i) =
      match m.accessor.order with
      | .little => v.extractLsb' (8 * i) 8
      | .big => v.extractLsb' (8 * (3 - i)) 8

/-! The whole machine. -/

/-- R30, R31, R32: what holds between accesses is kept by every step. -/
def Obligations.StepKeepsTheInvariant : Prop :=
  ∀ s t : State, s.Inv → step s = .next t → t.Inv

/-- R30, R31, R32, R35: it holds after reset, when no access has been made either (R51). -/
def Obligations.ResetHasTheInvariant : Prop := State.reset.Inv ∧ State.reset.TrafficAccepted

/-- R51 with D23, R40 with D12: no step makes an access that reaches a window of the controller or that the
accessor rejects. -/
def Obligations.StepKeepsTheEngineOutOfTheWindows : Prop :=
  ∀ s t : State, s.TrafficAccepted → step s = .next t → t.TrafficAccepted

/-- R4, R23, R232: the accessor is fixed for a run. -/
def Obligations.NoStepChangesTheAccessor : Prop :=
  ∀ s t : State, step s = .next t → t.mem.accessor = s.mem.accessor

/-- R213: a pending source is cleared only by `WR.CS` of its channel with INT = 1, which clears it in its
three places; the controller's reset leaves every source clear. -/
def Obligations.OnlyTheAcknowledgeClearsAnInterrupt : Prop :=
  (∀ (i : Instr) (c : ChannelId) (s t : State), exec i s = .next t →
    ((s.ch c).cs.getLsbD Config.csInt = true ∧ (t.ch c).cs.getLsbD Config.csInt = false ∨
      s.ctl.intStatus.getLsbD c.val = true ∧ t.ctl.intStatus.getLsbD c.val = false ∨
      (s.ch c).irq = true ∧ (t.ch c).irq = false) →
        ∃ v, i.IsCsWrite c v ∧ v.getLsbD Config.csInt = true) ∧
  (∀ (i : Instr) (c : ChannelId) (v : Word) (s : State), i.IsCsWrite c v →
    v.getLsbD Config.csInt = true → v.getLsbD Config.csActive = false →
      ∃ t, exec i s = .next t ∧ t.pending c = false) ∧
  ∀ (s : State) (rest : List Event), s.inbox = .reset :: rest →
    ∃ t, step s = .next t ∧ ∀ c, t.pending c = false

/-- R210: the line of a channel rises only by a descriptor of that channel with INTEN: one run as such, or
one the chain of a starting CS write comes to. -/
def Obligations.OnlyInterruptDescriptorsRaiseTheLine : Prop :=
  ∀ (i : Instr) (c : ChannelId) (s t : State), exec i s = .next t →
    (s.ch c).irq = false → (t.ch c).irq = true →
      (∃ b, (i = .cbLinear c b ∨ i = .cb2D c b) ∧ interruptEnable b.ti = true) ∨
      ∃ v n u, i.IsCsWrite c v ∧ v.getLsbD Config.csActive = true ∧ s.active c = false ∧
        turns c n (csSteps c v s.begin) = .running u ∧ u.eligible c = true ∧
        interruptEnable (u.currentBlock c).ti = true

/-- R141, R142, R245 with D26: RESET and ABORT, once set, stay set whatever is executed. -/
def Obligations.ResetAndAbortBitsAreSticky : Prop :=
  ∀ (i : Instr) (c : ChannelId) (s t : State), exec i s = .next t →
    ((s.ch c).cs.getLsbD Config.csReset = true → (t.ch c).cs.getLsbD Config.csReset = true) ∧
    ((s.ch c).cs.getLsbD Config.csAbort = true → (t.ch c).cs.getLsbD Config.csAbort = true)

/-- R21, R34: nothing executed changes `ENABLE` but `WR.ENABLE`. -/
def Obligations.OnlyItsWriteChangesEnable : Prop :=
  ∀ (i : Instr) (s t : State), exec i s = .next t → t.ctl.enable ≠ s.ctl.enable →
    ∃ v, i = .wrEnable v

/-- R11, R34: what names another channel, or none, leaves a channel and its bit of `INT_STATUS` alone. -/
def Obligations.OtherChannelsAreUntouched : Prop :=
  ∀ (i : Instr) (d : ChannelId) (s t : State), exec i s = .next t → i.channel ≠ some d →
    t.ch d = s.ch d ∧ t.ctl.intStatus.getLsbD d.val = s.ctl.intStatus.getLsbD d.val

/-- R19, R220: no rule but `WR.DEBUG` of the channel writes DEBUG. -/
def Obligations.OnlyItsWriteChangesDebug : Prop :=
  ∀ (i : Instr) (c : ChannelId) (s t : State), exec i s = .next t →
    (t.ch c).debug ≠ (s.ch c).debug →
      (∃ c' v, i = .wrDebugAC c' v ∧ c = slotA c') ∨ ∃ v, i = .wrDebugBC v ∧ c = 15

/-- R2, R25, R41: an access changes no byte of memory but those of words written through the memory port. -/
def Obligations.MemoryIsWrittenOnlyThroughThePort : Prop :=
  ∀ (i : Instr) (s t : State), s.mem.wf → (∃ key v, encode i = .access key v) →
    exec i s = .next t →
      ∀ a, (∀ w v, MemAccess.write w v ∈ t.out.traffic → ¬ s.mem.accessor.InWord a w) →
        t.mem.readByte a = s.mem.readByte a

/-- R3, R65, R66, R133, R146: events that deliver 4-byte accesses inside the windows and start no chain
never stop the machine. -/
def Obligations.RunsWithoutStartsNeverStop : Prop :=
  ∀ (k : Nat) (s : State),
    (∀ a, Event.access a ∈ s.inbox → a.size = 4 ∧ a.offset.toNat < a.window.size ∧
      ∀ i c v, decodeAccess a = .ok i → i.IsCsWrite c v → v.getLsbD Config.csActive = false) →
      SafeFor k s
end

