-- ==== Sys2Proof/Laws/Bits.lean ====
section
/-! SUPPORT. Reading one bit of a word or bitmap after each bit operation of Ops and Flags.
-/

namespace Sys2Proof.Machine

@[simp] theorem getLsbD_setBit (n : Nat) (w : Word) (i : Nat) :
    (setBit n w).getLsbD i = (w.getLsbD i || (decide (i < 32) && decide (i = n))) := by
  simp only [setBit, BitVec.getLsbD_or, BitVec.getLsbD_shiftLeft, BitVec.getLsbD_one]
  by_cases h : i = n
  · subst h; simp
  · by_cases h2 : i < n
    · simp [h, h2]
    · have : i - n ≠ 0 := by omega
      simp [h, this]

@[simp] theorem getLsbD_clearBit (n : Nat) (w : Word) (i : Nat) :
    (clearBit n w).getLsbD i = (w.getLsbD i && !decide (i = n)) := by
  simp only [clearBit, BitVec.getLsbD_and, BitVec.getLsbD_not, BitVec.getLsbD_shiftLeft,
    BitVec.getLsbD_one]
  by_cases hi : i < 32
  · by_cases h : i = n
    · subst h; simp [hi]
    · by_cases h2 : i < n
      · simp [h, h2, hi]
      · have : i - n ≠ 0 := by omega
        simp [h, this, hi]
  · have : w.getLsbD i = false := BitVec.getLsbD_of_ge w i (by omega)
    simp [this]

@[simp] theorem getLsbD_setFor (m : Bitmap) (c d : ChannelId) :
    (Bitmap.setFor m c).getLsbD d.val = (m.getLsbD d.val || decide (d = c)) := by
  simp only [Bitmap.setFor, BitVec.getLsbD_or, BitVec.getLsbD_shiftLeft, BitVec.getLsbD_one]
  have hd := d.isLt
  by_cases h : d = c
  · subst h; simp
  · have h' : d.val ≠ c.val := fun e => h (Fin.ext e)
    by_cases h2 : d.val < c.val
    · simp [h, h2]
    · have : d.val - c.val ≠ 0 := by omega
      simp [h, this]

@[simp] theorem getLsbD_clearFor (m : Bitmap) (c d : ChannelId) :
    (Bitmap.clearFor m c).getLsbD d.val = (m.getLsbD d.val && !decide (d = c)) := by
  simp only [Bitmap.clearFor, BitVec.getLsbD_and, BitVec.getLsbD_not, BitVec.getLsbD_shiftLeft,
    BitVec.getLsbD_one]
  have hd := d.isLt
  by_cases h : d = c
  · subst h; simp
  · have h' : d.val ≠ c.val := fun e => h (Fin.ext e)
    by_cases h2 : d.val < c.val
    · simp [h, h2]
    · have : d.val - c.val ≠ 0 := by omega
      simp [h, this]

@[simp] theorem getElem_setFor (m : Bitmap) (c d : ChannelId) :
    (Bitmap.setFor m c)[d.val] = (m[d.val] || decide (d = c)) := by
  simpa [BitVec.getLsbD_eq_getElem] using getLsbD_setFor m c d

@[simp] theorem getElem_clearFor (m : Bitmap) (c d : ChannelId) :
    (Bitmap.clearFor m c)[d.val] = (m[d.val] && !decide (d = c)) := by
  simpa [BitVec.getLsbD_eq_getElem] using getLsbD_clearFor m c d

theorem getLsbD_setBit_if (b : Bool) (n : Nat) (w : Word) (i : Nat) (hi : i < 32) :
    ((if b then setBit n else id) w).getLsbD i = (w.getLsbD i || (b && decide (i = n))) := by
  cases b <;> simp [hi, -BitVec.getLsbD_eq_getElem]

theorem getLsbD_clearBit_if (b : Bool) (n : Nat) (w : Word) (i : Nat) :
    ((if b then clearBit n else id) w).getLsbD i = (w.getLsbD i && !(b && decide (i = n))) := by
  cases b <;> simp

end Sys2Proof.Machine
end

