-- ==== Sys2Proof/Laws/Memory.lean ====
section
/-! SUPPORT. The laws of the memory: reading after a write, that every operation keeps the canonical form,
and what its accessor accepts.
-/

namespace Sys2Proof.Machine

/-- Every address of `m` is above `a`. -/
def Memory.Above (a : Nat) (m : Memory) : Prop := ∀ x ∈ m, a < x.1

theorem Memory.wf_nil : Memory.wf [] := by simp [Memory.wf]

theorem Memory.wf_cons {x : Host.Cell} {m : Memory} :
    Memory.wf (x :: m) ↔
      Memory.Above x.1 m ∧ x.1 < 2 ^ 32 ∧ x.2 ≠ Config.unlistedByte ∧ Memory.wf m := by
  simp only [Memory.wf, Memory.Above, List.pairwise_cons, List.mem_cons, forall_eq_or_imp]
  tauto

theorem Memory.readByte_of_above {a : Nat} {m : Memory} (h : m.Above a) :
    m.readByte a = Config.unlistedByte := by
  induction m with
  | nil => rfl
  | cons x m ih =>
    have hx := h x (by simp)
    simp only [Memory.readByte]
    rw [if_neg (by omega)]
    exact ih fun y hy => h y (by simp [hy])

theorem Memory.readByte_push (a : Nat) (v : Byte) (m : Memory) (h : m.Above a) (a' : Nat) :
    (Memory.push a v m).readByte a' = if a' = a then v else m.readByte a' := by
  unfold Memory.push
  split
  · rename_i hv
    by_cases ha : a' = a
    · subst ha; simp [hv, Memory.readByte_of_above h]
    · simp [ha]
  · by_cases ha : a' = a
    · simp [Memory.readByte, ha]
    · have : a ≠ a' := fun e => ha e.symm
      simp [Memory.readByte, ha, this]

/-- A byte stored is read back, and every other byte reads as before. -/
theorem Memory.readByte_writeByte {m : Memory} (h : m.wf) (a : Nat) (v : Byte) (a' : Nat) :
    (m.writeByte a v).readByte a' = if a' = a then v else m.readByte a' := by
  induction m with
  | nil => simpa [Memory.writeByte] using Memory.readByte_push a v [] (by simp [Memory.Above]) a'
  | cons x m ih =>
    obtain ⟨habove, -, -, hm⟩ := Memory.wf_cons.1 h
    simp only [Memory.writeByte]
    split
    · rename_i hlt
      apply Memory.readByte_push
      intro y hy
      rcases List.mem_cons.1 hy with rfl | hy
      · exact hlt
      · have := habove y hy; omega
    · split
      · rename_i heq
        rw [Memory.readByte_push a v m (by rw [heq]; exact habove)]
        by_cases ha : a' = a
        · simp [ha]
        · have : x.1 ≠ a' := fun e => ha (by omega)
          simp [ha, Memory.readByte, this]
      · simp only [Memory.readByte, ih hm]
        by_cases hx : x.1 = a'
        · have : a' ≠ a := by omega
          simp [hx, this]
        · simp [hx]

theorem Memory.above_writeByte {m : Memory} {a b : Nat} {v : Byte} (h : m.Above b) (hab : b < a) :
    (m.writeByte a v).Above b := by
  induction m with
  | nil =>
    simp only [Memory.writeByte, Memory.push]
    split <;> intro y hy <;> simp_all
  | cons x m ih =>
    have hx : b < x.1 := h x (by simp)
    have hm : Memory.Above b m := fun y hy => h y (by simp [hy])
    simp only [Memory.writeByte, Memory.push]
    split
    · split
      · exact h
      · intro y hy
        rcases List.mem_cons.1 hy with rfl | hy
        · exact hab
        · exact h y hy
    · split
      · split
        · exact hm
        · intro y hy
          rcases List.mem_cons.1 hy with rfl | hy
          · exact hab
          · exact hm y hy
      · intro y hy
        rcases List.mem_cons.1 hy with rfl | hy
        · exact hx
        · exact ih hm y hy

/-- Storing a byte keeps the canonical form. -/
theorem Memory.wf_writeByte {m : Memory} (h : m.wf) {a : Nat} (ha : a < 2 ^ 32) (v : Byte) :
    (m.writeByte a v).wf := by
  induction m with
  | nil =>
    simp only [Memory.writeByte, Memory.push]
    split
    · exact Memory.wf_nil
    · rename_i hv
      exact Memory.wf_cons.2 ⟨by simp [Memory.Above], ha, hv, Memory.wf_nil⟩
  | cons x m ih =>
    obtain ⟨habove, hlt, hne, hm⟩ := Memory.wf_cons.1 h
    simp only [Memory.writeByte, Memory.push]
    split
    · rename_i hax
      split
      · exact h
      · rename_i hv
        refine Memory.wf_cons.2 ⟨?_, ha, hv, h⟩
        intro y hy
        rcases List.mem_cons.1 hy with rfl | hy
        · exact hax
        · have := habove y hy; simp only; omega
    · split
      · rename_i heq
        split
        · exact hm
        · rename_i hv
          exact Memory.wf_cons.2 ⟨by rw [heq]; exact habove, ha, hv, hm⟩
      · exact Memory.wf_cons.2
          ⟨Memory.above_writeByte habove (by omega), hlt, hne, ih hm⟩

theorem Memory.above_of_readByte {m : Memory} (h : m.wf) {a : Nat}
    (hr : ∀ a', a' ≤ a → m.readByte a' = Config.unlistedByte) : m.Above a := by
  induction m with
  | nil => simp [Memory.Above]
  | cons x m ih =>
    obtain ⟨habove, -, hne, hm⟩ := Memory.wf_cons.1 h
    have hx : a < x.1 := by
      by_contra hle
      have := hr x.1 (by omega)
      simp [Memory.readByte] at this
      exact hne this
    intro y hy
    rcases List.mem_cons.1 hy with rfl | hy
    · exact hx
    · have := habove y hy; omega

/-- Canonical memories that read alike are equal. -/
theorem Memory.ext_readByte {m n : Memory} (hm : m.wf) (hn : n.wf)
    (h : ∀ a, m.readByte a = n.readByte a) : m = n := by
  induction m generalizing n with
  | nil =>
    cases n with
    | nil => rfl
    | cons y n =>
      have := h y.1
      simp [Memory.readByte] at this
      exact absurd this.symm (Memory.wf_cons.1 hn).2.2.1
  | cons x m ih =>
    cases n with
    | nil =>
      have := h x.1
      simp [Memory.readByte] at this
      exact absurd this (Memory.wf_cons.1 hm).2.2.1
    | cons y n =>
      obtain ⟨hxm, -, hx, hm'⟩ := Memory.wf_cons.1 hm
      obtain ⟨hyn, -, hy, hn'⟩ := Memory.wf_cons.1 hn
      have hxy : x.1 = y.1 := by
        rcases Nat.lt_trichotomy x.1 y.1 with hlt | heq | hgt
        · have h1 := h x.1
          have : Memory.Above x.1 (y :: n) := by
            intro z hz
            rcases List.mem_cons.1 hz with rfl | hz
            · exact hlt
            · have := hyn z hz; omega
          rw [Memory.readByte_of_above this] at h1
          simp [Memory.readByte] at h1
          exact absurd h1 hx
        · exact heq
        · have h1 := h y.1
          have : Memory.Above y.1 (x :: m) := by
            intro z hz
            rcases List.mem_cons.1 hz with rfl | hz
            · exact hgt
            · have := hxm z hz; omega
          rw [Memory.readByte_of_above this] at h1
          simp [Memory.readByte] at h1
          exact absurd h1.symm hy
      have hv : x.2 = y.2 := by
        have h1 := h x.1
        simpa [Memory.readByte, hxy] using h1
      have : x = y := Prod.ext hxy hv
      subst this
      congr 1
      apply ih hm' hn'
      intro a
      have h1 := h a
      simp only [Memory.readByte] at h1
      by_cases ha : x.1 = a
      · subst ha
        rw [Memory.readByte_of_above hxm, Memory.readByte_of_above hyn]
      · simpa [ha] using h1

/-! The memory behind the accessor: bytes where they stand. -/

@[simp] theorem Mem.writeByte_accessor (m : Mem) (x : Nat) (v : Byte) :
    (m.writeByte x v).accessor = m.accessor := rfl
@[simp] theorem Mem.writeWord_accessor (m : Mem) (a v : Word) :
    (m.writeWord a v).accessor = m.accessor := by
  simp only [Mem.writeWord, Mem.writeByte_accessor]
@[simp] theorem Mem.writeBlock_accessor (m : Mem) (a : Word) (b : Block) :
    (m.writeBlock a b).accessor = m.accessor := by
  simp only [Mem.writeBlock, Mem.writeWord_accessor]

theorem Accessor.location_lt (k : Accessor) (a : Word) : k.location a < 2 ^ 32 :=
  Nat.lt_of_le_of_lt (Nat.mod_le _ _) a.isLt

theorem Accessor.byteLocation_lt (k : Accessor) (a : Word) (i : Nat) :
    k.byteLocation a i < 2 ^ 32 := k.location_lt _

/-- Modulo a divisor of the address space that 4 divides, four successive addresses differ. -/
theorem add_mod_inj {w M n i j : Nat} (h4 : 4 ∣ M) (hM : M ∣ w) (hi : i < 4) (hj : j < 4)
    (h : (n + i) % w % M = (n + j) % w % M) : i = j := by
  rw [Nat.mod_mod_of_dvd _ hM, Nat.mod_mod_of_dvd _ hM] at h
  have := congrArg (· % 4) h
  simp only [Nat.mod_mod_of_dvd _ h4] at this
  omega

/-- The four bytes of a word stand at four places. -/
theorem Accessor.byteLocation_inj (k : Accessor) {a : Word} {i j : Nat} (hi : i < 4) (hj : j < 4)
    (h : k.byteLocation a i = k.byteLocation a j) : i = j := by
  unfold Accessor.byteLocation Accessor.location at h
  rw [BitVec.toNat_add, BitVec.toNat_add, BitVec.toNat_ofNat, BitVec.toNat_ofNat,
    Nat.mod_eq_of_lt (show i < 2 ^ 32 by omega), Nat.mod_eq_of_lt (show j < 2 ^ 32 by omega)] at h
  have hk := k.ignored.isLt
  exact add_mod_inj (Nat.pow_dvd_pow 2 (show 2 ≤ 32 - k.ignored.val by omega))
    (Nat.pow_dvd_pow 2 (Nat.sub_le 32 _)) hi hj h

theorem ByteOrder.place_lt (o : ByteOrder) {i : Nat} (h : i < 4) : o.place i < 4 := by
  cases o <;> (simp only [ByteOrder.place]; omega)

theorem ByteOrder.place_place (o : ByteOrder) {i : Nat} (h : i < 4) : o.place (o.place i) = i := by
  cases o <;> simp only [ByteOrder.place]
  omega

theorem Mem.slot_inj (m : Mem) {a : Word} {i j : Nat} (hi : i < 4) (hj : j < 4)
    (h : m.slot a i = m.slot a j) : i = j := by
  have := m.accessor.byteLocation_inj (m.accessor.order.place_lt hi) (m.accessor.order.place_lt hj) h
  rw [← m.accessor.order.place_place hi, this, m.accessor.order.place_place hj]

/-- Everything storing one byte does. -/
theorem Mem.readByte_writeByte {m : Mem} (h : m.wf) (x : Nat) (v : Byte) (x' : Nat) :
    (m.writeByte x v).readByte x' = if x' = x then v else m.readByte x' :=
  Memory.readByte_writeByte h x v x'

theorem Mem.wf_writeByte {m : Mem} (h : m.wf) {x : Nat} (hx : x < 2 ^ 32) (v : Byte) :
    (m.writeByte x v).wf := Memory.wf_writeByte h hx v

/-- Storing a word keeps the canonical form. -/
theorem Mem.wf_writeWord {m : Mem} (h : m.wf) (a v : Word) : (m.writeWord a v).wf := by
  unfold Mem.writeWord
  exact Mem.wf_writeByte (Mem.wf_writeByte (Mem.wf_writeByte (Mem.wf_writeByte h
    (Accessor.byteLocation_lt _ _ _) _) (Accessor.byteLocation_lt _ _ _) _)
    (Accessor.byteLocation_lt _ _ _) _) (Accessor.byteLocation_lt _ _ _) _

/-- Storing a control block keeps the canonical form. -/
theorem Mem.wf_writeBlock {m : Mem} (h : m.wf) (a : Word) (b : Block) : (m.writeBlock a b).wf := by
  unfold Mem.writeBlock
  exact Mem.wf_writeWord (Mem.wf_writeWord (Mem.wf_writeWord (Mem.wf_writeWord
    (Mem.wf_writeWord (Mem.wf_writeWord h _ _) _ _) _ _) _ _) _ _) _ _

/-- The bytes after a word is stored: its own in their slots, every other byte as before (R41, R42). -/
theorem Mem.readByte_writeWord {m : Mem} (h : m.wf) (a v : Word) (x : Nat) :
    (m.writeWord a v).readByte x =
      if x = m.slot a 3 then v.extractLsb' 24 8
      else if x = m.slot a 2 then v.extractLsb' 16 8
      else if x = m.slot a 1 then v.extractLsb' 8 8
      else if x = m.slot a 0 then v.extractLsb' 0 8
      else m.readByte x := by
  unfold Mem.writeWord
  have h1 := Mem.wf_writeByte h (m.accessor.byteLocation_lt a _) (v.extractLsb' 0 8) (x := m.slot a 0)
  have h2 := Mem.wf_writeByte h1 (m.accessor.byteLocation_lt a _) (v.extractLsb' 8 8) (x := m.slot a 1)
  have h3 := Mem.wf_writeByte h2 (m.accessor.byteLocation_lt a _) (v.extractLsb' 16 8) (x := m.slot a 2)
  rw [Mem.readByte_writeByte h3, Mem.readByte_writeByte h2, Mem.readByte_writeByte h1,
    Mem.readByte_writeByte h]

/-- A byte outside the word stored reads as before. -/
theorem Mem.readByte_writeWord_of_not_inWord {m : Mem} (h : m.wf) (a v : Word) (x : Nat)
    (hx : ¬ m.accessor.InWord x a) : (m.writeWord a v).readByte x = m.readByte x := by
  have hne : ∀ i, i < 4 → x ≠ m.slot a i :=
    fun i hi e => hx ⟨_, m.accessor.order.place_lt hi, e⟩
  rw [Mem.readByte_writeWord h, if_neg (hne 3 (by omega)), if_neg (hne 2 (by omega)),
    if_neg (hne 1 (by omega)), if_neg (hne 0 (by omega))]

theorem word_of_bytes (v : Word) :
    v.extractLsb' 24 8 ++ v.extractLsb' 16 8 ++ v.extractLsb' 8 8 ++ v.extractLsb' 0 8 = v := by
  apply BitVec.eq_of_getLsbD_eq
  intro i hi
  simp only [BitVec.getLsbD_append, BitVec.getLsbD_extractLsb']
  by_cases h0 : i < 8
  · simp [h0]
  · by_cases h1 : i < 16
    · have : i - 8 < 8 := by omega
      simp [h0, this, show 8 + (i - 8) = i by omega]
    · by_cases h2 : i < 24
      · have : ¬ i - 8 < 8 := by omega
        have : i - 8 - 8 < 8 := by omega
        simp [*, show 16 + (i - 8 - 8) = i by omega]
      · have : ¬ i - 8 < 8 := by omega
        have : ¬ i - 8 - 8 < 8 := by omega
        have : i - 8 - 8 - 8 < 8 := by omega
        simp [*, show 24 + (i - 8 - 8 - 8) = i by omega]

/-- `MemRead(a, 4)` after `MemWrite(a, 4, v)` returns `v` (R41). -/
theorem Mem.readWord_writeWord {m : Mem} (h : m.wf) (a v : Word) :
    (m.writeWord a v).readWord a = v := by
  have hne : ∀ {i j : Nat}, i < 4 → j < 4 → i ≠ j → m.slot a i ≠ m.slot a j :=
    fun hi hj hij e => hij (m.slot_inj hi hj e)
  have h23 := hne (i := 2) (j := 3) (by omega) (by omega) (by omega)
  have h13 := hne (i := 1) (j := 3) (by omega) (by omega) (by omega)
  have h12 := hne (i := 1) (j := 2) (by omega) (by omega) (by omega)
  have h03 := hne (i := 0) (j := 3) (by omega) (by omega) (by omega)
  have h02 := hne (i := 0) (j := 2) (by omega) (by omega) (by omega)
  have h01 := hne (i := 0) (j := 1) (by omega) (by omega) (by omega)
  have hslot : ∀ i, (m.writeWord a v).slot a i = m.slot a i := fun _ => by
    simp only [Mem.slot, Mem.writeWord_accessor]
  simp only [Mem.readWord, hslot, Mem.readByte_writeWord h, h23, h13, h12, h03, h02, h01,
    if_true, if_false]
  exact word_of_bytes v

/-- A word that shares no byte with the one stored reads as before. -/
theorem Mem.readWord_writeWord_of_apart {m : Mem} (h : m.wf) (a v a' : Word)
    (hne : m.accessor.Apart a' a) : (m.writeWord a v).readWord a' = m.readWord a' := by
  have hb : ∀ i, i < 4 → (m.writeWord a v).readByte (m.slot a' i) = m.readByte (m.slot a' i) :=
    fun i hi => Mem.readByte_writeWord_of_not_inWord h _ _ _
      (hne _ ⟨_, m.accessor.order.place_lt hi, rfl⟩)
  have hslot : ∀ i, (m.writeWord a v).slot a' i = m.slot a' i := fun _ => by
    simp only [Mem.slot, Mem.writeWord_accessor]
  simp only [Mem.readWord, hslot]
  rw [hb 3 (by omega), hb 2 (by omega), hb 1 (by omega), hb 0 (by omega)]

/-- Memories behind one accessor that read alike, in canonical form, are equal. -/
theorem Mem.ext_readByte {m n : Mem} (hm : m.wf) (hn : n.wf) (ha : m.accessor = n.accessor)
    (h : ∀ x, m.readByte x = n.readByte x) : m = n := by
  cases m; cases n
  cases ha
  congr 1
  exact Memory.ext_readByte hm hn h

/-! What the accessor accepts. -/

/-- The spec's default instance accepts every access (20_memory section 1, R51). -/
@[simp] theorem Accessor.flat_accepts (d : Dir) (a : Word) : Accessor.flat.accepts d a = true := by
  cases d <;> rfl

/-- An access is refused exactly where it is not accepted. -/
theorem Accessor.refusal_eq_none {k : Accessor} {d : Dir} {a : Word} :
    k.refusal d a = none ↔ k.accepts d a = true := by
  unfold Accessor.refusal Accessor.accepts
  cases k.reachesWindow a <;> cases k.rejects d a <;> simp

/-- Some accesses are all accepted exactly where none is the first refused. -/
theorem Accessor.firstRefusal_eq_none {k : Accessor} {l : List MemAccess} :
    k.firstRefusal l = none ↔ ∀ x ∈ l, k.accepts x.dir x.addr = true := by
  induction l with
  | nil => simp [Accessor.firstRefusal]
  | cons x l ih =>
    rw [Accessor.firstRefusal, Option.or_eq_none_iff, ih, Accessor.refusal_eq_none]
    simp [and_comm]

end Sys2Proof.Machine
end

