-- ==== Sys2Proof/Laws/State.lean ====
section
/-! SUPPORT. One lemma per field per update of the state, so that no later proof unfolds a record update.
-/

namespace Sys2Proof.Machine

section
variable (s : State) (c d : ChannelId) (x : Channel)

@[simp] theorem Controller.ch_setCh_self (k : Controller) : (k.setCh c x).ch c = x := by
  simp [Controller.ch, Controller.setCh]

theorem Controller.ch_setCh_ne (k : Controller) (h : d ≠ c) : (k.setCh c x).ch d = k.ch d := by
  have : c.val ≠ d.val := fun e => h (Fin.ext e.symm)
  simp [Controller.ch, Controller.setCh, this]

theorem Controller.ch_setCh (k : Controller) :
    (k.setCh c x).ch d = if d = c then x else k.ch d := by
  by_cases h : d = c
  · subst h; simp
  · simp [h, Controller.ch_setCh_ne]

@[simp] theorem Controller.setCh_enable (k : Controller) : (k.setCh c x).enable = k.enable := rfl
@[simp] theorem Controller.setCh_intStatus (k : Controller) :
    (k.setCh c x).intStatus = k.intStatus := rfl

/-- Two controllers with the same channels and bitmaps are one. -/
theorem Controller.ext_ch {k l : Controller} (h : ∀ c, k.ch c = l.ch c) (he : k.enable = l.enable)
    (hi : k.intStatus = l.intStatus) : k = l := by
  cases k; cases l
  simp only at he hi
  subst he hi
  congr 1
  apply Vector.ext
  intro i hlt
  exact h ⟨i, hlt⟩

@[simp] theorem State.ch_setCh_self : (s.setCh c x).ch c = x := by simp [State.ch, State.setCh]
theorem State.ch_setCh_ne (h : d ≠ c) : (s.setCh c x).ch d = s.ch d := by
  simp [State.ch, State.setCh, Controller.ch_setCh_ne, h]
theorem State.ch_setCh : (s.setCh c x).ch d = if d = c then x else s.ch d := by
  simp [State.ch, State.setCh, Controller.ch_setCh]
@[simp] theorem State.setCh_enable : (s.setCh c x).ctl.enable = s.ctl.enable := rfl
@[simp] theorem State.setCh_intStatus : (s.setCh c x).ctl.intStatus = s.ctl.intStatus := rfl
@[simp] theorem State.setCh_mem : (s.setCh c x).mem = s.mem := rfl
@[simp] theorem State.setCh_inbox : (s.setCh c x).inbox = s.inbox := rfl
@[simp] theorem State.setCh_out : (s.setCh c x).out = s.out := rfl
@[simp] theorem State.setCh_draws : (s.setCh c x).draws = s.draws := rfl

variable (f : Word → Word)

@[simp] theorem State.ch_modifyCs_self : (s.modifyCs c f).ch c = { s.ch c with cs := f (s.ch c).cs } := by
  simp [State.modifyCs]
theorem State.ch_modifyCs_ne (h : d ≠ c) : (s.modifyCs c f).ch d = s.ch d := by
  simp [State.modifyCs, State.ch_setCh_ne, h]
@[simp] theorem State.modifyCs_enable : (s.modifyCs c f).ctl.enable = s.ctl.enable := rfl
@[simp] theorem State.modifyCs_intStatus : (s.modifyCs c f).ctl.intStatus = s.ctl.intStatus := rfl
@[simp] theorem State.modifyCs_mem : (s.modifyCs c f).mem = s.mem := rfl
@[simp] theorem State.modifyCs_inbox : (s.modifyCs c f).inbox = s.inbox := rfl
@[simp] theorem State.modifyCs_out : (s.modifyCs c f).out = s.out := rfl
@[simp] theorem State.modifyCs_draws : (s.modifyCs c f).draws = s.draws := rfl

variable (m : Bitmap)

@[simp] theorem State.setEnable_ch : (s.setEnable m).ch c = s.ch c := rfl
@[simp] theorem State.setEnable_enable : (s.setEnable m).ctl.enable = m := rfl
@[simp] theorem State.setEnable_intStatus : (s.setEnable m).ctl.intStatus = s.ctl.intStatus := rfl
@[simp] theorem State.setEnable_mem : (s.setEnable m).mem = s.mem := rfl
@[simp] theorem State.setEnable_inbox : (s.setEnable m).inbox = s.inbox := rfl
@[simp] theorem State.setEnable_out : (s.setEnable m).out = s.out := rfl
@[simp] theorem State.setEnable_draws : (s.setEnable m).draws = s.draws := rfl

@[simp] theorem State.setIntStatus_ch : (s.setIntStatus m).ch c = s.ch c := rfl
@[simp] theorem State.setIntStatus_enable : (s.setIntStatus m).ctl.enable = s.ctl.enable := rfl
@[simp] theorem State.setIntStatus_intStatus : (s.setIntStatus m).ctl.intStatus = m := rfl
@[simp] theorem State.setIntStatus_mem : (s.setIntStatus m).mem = s.mem := rfl
@[simp] theorem State.setIntStatus_inbox : (s.setIntStatus m).inbox = s.inbox := rfl
@[simp] theorem State.setIntStatus_out : (s.setIntStatus m).out = s.out := rfl
@[simp] theorem State.setIntStatus_draws : (s.setIntStatus m).draws = s.draws := rfl

variable (b : Bool)

@[simp] theorem State.ch_setIrq_self : (s.setIrq c b).ch c = { s.ch c with irq := b } := by
  simp [State.setIrq]
theorem State.ch_setIrq_ne (h : d ≠ c) : (s.setIrq c b).ch d = s.ch d := by
  simp [State.setIrq, State.ch_setCh_ne, h]
@[simp] theorem State.setIrq_enable : (s.setIrq c b).ctl.enable = s.ctl.enable := rfl
@[simp] theorem State.setIrq_intStatus : (s.setIrq c b).ctl.intStatus = s.ctl.intStatus := rfl
@[simp] theorem State.setIrq_mem : (s.setIrq c b).mem = s.mem := rfl
@[simp] theorem State.setIrq_inbox : (s.setIrq c b).inbox = s.inbox := rfl
@[simp] theorem State.setIrq_out : (s.setIrq c b).out = s.out := rfl
@[simp] theorem State.setIrq_draws : (s.setIrq c b).draws = s.draws := rfl

@[simp] theorem State.begin_ctl : s.begin.ctl = s.ctl := rfl
@[simp] theorem State.begin_ch : s.begin.ch c = s.ch c := rfl
@[simp] theorem State.begin_mem : s.begin.mem = s.mem := rfl
@[simp] theorem State.begin_inbox : s.begin.inbox = s.inbox := rfl
@[simp] theorem State.begin_out : s.begin.out = Outputs.none := rfl
@[simp] theorem State.begin_draws : s.begin.draws = s.draws := rfl

variable (v : Word)

@[simp] theorem State.answer_ctl : (s.answer v).ctl = s.ctl := rfl
@[simp] theorem State.answer_ch : (s.answer v).ch c = s.ch c := rfl
@[simp] theorem State.answer_mem : (s.answer v).mem = s.mem := rfl
@[simp] theorem State.answer_inbox : (s.answer v).inbox = s.inbox := rfl
@[simp] theorem State.answer_response : (s.answer v).out.response = some v := rfl
@[simp] theorem State.answer_diags : (s.answer v).out.diags = s.out.diags := rfl
@[simp] theorem State.answer_traffic : (s.answer v).out.traffic = s.out.traffic := rfl
@[simp] theorem State.answer_draws : (s.answer v).draws = s.draws := rfl

variable (g : Diag)

@[simp] theorem State.diag_ctl : (s.diag g).ctl = s.ctl := rfl
@[simp] theorem State.diag_ch : (s.diag g).ch c = s.ch c := rfl
@[simp] theorem State.diag_mem : (s.diag g).mem = s.mem := rfl
@[simp] theorem State.diag_inbox : (s.diag g).inbox = s.inbox := rfl
@[simp] theorem State.diag_response : (s.diag g).out.response = s.out.response := rfl
@[simp] theorem State.diag_traffic : (s.diag g).out.traffic = s.out.traffic := rfl
@[simp] theorem State.diag_draws : (s.diag g).draws = s.draws := rfl

variable (t : List MemAccess)

@[simp] theorem State.log_ctl : (s.log t).ctl = s.ctl := rfl
@[simp] theorem State.log_ch : (s.log t).ch c = s.ch c := rfl
@[simp] theorem State.log_mem : (s.log t).mem = s.mem := rfl
@[simp] theorem State.log_inbox : (s.log t).inbox = s.inbox := rfl
@[simp] theorem State.log_response : (s.log t).out.response = s.out.response := rfl
@[simp] theorem State.log_diags : (s.log t).out.diags = s.out.diags := rfl
@[simp] theorem State.log_traffic : (s.log t).out.traffic = t ++ s.out.traffic := rfl
@[simp] theorem State.log_draws : (s.log t).draws = s.draws := rfl

variable (l : Lane)

@[simp] theorem State.lane_ch : (s.lane c).ch = s.ch c := rfl
@[simp] theorem State.lane_mem : (s.lane c).mem = s.mem := rfl
@[simp] theorem State.lane_traffic : (s.lane c).traffic = [] := rfl
@[simp] theorem State.ch_setLane_self : (s.setLane c l).ch c = l.ch := by
  show (s.setCh c l.ch).ch c = l.ch; simp
theorem State.ch_setLane_ne (h : d ≠ c) : (s.setLane c l).ch d = s.ch d := by
  show (s.setCh c l.ch).ch d = s.ch d; simp [State.ch_setCh_ne, h]
@[simp] theorem State.setLane_enable : (s.setLane c l).ctl.enable = s.ctl.enable := rfl
@[simp] theorem State.setLane_intStatus : (s.setLane c l).ctl.intStatus = s.ctl.intStatus := rfl
@[simp] theorem State.setLane_mem : (s.setLane c l).mem = l.mem := rfl
@[simp] theorem State.setLane_inbox : (s.setLane c l).inbox = s.inbox := rfl
@[simp] theorem State.setLane_response : (s.setLane c l).out.response = s.out.response := rfl
@[simp] theorem State.setLane_diags : (s.setLane c l).out.diags = s.out.diags := rfl
@[simp] theorem State.setLane_traffic :
    (s.setLane c l).out.traffic = l.traffic ++ s.out.traffic := rfl
@[simp] theorem State.setLane_draws : (s.setLane c l).draws = s.draws := rfl

end

end Sys2Proof.Machine
end

