-- ==== Sys2Proof/Laws/Status.lean ====
section
/-! SUPPORT. What raising and acknowledging an interrupt, the steps of a CS write, the completion of a
descriptor and the exit of the engine can do, said once each.
-/

namespace Sys2Proof.Machine

theorem UnchangedOutside.refl (c : ChannelId) (s : State) : UnchangedOutside c s s :=
  ⟨fun _ _ => ⟨rfl, rfl⟩, rfl, rfl, rfl⟩

theorem UnchangedOutside.trans {c : ChannelId} {s t u : State} (h : UnchangedOutside c s t)
    (k : UnchangedOutside c t u) : UnchangedOutside c s u :=
  ⟨fun d hd => ⟨(k.1 d hd).1.trans (h.1 d hd).1, (k.1 d hd).2.trans (h.1 d hd).2⟩,
    k.2.1.trans h.2.1, k.2.2.1.trans h.2.2.1, k.2.2.2.trans h.2.2.2⟩

theorem unchangedOutside_setCh (c : ChannelId) (x : Channel) (s : State) :
    UnchangedOutside c s (s.setCh c x) :=
  ⟨fun _ hd => ⟨State.ch_setCh_ne s _ _ x hd, rfl⟩, rfl, rfl, rfl⟩

theorem unchangedOutside_modifyCs (c : ChannelId) (f : Word → Word) (s : State) :
    UnchangedOutside c s (s.modifyCs c f) :=
  unchangedOutside_setCh c _ s

theorem unchangedOutside_setLane (c : ChannelId) (l : Lane) (s : State) :
    UnchangedOutside c s (s.setLane c l) :=
  ⟨fun _ hd => ⟨State.ch_setLane_ne s c _ l hd, rfl⟩, rfl, rfl, rfl⟩

theorem unchangedOutside_begin (c : ChannelId) (s : State) : UnchangedOutside c s s.begin :=
  ⟨fun _ _ => ⟨rfl, rfl⟩, rfl, rfl, rfl⟩

/-! The interrupt. -/

@[simp] theorem raiseInterrupt_ch (c : ChannelId) (s : State) :
    (raiseInterrupt c s).ch c =
      { s.ch c with cs := setBit Config.csInt (s.ch c).cs, irq := true } := by
  simp [raiseInterrupt]
@[simp] theorem raiseInterrupt_intStatus (c : ChannelId) (s : State) :
    (raiseInterrupt c s).ctl.intStatus = Bitmap.setFor s.ctl.intStatus c := rfl
@[simp] theorem raiseInterrupt_mem (c : ChannelId) (s : State) :
    (raiseInterrupt c s).mem = s.mem := rfl
@[simp] theorem raiseInterrupt_out (c : ChannelId) (s : State) :
    (raiseInterrupt c s).out = s.out := rfl
theorem unchangedOutside_raiseInterrupt (c : ChannelId) (s : State) :
    UnchangedOutside c s (raiseInterrupt c s) := by
  refine ⟨fun d hd => ⟨?_, ?_⟩, rfl, rfl, rfl⟩
  · simp [raiseInterrupt, State.ch_setIrq_ne, State.ch_modifyCs_ne, hd]
  · simp [hd]

@[simp] theorem acknowledgeInterrupt_ch (c : ChannelId) (s : State) :
    (acknowledgeInterrupt c s).ch c =
      { s.ch c with cs := clearBit Config.csInt (s.ch c).cs, irq := false } := by
  simp [acknowledgeInterrupt]
@[simp] theorem acknowledgeInterrupt_intStatus (c : ChannelId) (s : State) :
    (acknowledgeInterrupt c s).ctl.intStatus = Bitmap.clearFor s.ctl.intStatus c := rfl
@[simp] theorem acknowledgeInterrupt_mem (c : ChannelId) (s : State) :
    (acknowledgeInterrupt c s).mem = s.mem := rfl
@[simp] theorem acknowledgeInterrupt_out (c : ChannelId) (s : State) :
    (acknowledgeInterrupt c s).out = s.out := rfl
theorem unchangedOutside_acknowledgeInterrupt (c : ChannelId) (s : State) :
    UnchangedOutside c s (acknowledgeInterrupt c s) := by
  refine ⟨fun d hd => ⟨?_, ?_⟩, rfl, rfl, rfl⟩
  · simp [acknowledgeInterrupt, State.ch_setIrq_ne, State.ch_modifyCs_ne, hd]
  · simp [hd]

/-! The CS write. -/

/-- The steps before the INT step, which touch only CS. -/
theorem csSteps_eq (c : ChannelId) (v : Word) (s : State) :
    csSteps c v s =
      mergeStep c v (intStep c v
        (s.modifyCs c fun cs =>
          (if v.getLsbD Config.csEnd then clearBit Config.csEnd else id)
            ((if v.getLsbD Config.csAbort then setBit Config.csAbort else id)
              ((if v.getLsbD Config.csReset then setBit Config.csReset else id) cs)))) := by
  have hid : ∀ t : State, t.modifyCs c (fun cs => cs) = t := by
    intro t
    have : t.ctl.setCh c (t.ch c) = t.ctl := Controller.ext_ch
      (fun d => by
        by_cases h : d = c
        · subst h; simp [State.ch]
        · simp [Controller.ch_setCh_ne, h]) rfl rfl
    cases t
    simp only [State.modifyCs, State.setCh]
    simpa using this
  have hmm : ∀ (t : State) (f g : Word → Word),
      (t.modifyCs c f).modifyCs c g = t.modifyCs c fun cs => g (f cs) := by
    intro t f g
    have : (t.modifyCs c f).ctl.setCh c { (t.modifyCs c f).ch c with cs := g ((t.modifyCs c f).ch c).cs }
        = t.ctl.setCh c { t.ch c with cs := g (f (t.ch c).cs) } := Controller.ext_ch
      (fun d => by
        by_cases h : d = c
        · subst h; simp
        · simp [Controller.ch_setCh_ne, h, State.modifyCs, State.setCh]) rfl rfl
    cases t
    simp only [State.modifyCs, State.setCh] at this ⊢
    simpa using this
  unfold csSteps resetStep abortStep endStep
  congr 2
  by_cases h1 : v.getLsbD Config.csReset <;> by_cases h2 : v.getLsbD Config.csAbort <;>
    by_cases h3 : v.getLsbD Config.csEnd <;> simp [h1, h2, h3, hmm, hid]

theorem unchangedOutside_intStep (c : ChannelId) (v : Word) (s : State) :
    UnchangedOutside c s (intStep c v s) := by
  unfold intStep
  split
  · exact unchangedOutside_acknowledgeInterrupt c s
  · exact UnchangedOutside.refl c s

theorem unchangedOutside_csSteps (c : ChannelId) (v : Word) (s : State) :
    UnchangedOutside c s (csSteps c v s) := by
  rw [csSteps_eq]
  exact ((unchangedOutside_modifyCs c _ s).trans (unchangedOutside_intStep c v _)).trans
    (unchangedOutside_modifyCs c _ _)

@[simp] theorem csSteps_mem (c : ChannelId) (v : Word) (s : State) : (csSteps c v s).mem = s.mem := by
  rw [csSteps_eq]; unfold mergeStep intStep; split <;> rfl

@[simp] theorem csSteps_out (c : ChannelId) (v : Word) (s : State) : (csSteps c v s).out = s.out := by
  rw [csSteps_eq]; unfold mergeStep intStep; split <;> rfl

theorem csSteps_irq (c : ChannelId) (v : Word) (s : State) :
    ((csSteps c v s).ch c).irq = ((s.ch c).irq && !v.getLsbD Config.csInt) := by
  rw [csSteps_eq]; unfold mergeStep intStep; split <;> simp [*]

theorem csSteps_intStatus (c : ChannelId) (v : Word) (s : State) :
    (csSteps c v s).ctl.intStatus.getLsbD c.val =
      (s.ctl.intStatus.getLsbD c.val && !v.getLsbD Config.csInt) := by
  rw [csSteps_eq]; unfold mergeStep intStep; split <;> simp [*, -BitVec.getLsbD_eq_getElem]

/-- The channel after the steps: only CS and the line may differ. -/
theorem csSteps_ch (c : ChannelId) (v : Word) (s : State) :
    (csSteps c v s).ch c = { s.ch c with
      cs := ((csSteps c v s).ch c).cs, irq := (s.ch c).irq && !v.getLsbD Config.csInt } := by
  rw [csSteps_eq]; unfold mergeStep intStep; split <;> simp [*]

/-- Bit by bit, CS after the steps (R140 to R145). -/
theorem csSteps_cs (c : ChannelId) (v : Word) (s : State) (i : Nat) (hi : i < 32) :
    ((csSteps c v s).ch c).cs.getLsbD i = csBit v (s.ch c).cs i := by
  have hmask : Config.csRwMask.getLsbD Config.csReset = false ∧
      Config.csRwMask.getLsbD Config.csAbort = false ∧
      Config.csRwMask.getLsbD Config.csEnd = false ∧
      Config.csRwMask.getLsbD Config.csInt = false := by decide
  have hbits : ((csSteps c v s).ch c).cs.getLsbD i =
      ((((((s.ch c).cs.getLsbD i || (v.getLsbD Config.csReset && decide (i = Config.csReset))) ||
        (v.getLsbD Config.csAbort && decide (i = Config.csAbort))) &&
        !(v.getLsbD Config.csEnd && decide (i = Config.csEnd))) &&
        !(v.getLsbD Config.csInt && decide (i = Config.csInt))) && !Config.csRwMask.getLsbD i ||
        v.getLsbD i && Config.csRwMask.getLsbD i) := by
    rw [csSteps_eq]
    unfold mergeStep intStep
    by_cases h4 : v.getLsbD Config.csInt <;>
      simp only [h4, if_true, if_false, Bool.false_eq_true, State.ch_modifyCs_self,
        acknowledgeInterrupt_ch, BitVec.getLsbD_or, BitVec.getLsbD_and, BitVec.getLsbD_not, hi,
        getLsbD_clearBit, getLsbD_setBit_if _ _ _ _ hi, getLsbD_clearBit_if, decide_true,
        Bool.true_and, Bool.false_and, Bool.not_false, Bool.and_true]
  rw [hbits]
  unfold csBit
  by_cases hR : i = Config.csReset
  · subst hR; simp [hmask, show Config.csReset ≠ Config.csAbort by decide,
      show Config.csReset ≠ Config.csEnd by decide, show Config.csReset ≠ Config.csInt by decide]
  by_cases hA : i = Config.csAbort
  · subst hA; simp [hmask, hR, show Config.csAbort ≠ Config.csEnd by decide,
      show Config.csAbort ≠ Config.csInt by decide]
  by_cases hE : i = Config.csEnd
  · subst hE; simp [hmask, hR, hA, show Config.csEnd ≠ Config.csInt by decide]
  by_cases hI : i = Config.csInt
  · subst hI; simp [hmask, hR, hA, hE]
  by_cases hm : Config.csRwMask.getLsbD i <;> simp [hR, hA, hE, hI, hm]

/-- What the five steps of a CS write do, whole. -/
theorem csWritten_csSteps (c : ChannelId) (v : Word) (s : State) :
    CsWritten c v s (csSteps c v s) :=
  ⟨csSteps_cs c v s, csSteps_intStatus c v s, csSteps_ch c v s, unchangedOutside_csSteps c v s,
    csSteps_mem c v s⟩

/-! Completion and exit. -/

theorem completeStep_ch (c : ChannelId) (ti : Word) (s : State) :
    (completeStep c ti s).ch c = completed ti (s.ch c).conblkAd (s.ch c) := by
  unfold completeStep completed
  by_cases h : interruptEnable ti <;> simp [h]

theorem completeStep_intStatus (c : ChannelId) (ti : Word) (s : State) :
    (completeStep c ti s).ctl.intStatus.getLsbD c.val =
      (s.ctl.intStatus.getLsbD c.val || interruptEnable ti) := by
  unfold completeStep
  by_cases h : interruptEnable ti <;> simp [h]

theorem unchangedOutside_completeStep (c : ChannelId) (ti : Word) (s : State) :
    UnchangedOutside c s (completeStep c ti s) := by
  unfold completeStep
  split
  · exact (unchangedOutside_modifyCs c _ s).trans (unchangedOutside_raiseInterrupt c _)
  · exact unchangedOutside_modifyCs c _ s

@[simp] theorem completeStep_mem (c : ChannelId) (ti : Word) (s : State) :
    (completeStep c ti s).mem = s.mem := by
  unfold completeStep; split <;> rfl

@[simp] theorem completeStep_out (c : ChannelId) (ti : Word) (s : State) :
    (completeStep c ti s).out = s.out := by
  unfold completeStep; split <;> rfl

@[simp] theorem exitStep_ch (c : ChannelId) (s : State) :
    (exitStep c s).ch c = { s.ch c with cs := clearBit Config.csActive (s.ch c).cs } := by
  simp [exitStep]
theorem unchangedOutside_exitStep (c : ChannelId) (s : State) :
    UnchangedOutside c s (exitStep c s) :=
  unchangedOutside_modifyCs c _ s
@[simp] theorem exitStep_mem (c : ChannelId) (s : State) : (exitStep c s).mem = s.mem := rfl
@[simp] theorem exitStep_out (c : ChannelId) (s : State) : (exitStep c s).out = s.out := rfl
@[simp] theorem exitStep_intStatus (c : ChannelId) (s : State) :
    (exitStep c s).ctl.intStatus = s.ctl.intStatus := rfl

end Sys2Proof.Machine
end

