-- ==== Sys2Proof/Laws/Copy.lean ====
section
/-! SUPPORT. What the copy loops and one pass over a control block can do, said once each: the cursors and
the memory follow `Copied`, the length is re-packed, the other registers stay.
-/

namespace Sys2Proof.Machine

/-- The part of a lane that `Copied` follows. -/
def Lane.copied (l : Lane) : Copied := ⟨l.mem, l.ch.sourceAd, l.ch.destAd⟩

/-- A channel after a copy that left the cursors at `k` and the length at `len`. -/
def Channel.withCopied (x : Channel) (k : Copied) (len : Word) : Channel :=
  { x with sourceAd := k.src, destAd := k.dst, txfrLen := len }

theorem copyStep_copied (g : Geometry) (ti : Word) (y : Nat) (x : Word) (l : Lane) :
    (copyStep g ti y x l).copied = l.copied.step ti := rfl

theorem copyStep_ch (g : Geometry) (ti : Word) (y : Nat) (x : Word) (l : Lane) :
    (copyStep g ti y x l).ch = l.ch.withCopied (l.copied.step ti) (packLength g y x) := rfl

theorem copyStep_traffic (g : Geometry) (ti : Word) (y : Nat) (x : Word) (l : Lane) :
    (copyStep g ti y x l).traffic = l.copied.port ti ++ l.traffic := by
  simp only [copyStep, sourceStep, destStep, Copied.port, Lane.copied]
  by_cases h1 : sourceIgnore ti <;> by_cases h2 : destIgnore ti <;> simp [h1, h2]

/-- The uses of the memory port of one step: at most one read and one write (R193). -/
theorem Copied.port_length (ti : Word) (k : Copied) :
    (k.port ti).length = (if sourceIgnore ti then 0 else 1) + if destIgnore ti then 0 else 1 := by
  by_cases h1 : sourceIgnore ti <;> by_cases h2 : destIgnore ti <;> simp [Copied.port, h1, h2]

theorem Copied.stepsPort_length (ti : Word) (n : Nat) (k : Copied) :
    (k.stepsPort ti n).length =
      n * ((if sourceIgnore ti then 0 else 1) + if destIgnore ti then 0 else 1) := by
  induction n generalizing k with
  | zero => simp [Copied.stepsPort]
  | succ n ih => rw [Copied.stepsPort, List.length_append, ih, Copied.port_length, Nat.succ_mul]

theorem Copied.rowsPort_length (ti ss ds : Word) (n rows : Nat) (k : Copied) :
    (k.rowsPort ti ss ds n rows).length =
      rows * (n * ((if sourceIgnore ti then 0 else 1) + if destIgnore ti then 0 else 1)) := by
  induction rows generalizing k with
  | zero => simp [Copied.rowsPort]
  | succ rows ih =>
    rw [Copied.rowsPort, List.length_append, Copied.stepsPort_length, Nat.succ_mul]
    congr 1
    by_cases h : rows = 0
    · simp [h]
    · rw [if_neg h, ih]

theorem copyRow_copied (g : Geometry) (ti : Word) (y n : Nat) (x : Word) (l : Lane) :
    (copyRow g ti y n x l).copied = Copied.steps ti n l.copied := by
  induction n generalizing x l with
  | zero => rfl
  | succ n ih => rw [copyRow, ih, copyStep_copied, Copied.steps]

theorem copyRow_ch (g : Geometry) (ti : Word) (y n : Nat) (x : Word) (l : Lane) :
    (copyRow g ti y n x l).ch = l.ch.withCopied (Copied.steps ti n l.copied)
      (if n = 0 then l.ch.txfrLen else packLength g y (x - BitVec.ofNat 32 (4 * n))) := by
  induction n generalizing x l with
  | zero => rfl
  | succ n ih =>
    rw [copyRow, ih, copyStep_copied, copyStep_ch, Copied.steps]
    have hx : x - 4#32 - BitVec.ofNat 32 (4 * n) = x - BitVec.ofNat 32 (4 * (n + 1)) := by
      rw [Nat.mul_add, BitVec.ofNat_add]
      bv_omega
    by_cases h : n = 0
    · subst h; simp [Channel.withCopied]
    · simp [h, hx, Channel.withCopied]

theorem copyRow_traffic (g : Geometry) (ti : Word) (y n : Nat) (x : Word) (l : Lane) :
    (copyRow g ti y n x l).traffic = l.copied.stepsPort ti n ++ l.traffic := by
  induction n generalizing x l with
  | zero => rfl
  | succ n ih =>
    rw [copyRow, ih, copyStep_traffic, copyStep_copied, Copied.stepsPort, List.append_assoc]

theorem strideStep_copied (g : Geometry) (l : Lane) :
    (strideStep g l).copied =
      { l.copied with src := l.copied.src + g.srcStride, dst := l.copied.dst + g.dstStride } := rfl

/-- A row length that reaches 0 leaves 0 after its steps (R168). -/
theorem rowSteps_some {x : Word} {n : Nat} (h : rowSteps x = some n) :
    x - BitVec.ofNat 32 (4 * n) = 0 := by
  unfold rowSteps at h
  split at h
  · rename_i hx
    cases h
    have : 4 * (x.toNat / 4) = x.toNat := by omega
    rw [this]
    simp
  · cases h

/-- One that does not, never does (R183). -/
theorem rowSteps_none {x : Word} : rowSteps x = none ↔ ∀ n, x - BitVec.ofNat 32 (4 * n) ≠ 0 := by
  unfold rowSteps
  constructor
  · intro h n hn
    split at h
    · cases h
    · rename_i hx
      apply hx
      have := congrArg BitVec.toNat hn
      simp only [BitVec.toNat_sub, BitVec.toNat_ofNat, BitVec.ofNat_eq_ofNat] at this
      have := x.isLt
      omega
  · intro h
    split
    · rename_i hx
      exact absurd (by
        have : 4 * (x.toNat / 4) = x.toNat := by omega
        rw [this]; simp) (h (x.toNat / 4))
    · rfl

theorem copyRows_copied (g : Geometry) (ti : Word) (n rows : Nat) (l : Lane) :
    (copyRows g ti n rows l).copied =
      Copied.rows ti g.srcStride g.dstStride n rows l.copied := by
  induction rows generalizing l with
  | zero => rfl
  | succ rows ih =>
    cases rows with
    | zero => simp [copyRows, Copied.rows, copyRow_copied]
    | succ rows =>
      rw [copyRows, ih, strideStep_copied, copyRow_copied]
      conv_rhs => rw [Copied.rows]
      simp

/-- The channel after all rows: the length is re-packed only by a step, with one row left by the last (R185). -/
theorem copyRows_ch (g : Geometry) (ti : Word) (n rows : Nat) (hn : rows = 0 ∨ rowSteps g.rowBytes = some n)
    (l : Lane) :
    (copyRows g ti n rows l).ch =
      l.ch.withCopied (Copied.rows ti g.srcStride g.dstStride n rows l.copied)
        (if rows = 0 ∨ n = 0 then l.ch.txfrLen else packLength g 1 0) := by
  induction rows generalizing l with
  | zero => rfl
  | succ rows ih =>
    cases rows with
    | zero =>
      rw [copyRows, copyRow_ch, rowSteps_some (hn.resolve_left (by omega))]
      simp [Copied.rows]
    | succ rows =>
      rw [copyRows, ih (.inr (hn.resolve_left (by omega))), strideStep_copied, copyRow_copied]
      conv_rhs => rw [Copied.rows]
      have hch : ∀ k : Lane, (strideStep g k).ch =
          k.ch.withCopied ⟨k.mem, k.ch.sourceAd + g.srcStride, k.ch.destAd + g.dstStride⟩ k.ch.txfrLen :=
        fun k => rfl
      rw [hch, copyRow_ch]
      by_cases h : n = 0 <;> simp [h, Channel.withCopied]

theorem copyRows_traffic (g : Geometry) (ti : Word) (n rows : Nat) (l : Lane) :
    (copyRows g ti n rows l).traffic =
      l.copied.rowsPort ti g.srcStride g.dstStride n rows ++ l.traffic := by
  induction rows generalizing l with
  | zero => rfl
  | succ rows ih =>
    cases rows with
    | zero => simp [copyRows, Copied.rowsPort, copyRow_traffic]
    | succ rows =>
      have hs : ∀ k : Lane, (strideStep g k).traffic = k.traffic := fun _ => rfl
      rw [copyRows, ih, strideStep_copied, copyRow_copied, hs, copyRow_traffic]
      conv_rhs => rw [Copied.rowsPort]
      simp [List.append_assoc]

/-! The copy keeps the canonical form of the memory. -/

theorem Copied.wf_step (ti : Word) {k : Copied} (h : k.mem.wf) : (k.step ti).mem.wf := by
  unfold Copied.step
  by_cases hd : destIgnore ti
  · simpa [hd] using h
  · simpa [hd] using Mem.wf_writeWord h _ _

theorem Copied.wf_steps (ti : Word) (n : Nat) {k : Copied} (h : k.mem.wf) :
    (k.steps ti n).mem.wf := by
  induction n generalizing k with
  | zero => exact h
  | succ n ih => exact ih (Copied.wf_step ti h)

theorem Copied.wf_rows (ti ss ds : Word) (n rows : Nat) {k : Copied} (h : k.mem.wf) :
    (k.rows ti ss ds n rows).mem.wf := by
  induction rows generalizing k with
  | zero => exact h
  | succ rows ih =>
    simp only [Copied.rows]
    split
    · exact Copied.wf_steps ti n h
    · exact ih (Copied.wf_steps ti n h)

/-! The copy does not touch the accessor (R23). -/

@[simp] theorem Copied.step_accessor (ti : Word) (k : Copied) :
    (k.step ti).mem.accessor = k.mem.accessor := by
  unfold Copied.step
  by_cases hd : destIgnore ti <;> simp [hd]

@[simp] theorem Copied.steps_accessor (ti : Word) (n : Nat) (k : Copied) :
    (k.steps ti n).mem.accessor = k.mem.accessor := by
  induction n generalizing k with
  | zero => rfl
  | succ n ih => rw [Copied.steps, ih, Copied.step_accessor]

@[simp] theorem Copied.rows_accessor (ti ss ds : Word) (n rows : Nat) (k : Copied) :
    (k.rows ti ss ds n rows).mem.accessor = k.mem.accessor := by
  induction rows generalizing k with
  | zero => rfl
  | succ rows ih =>
    simp only [Copied.rows]
    split
    · exact Copied.steps_accessor ti n k
    · rw [ih]; exact Copied.steps_accessor ti n k

/-! One pass. -/

/-- What the copy of a whole transfer does from a lane on which it has made no access: it ends unless it
has a row that never does (R183, R184). -/
theorem copyAll_eq (g : Geometry) (ti : Word) (l : Lane) :
    copyAll g ti l =
      if g.rows = 0 ∨ rowSteps g.rowBytes ≠ none
      then some (copyRows g ti ((rowSteps g.rowBytes).getD 0) g.rows l) else none := by
  unfold copyAll
  by_cases hr : g.rows = 0
  · simp [hr, copyRows]
  · cases h : rowSteps g.rowBytes <;> simp [hr]

/-- The uses of the memory port by a pass over a control block. -/
def passTraffic (g : Geometry) (b : Block) (m : Mem) : List MemAccess :=
  Copied.rowsPort b.ti g.srcStride g.dstStride ((rowSteps g.rowBytes).getD 0) g.rows
    ⟨m, b.src, b.dst⟩

/-- The outcome of a pass: the refusal of the first access that is refused; else the fault of a row that
never ends or a next state (R183, R51, D12). -/
theorem runBlock_outcome (g : Geometry) (c : ChannelId) (b : Block) (s : State) :
    (¬ (g.rows = 0 ∨ rowSteps g.rowBytes ≠ none) ∧
      ((∃ r, s.mem.accessor.endlessRefusal b.ti b.src b.dst = some r ∧
          runBlock g c b s = .refused r) ∨
        (s.mem.accessor.endlessRefusal b.ti b.src b.dst = none ∧
          runBlock g c b s = .fault (.rowNeverEnds c)))) ∨
    ((g.rows = 0 ∨ rowSteps g.rowBytes ≠ none) ∧
      ((∃ r, s.mem.accessor.firstRefusal (passTraffic g b s.mem) = some r ∧
          runBlock g c b s = .refused r) ∨
        (s.mem.accessor.firstRefusal (passTraffic g b s.mem) = none ∧
          ∃ t, runBlock g c b s = .next t))) := by
  unfold runBlock
  by_cases h : g.rows = 0 ∨ rowSteps g.rowBytes ≠ none
  · refine .inr ⟨h, ?_⟩
    simp only [copyAll_eq, if_pos h]
    rw [copyRows_traffic, State.lane_traffic, List.append_nil]
    have htr : Copied.rowsPort b.ti g.srcStride g.dstStride ((rowSteps g.rowBytes).getD 0) g.rows
        (Lane.copied { s.lane c with ch := loadBlock b (s.lane c).ch, traffic := [] }) =
          passTraffic g b s.mem := rfl
    simp only [htr]
    cases hf : s.mem.accessor.firstRefusal (passTraffic g b s.mem) with
    | some r => exact .inl ⟨r, rfl, rfl⟩
    | none => exact .inr ⟨rfl, _, rfl⟩
  · refine .inl ⟨h, ?_⟩
    simp only [copyAll_eq, if_neg h]
    cases hf : s.mem.accessor.endlessRefusal b.ti b.src b.dst with
    | some r => exact .inl ⟨r, rfl, rfl⟩
    | none => exact .inr ⟨rfl, rfl⟩

/-- Everything a pass that completes has done (R160 after its fetch, R185): its rows end, every access is
accepted, the cursors and the memory are those of `Copied.rows`, and the rest is as said. -/
theorem runBlock_next {g : Geometry} {c : ChannelId} {b : Block} {s t : State}
    (h : runBlock g c b s = .next t) :
    ∃ n, n = (rowSteps g.rowBytes).getD 0 ∧ (g.rows = 0 ∨ rowSteps g.rowBytes = some n) ∧
      t.mem = (Copied.rows b.ti g.srcStride g.dstStride n g.rows ⟨s.mem, b.src, b.dst⟩).mem ∧
      t.ch c = completed b.ti b.next ((loadBlock b (s.ch c)).withCopied
        (Copied.rows b.ti g.srcStride g.dstStride n g.rows ⟨s.mem, b.src, b.dst⟩)
        (if g.rows = 0 ∨ n = 0 then b.len else packLength g 1 0)) ∧
      t.ctl.intStatus.getLsbD c.val =
        (s.ctl.intStatus.getLsbD c.val || interruptEnable b.ti) ∧
      t.out.response = s.out.response ∧ t.out.diags = s.out.diags ∧
      t.out.traffic = passTraffic g b s.mem ++ s.out.traffic ∧
      (∀ x ∈ passTraffic g b s.mem, s.mem.accessor.accepts x.dir x.addr = true) ∧
      UnchangedOutside c s t := by
  rcases runBlock_outcome g c b s with ⟨-, ⟨_, -, hf⟩ | ⟨-, hf⟩⟩ | ⟨hend, ⟨r, -, hf⟩ | ⟨hacc, -⟩⟩
  · rw [hf] at h; cases h
  · rw [hf] at h; cases h
  · rw [hf] at h; cases h
  have hrow : g.rows = 0 ∨ rowSteps g.rowBytes = some ((rowSteps g.rowBytes).getD 0) := by
    refine hend.imp_right fun h0 => ?_
    cases hn : rowSteps g.rowBytes with
    | none => exact (h0 hn).elim
    | some n => rfl
  refine ⟨_, rfl, hrow, ?_⟩
  unfold runBlock at h
  simp only [copyAll_eq, if_pos hend] at h
  split at h
  · cases h
  obtain ⟨l, hl⟩ : ∃ l, l = copyRows g b.ti ((rowSteps g.rowBytes).getD 0) g.rows
      { s.lane c with ch := loadBlock b (s.lane c).ch } := ⟨_, rfl⟩
  rw [← hl] at h
  simp only [Host.Outcome.next.injEq] at h
  subst h
  have hcop : l.copied = Copied.rows b.ti g.srcStride g.dstStride ((rowSteps g.rowBytes).getD 0)
      g.rows ⟨s.mem, b.src, b.dst⟩ := by rw [hl, copyRows_copied]; rfl
  have htr : l.traffic = passTraffic g b s.mem := by
    rw [hl, copyRows_traffic, State.lane_traffic, List.append_nil]; rfl
  have hmem : (advanceStep c (completeStep c b.ti (s.setLane c l))).mem = l.mem := by
    simp [advanceStep]
  have hch : (advanceStep c (completeStep c b.ti (s.setLane c l))).ch c =
      completed b.ti l.ch.nextconbk l.ch := by
    simp only [advanceStep, State.ch_setCh_self, completeStep_ch, State.ch_setLane_self]
    rfl
  have hout : (advanceStep c (completeStep c b.ti (s.setLane c l))).out = (s.setLane c l).out := by
    simp [advanceStep]
  refine ⟨?_, ?_, ?_, by rw [hout]; rfl, by rw [hout]; rfl, ?_, ?_, ?_⟩
  · rw [hmem, ← hcop]; rfl
  · rw [hch, hl, copyRows_ch _ _ _ _ hrow]
    rfl
  · have := completeStep_intStatus c b.ti (s.setLane c l)
    rw [State.setLane_intStatus] at this
    exact this
  · rw [hout, State.setLane_traffic, htr]
  · exact Accessor.firstRefusal_eq_none.1 hacc
  · exact ((unchangedOutside_setLane c l s).trans (unchangedOutside_completeStep c b.ti _)).trans
      (unchangedOutside_setCh c _ _)

/-- A pass keeps the canonical form of the memory. -/
theorem runBlock_wf {g : Geometry} {c : ChannelId} {b : Block} {s t : State}
    (h : runBlock g c b s = .next t) (hs : s.mem.wf) : t.mem.wf := by
  obtain ⟨n, -, -, hm, -⟩ := runBlock_next h
  rw [hm]
  exact Copied.wf_rows _ _ _ _ _ hs

/-- A pass leaves the accessor as it is (R23). -/
theorem runBlock_accessor {g : Geometry} {c : ChannelId} {b : Block} {s t : State}
    (h : runBlock g c b s = .next t) : t.mem.accessor = s.mem.accessor := by
  obtain ⟨n, -, -, hm, -⟩ := runBlock_next h
  rw [hm, Copied.rows_accessor]

/-- What a pass does to the flags of its channel, the bitmaps and DEBUG (R170, R34). -/
theorem runBlock_flags {g : Geometry} {c : ChannelId} {b : Block} {s t : State}
    (h : runBlock g c b s = .next t) :
    (t.ch c).cs = (if interruptEnable b.ti then setBit Config.csInt (setBit Config.csEnd (s.ch c).cs)
      else setBit Config.csEnd (s.ch c).cs) ∧
      (t.ch c).irq = ((s.ch c).irq || interruptEnable b.ti) ∧
      t.ctl.intStatus.getLsbD c.val = (s.ctl.intStatus.getLsbD c.val || interruptEnable b.ti) ∧
      t.ctl.enable = s.ctl.enable ∧ (t.ch c).debug = (s.ch c).debug ∧ UnchangedOutside c s t := by
  obtain ⟨n, -, -, -, hc, hint, -, -, -, -, hu⟩ := runBlock_next h
  refine ⟨?_, ?_, hint, hu.2.1, ?_, hu⟩ <;> rw [hc] <;> rfl

end Sys2Proof.Machine
end

