-- ==== Sys2Proof/Laws/Engine.lean ====
section
/-! SUPPORT. What one turn of the engine's loop can do, and that the doubling run of `engine` is the plain
loop of R160; invariants of the loop packaged once.
-/

namespace Sys2Proof.Machine

/-- The pass over a fetched block is that of one of the two geometries (R163, R164). -/
theorem runFetched_eq (c : ChannelId) (b : Block) (s : State) :
    runFetched c b s =
      runBlock (if twoDimensional b.ti then planeGeometry b else linearGeometry b) c b s := by
  unfold runFetched runPlane runLinear
  split <;> rfl

/-- A pass over a fetched block faults in one way (R183). -/
theorem runFetched_fault {c : ChannelId} {b : Block} {s : State} {r : Fault}
    (h : runFetched c b s = .fault r) : r = .rowNeverEnds c := by
  rw [runFetched_eq] at h
  rcases runBlock_outcome _ c b s with ⟨-, ⟨_, -, hf⟩ | ⟨-, hf⟩⟩ | ⟨-, ⟨_, -, hf⟩ | ⟨-, _, hf⟩⟩ <;>
    rw [hf] at h <;> cases h
  rfl

/-- Everything one turn can do (R160, R161, R51, D12). -/
theorem chainPass_cases (c : ChannelId) (s : State) :
    (s.eligible c = false ∧ chainPass c s = .ended (exitStep c s)) ∨
    (s.eligible c = true ∧ s.fetchRefusal c = none ∧
      ∃ t, runFetched c (s.currentBlock c) (fetchStep c s) = .next t ∧ chainPass c s = .running t) ∨
    (s.eligible c = true ∧ s.fetchRefusal c = none ∧
      runFetched c (s.currentBlock c) (fetchStep c s) = .fault (.rowNeverEnds c) ∧
      chainPass c s = .faulted (.rowNeverEnds c)) ∨
    (s.eligible c = true ∧ ∃ r, chainPass c s = .refused r ∧
      (s.fetchRefusal c = some r ∨ s.fetchRefusal c = none ∧
        runFetched c (s.currentBlock c) (fetchStep c s) = .refused r)) := by
  unfold chainPass
  by_cases h : s.eligible c
  · simp only [h, if_true]
    cases hf : s.fetchRefusal c with
    | some r => simp
    | none =>
      cases hr : runFetched c (s.currentBlock c) (fetchStep c s) with
      | next t => simp [Chain.ofOutcome]
      | fault r => rw [runFetched_fault hr]; simp [Chain.ofOutcome]
      | refused r => simp [Chain.ofOutcome]
  · simp [h]

theorem turns_add (c : ChannelId) (m n : Nat) (s : State) :
    turns c (m + n) s =
      match turns c m s with
      | .running t => turns c n t
      | r => r := by
  induction m generalizing s with
  | zero => simp [turns]
  | succ m ih =>
    rw [Nat.succ_add, turns, turns]
    cases chainPass c s <;> simp [ih]

theorem chainPasses_eq_turns (c : ChannelId) (k : Nat) (s : State) :
    chainPasses c k s = turns c (2 ^ k) s := by
  induction k generalizing s with
  | zero =>
    show chainPass c s = turns c 1 s
    simp only [turns]
    cases chainPass c s <;> rfl
  | succ k ih =>
    rw [chainPasses, Nat.pow_succ, Nat.mul_two, turns_add, ih]
    cases turns c (2 ^ k) s with
    | running t => exact ih t
    | ended t => rfl
    | faulted r => rfl
    | refused r => rfl

/-- The doubling run takes `2 ^ k + … + 2 ^ (k + n - 1)` turns. -/
theorem runChain_eq_turns (c : ChannelId) (n k : Nat) (s : State) :
    runChain c n k s = turns c (2 ^ k * (2 ^ n - 1)) s := by
  induction n generalizing k s with
  | zero => simp [runChain, turns]
  | succ n ih =>
    have : 2 ^ k * (2 ^ (n + 1) - 1) = 2 ^ k + 2 ^ (k + 1) * (2 ^ n - 1) := by
      have h1 : 1 ≤ 2 ^ n := Nat.one_le_two_pow
      obtain ⟨q, hq⟩ := Nat.exists_eq_add_of_le h1
      rw [Nat.pow_succ 2 n, Nat.pow_succ 2 k, hq]
      have : (1 + q) * 2 - 1 = 1 + 2 * q := by omega
      rw [this, show 1 + q - 1 = q by omega]
      ring
    rw [this, turns_add, runChain, chainPasses_eq_turns]
    cases turns c (2 ^ k) s with
    | running t => exact ih (k + 1) t
    | ended t => rfl
    | faulted r => rfl
    | refused r => rfl

theorem chainOutcome_runChain (c : ChannelId) (levels : Nat) (s : State) :
    chainOutcome c (runChain c levels 0 s) = chainOutcome c (turns c (2 ^ levels - 1) s) := by
  rw [runChain_eq_turns, Nat.pow_zero, Nat.one_mul]

/-- The number of turns the engine takes, whatever it is, is above anything below `2 ^ chainLevels - 1`:
that number is never to be computed, so it stands here once and behind an existential. -/
theorem engine_turns (M : Nat) (hM : ∀ L, L = Config.chainLevels → M < 2 ^ L - 1) :
    ∃ N, M < N ∧ ∀ c s, engine c s = chainOutcome c (turns c N s) :=
  ⟨2 ^ Config.chainLevels - 1, hM _ rfl, fun c s => chainOutcome_runChain c Config.chainLevels s⟩

/-- An engine that answers a next state ended its chain there. -/
theorem engine_next {c : ChannelId} {s t : State} (h : engine c s = .next t) : ChainEnds c s t := by
  obtain ⟨n, -, hn⟩ := engine_turns 0 (fun L hL => by
    have : 2 ≤ L := by rw [hL]; decide
    have := Nat.pow_le_pow_right (n := 2) (by omega) this
    omega)
  rw [hn] at h
  refine ⟨n, ?_⟩
  cases hr : turns c n s with
  | running u => rw [hr] at h; cases h
  | ended u => rw [hr] at h; cases h; rfl
  | faulted r => rw [hr] at h; cases h
  | refused r => rw [hr] at h; cases h

/-- A chain that came to its end, or stopped, stays there. -/
theorem turns_mono {c : ChannelId} {s : State} {m n : Nat} (hmn : m ≤ n)
    (h : ∀ t, turns c m s ≠ .running t) : turns c n s = turns c m s := by
  obtain ⟨k, rfl⟩ := Nat.exists_eq_add_of_le hmn
  rw [turns_add]
  cases hr : turns c m s with
  | running t => exact (h t hr).elim
  | ended t => rfl
  | faulted r => rfl
  | refused r => rfl

/-- A chain comes to one end: two numbers of turns after which it runs no more leave it alike. -/
theorem turns_unique {c : ChannelId} {s : State} {m n : Nat} (hm : ∀ t, turns c m s ≠ .running t)
    (hn : ∀ t, turns c n s ≠ .running t) : turns c m s = turns c n s :=
  (turns_mono (Nat.le_max_left m n) hm).symm.trans (turns_mono (Nat.le_max_right m n) hn)

/-- What every pass and the exit keep, the engine keeps: `R` relates the state before the chain to every
state its loop goes through. -/
theorem turns_induct {c : ChannelId} (R : State → Prop)
    (hpass : ∀ s t, R s → s.eligible c = true → s.fetchRefusal c = none →
      runFetched c (s.currentBlock c) (fetchStep c s) = .next t → R t)
    {n : Nat} {s : State} (hs : R s) :
    (∀ t, turns c n s = .running t → R t) ∧
      ∀ t, turns c n s = .ended t → ∃ u, R u ∧ u.eligible c = false ∧ t = exitStep c u := by
  induction n generalizing s with
  | zero => simp [turns, hs]
  | succ n ih =>
    rcases chainPass_cases c s with
      ⟨he, hp⟩ | ⟨he, hf, u, hu, hp⟩ | ⟨-, -, -, hp⟩ | ⟨-, r, hp, -⟩
    · simp only [turns, hp]
      refine ⟨by simp, ?_⟩
      rintro t h
      cases h
      exact ⟨s, hs, he, rfl⟩
    · simp only [turns, hp]
      exact ih (hpass s u hs he hf hu)
    all_goals simp only [turns, hp]; exact ⟨by simp, by simp⟩

/-- The same for an engine that answers a next state. -/
theorem engine_induct {c : ChannelId} (R : State → Prop)
    (hpass : ∀ s t, R s → s.eligible c = true → s.fetchRefusal c = none →
      runFetched c (s.currentBlock c) (fetchStep c s) = .next t → R t)
    {s t : State} (hs : R s) (h : engine c s = .next t) :
    ∃ u, R u ∧ u.eligible c = false ∧ t = exitStep c u := by
  obtain ⟨n, hn⟩ := engine_next h
  exact (turns_induct R hpass hs).2 t hn

/-- The fetch only uses the memory port (R162). -/
theorem unchangedOutside_fetchStep (c : ChannelId) (s : State) :
    UnchangedOutside c s (fetchStep c s) :=
  ⟨fun _ _ => ⟨rfl, rfl⟩, rfl, rfl, rfl⟩

/-- A whole run of the engine touches nothing outside its channel but the memory (R11, R34). -/
theorem unchangedOutside_engine {c : ChannelId} {s t : State} (h : engine c s = .next t) :
    UnchangedOutside c s t := by
  obtain ⟨u, hu, -, rfl⟩ := engine_induct (fun u => UnchangedOutside c s u)
    (fun u v huv _ _ hv => by
      rw [runFetched_eq] at hv
      obtain ⟨_, _, _, _, _, _, _, _, _, _, hv⟩ := runBlock_next hv
      exact (huv.trans (unchangedOutside_fetchStep c u)).trans hv)
    (UnchangedOutside.refl c s) h
  exact hu.trans (unchangedOutside_exitStep c u)

/-- A whole run of the engine keeps the canonical form of the memory. -/
theorem engine_wf {c : ChannelId} {s t : State} (h : engine c s = .next t) (hs : s.mem.wf) :
    t.mem.wf := by
  obtain ⟨u, hu, -, rfl⟩ := engine_induct (fun u => u.mem.wf)
    (fun u v huv _ _ hv => by
      rw [runFetched_eq] at hv
      exact runBlock_wf hv huv)
    hs h
  exact hu

/-- A whole run of the engine leaves the accessor as it is (R23). -/
theorem engine_accessor {c : ChannelId} {s t : State} (h : engine c s = .next t) :
    t.mem.accessor = s.mem.accessor := by
  obtain ⟨u, hu, -, rfl⟩ := engine_induct (fun u => u.mem.accessor = s.mem.accessor)
    (fun u v huv _ _ hv => by
      rw [runFetched_eq] at hv
      exact (runBlock_accessor hv).trans huv)
    rfl h
  exact hu

/-- The six reads of a fetch that is not refused are accepted (R162). -/
theorem fetchRefusal_eq_none {c : ChannelId} {s : State} :
    s.fetchRefusal c = none ↔ FetchAccepted s.mem.accessor (s.ch c).conblkAd := by
  unfold State.fetchRefusal
  rw [Accessor.firstRefusal_eq_none]
  constructor
  · intro h i hi
    have : i = 0 ∨ i = 1 ∨ i = 2 ∨ i = 3 ∨ i = 4 ∨ i = 5 := by omega
    have h0 := h (.read (s.ch c).conblkAd (s.currentBlock c).ti) (by simp [fetchTraffic])
    have h1 := h (.read ((s.ch c).conblkAd + 4) (s.currentBlock c).src) (by simp [fetchTraffic])
    have h2 := h (.read ((s.ch c).conblkAd + 8) (s.currentBlock c).dst) (by simp [fetchTraffic])
    have h3 := h (.read ((s.ch c).conblkAd + 12) (s.currentBlock c).len) (by simp [fetchTraffic])
    have h4 := h (.read ((s.ch c).conblkAd + 16) (s.currentBlock c).stride) (by simp [fetchTraffic])
    have h5 := h (.read ((s.ch c).conblkAd + 20) (s.currentBlock c).next) (by simp [fetchTraffic])
    rcases this with rfl | rfl | rfl | rfl | rfl | rfl
    · simpa [MemAccess.dir, MemAccess.addr] using h0
    · exact h1
    · exact h2
    · exact h3
    · exact h4
    · exact h5
  · intro h x hx
    have h0 := h 0 (by omega)
    rw [show (s.ch c).conblkAd + BitVec.ofNat 32 (4 * 0) = (s.ch c).conblkAd by simp] at h0
    simp only [fetchTraffic, List.mem_cons, List.not_mem_nil, or_false] at hx
    rcases hx with rfl | rfl | rfl | rfl | rfl | rfl
    · exact h 5 (by omega)
    · exact h 4 (by omega)
    · exact h 3 (by omega)
    · exact h 2 (by omega)
    · exact h 1 (by omega)
    · exact h0

/-- The fetch shows its six reads and changes nothing else (R162). -/
theorem fetchStep_traffic (c : ChannelId) (s : State) : (fetchStep c s).out.traffic =
    fetchTraffic (s.ch c).conblkAd (s.currentBlock c) ++ s.out.traffic := rfl

end Sys2Proof.Machine
end

