-- ==== Sys2Proof/Laws/Chain.lean ====
section
/-! SUPPORT. Why the engine's bound bounds nothing: what a turn does depends on finitely much, so a chain
that goes on longer than there are such values goes on for ever.
-/

namespace Sys2Proof.Machine

/-- All that the next turns of channel `c` depend on: memory, chain pointer, enable bit (R161, R162). -/
def chainKey (c : ChannelId) (s : State) : Mem × Word × Bool :=
  (s.mem, (s.ch c).conblkAd, s.ctl.enable.getLsbD c.val)

/-- The bytes of a memory, as one of finitely many functions. -/
def byteImage (k : Mem × Word × Bool) : (BitVec 32 → BitVec 8) × BitVec 32 × Bool :=
  (fun a => k.1.readByte a.toNat, k.2.1, k.2.2)

theorem Memory.above_of_wf {m : Memory} (h : m.wf) {a : Nat} (ha : 2 ^ 32 ≤ a) :
    m.readByte a = Config.unlistedByte := by
  induction m with
  | nil => rfl
  | cons x m ih =>
    obtain ⟨-, hx, -, hm⟩ := Memory.wf_cons.1 h
    simp only [Memory.readByte]
    rw [if_neg (by omega)]
    exact ih hm

/-- On canonical memories behind one accessor nothing is lost. -/
theorem byteImage_inj {k l : Mem × Word × Bool} (hk : k.1.wf) (hl : l.1.wf)
    (ha : k.1.accessor = l.1.accessor) (h : byteImage k = byteImage l) : k = l := by
  obtain ⟨m, p, e⟩ := k
  obtain ⟨n, q, f⟩ := l
  simp only [byteImage, Prod.mk.injEq] at h
  obtain ⟨hf, rfl, rfl⟩ := h
  have : m = n := by
    apply Mem.ext_readByte hk hl ha
    intro a
    by_cases ha : a < 2 ^ 32
    · have := congrFun hf (BitVec.ofNat 32 a)
      rwa [BitVec.toNat_ofNat, Nat.mod_eq_of_lt ha] at this
    · exact (Memory.above_of_wf hk (by omega)).trans (Memory.above_of_wf hl (by omega)).symm
  rw [this]

/-- How many values there are, for addresses of `w` bits and bytes of `b` bits. -/
theorem card_byteImage (w b : Nat) :
    Fintype.card ((BitVec w → BitVec b) × BitVec w × Bool) = 2 ^ (b * 2 ^ w + w + 1) := by
  have hb : ∀ w, Fintype.card (BitVec w) = 2 ^ w := fun w => by
    rw [Fintype.card_congr (BitVec.equivFin (m := w)).toEquiv, Fintype.card_fin]
  rw [Fintype.card_prod, Fintype.card_prod, Fintype.card_fun, Fintype.card_bool, hb, hb,
    ← Nat.pow_mul, Nat.pow_succ, Nat.pow_add, Nat.mul_assoc]

theorem pow_lt_pow_pred {k L : Nat} (h : k + 2 ≤ L) : 2 ^ k < 2 ^ L - 1 := by
  have h1 : 2 ^ (k + 2) ≤ 2 ^ L := Nat.pow_le_pow_right (by omega) h
  rw [Nat.pow_add] at h1
  have h2 : 1 ≤ 2 ^ k := Nat.one_le_two_pow
  omega

/-- The engine takes more turns than there are values of what its turns depend on. -/
theorem engine_turns_card :
    ∃ N, Fintype.card ((BitVec 32 → BitVec 8) × BitVec 32 × Bool) < N ∧
      ∀ c s, engine c s = chainOutcome c (turns c N s) :=
  engine_turns _ fun L hL => by
    rw [card_byteImage]
    exact pow_lt_pow_pred (by rw [hL]; decide)

/-- What a turn does depends on the key alone, and it leaves the accessor as it is. -/
theorem chainPass_key {c : ChannelId} {s t : State} (hs : s.mem.wf)
    (h : chainKey c s = chainKey c t) {u : State} (hu : chainPass c s = .running u) :
    (u.mem.wf ∧ u.mem.accessor = s.mem.accessor) ∧
      ∃ v, chainPass c t = .running v ∧ chainKey c u = chainKey c v := by
  simp only [chainKey, Prod.mk.injEq] at h
  obtain ⟨hm, hp, he⟩ := h
  have hel : t.eligible c = s.eligible c := by
    unfold State.eligible State.idle; rw [he, hp]
  have hb : t.currentBlock c = s.currentBlock c := by simp [State.currentBlock, hm, hp]
  have hfr : t.fetchRefusal c = s.fetchRefusal c := by
    unfold State.fetchRefusal; rw [hb, hm, hp]
  rcases chainPass_cases c s with
    ⟨-, hpass⟩ | ⟨h1, hf, u', hu', hpass⟩ | ⟨-, -, -, hpass⟩ | ⟨-, r, hpass, -⟩ <;>
    rw [hpass] at hu <;> cases hu
  rw [runFetched_eq] at hu'
  refine ⟨⟨runBlock_wf hu' hs, (runBlock_accessor hu').trans rfl⟩, ?_⟩
  obtain ⟨v, hv⟩ : ∃ v, runFetched c (t.currentBlock c) (fetchStep c t) = .next v := by
    rw [hb, runFetched_eq]
    rcases runBlock_outcome (if twoDimensional (s.currentBlock c).ti then
        planeGeometry (s.currentBlock c) else linearGeometry (s.currentBlock c)) c
        (s.currentBlock c) (fetchStep c s) with
      ⟨-, ⟨_, -, hx⟩ | ⟨-, hx⟩⟩ | ⟨hend, ⟨_, -, hx⟩ | ⟨hacc, -⟩⟩
    · rw [hx] at hu'; cases hu'
    · rw [hx] at hu'; cases hu'
    · rw [hx] at hu'; cases hu'
    · rcases runBlock_outcome (if twoDimensional (s.currentBlock c).ti then
          planeGeometry (s.currentBlock c) else linearGeometry (s.currentBlock c)) c
          (s.currentBlock c) (fetchStep c t) with ⟨hne, -⟩ | ⟨-, ⟨r, hx, -⟩ | ⟨-, hx⟩⟩
      · exact (hne hend).elim
      · rw [show (fetchStep c t).mem = (fetchStep c s).mem from hm.symm, hacc] at hx
        cases hx
      · exact hx
  have hpass' : chainPass c t = .running v := by
    unfold chainPass
    rw [if_pos (hel.trans h1), hfr, hf, hv]
    rfl
  refine ⟨v, hpass', ?_⟩
  rw [hb, runFetched_eq] at hv
  obtain ⟨n, rfl, -, hmu, hcu, -, -, -, -, -, hou⟩ := runBlock_next hu'
  obtain ⟨n, rfl, -, hmv, hcv, -, -, -, -, -, hov⟩ := runBlock_next hv
  have hmem : u.mem = v.mem := by
    rw [hmu, hmv, show (fetchStep c s).mem = (fetchStep c t).mem from hm]
  have hpc : (u.ch c).conblkAd = (v.ch c).conblkAd := by rw [hcu, hcv]; rfl
  have hen : u.ctl.enable = s.ctl.enable := hou.2.1
  have hen' : v.ctl.enable = t.ctl.enable := hov.2.1
  unfold chainKey
  rw [hmem, hpc, hen, hen', he]

theorem turns_key {c : ChannelId} (n : Nat) {s t : State} (hs : s.mem.wf)
    (h : chainKey c s = chainKey c t) {u : State} (hu : turns c n s = .running u) :
    (u.mem.wf ∧ u.mem.accessor = s.mem.accessor) ∧
      ∃ v, turns c n t = .running v ∧ chainKey c u = chainKey c v := by
  induction n generalizing s t with
  | zero => cases hu; exact ⟨⟨hs, rfl⟩, t, rfl, h⟩
  | succ n ih =>
    rw [turns] at hu
    cases hp : chainPass c s with
    | running s' =>
      rw [hp] at hu
      obtain ⟨⟨hw, ha⟩, t', ht', hk⟩ := chainPass_key hs h hp
      obtain ⟨⟨hwu, hau⟩, v, hv, hkv⟩ := ih hw hk hu
      exact ⟨⟨hwu, hau.trans ha⟩, v, by rw [turns, ht']; exact hv, hkv⟩
    | ended s' => rw [hp] at hu; cases hu
    | faulted r => rw [hp] at hu; cases hu
    | refused r => rw [hp] at hu; cases hu

/-- A chain running after `n` turns was running after fewer. -/
theorem turns_running_prefix {c : ChannelId} {m n : Nat} (h : m ≤ n) {s u : State}
    (hu : turns c n s = .running u) : ∃ v, turns c m s = .running v := by
  obtain ⟨k, rfl⟩ := Nat.exists_eq_add_of_le h
  rw [turns_add] at hu
  cases hm : turns c m s with
  | running v => exact ⟨v, rfl⟩
  | ended v => rw [hm] at hu; cases hu
  | faulted r => rw [hm] at hu; cases hu
  | refused r => rw [hm] at hu; cases hu

/-- A chain that comes back to a key goes on for ever. -/
theorem chainNeverEnds_of_key_eq {c : ChannelId} {s t : State} (hs : s.mem.wf) {p : Nat} (hp : 0 < p)
    (ht : turns c p s = .running t) (h : chainKey c t = chainKey c s) : ChainNeverEnds c s := by
  intro n
  induction n using Nat.strong_induction_on with
  | h n ih =>
    by_cases hn : n ≤ p
    · exact turns_running_prefix hn ht
    · obtain ⟨v, hv⟩ := ih (n - p) (by omega)
      obtain ⟨-, w, hw, -⟩ := turns_key (n - p) hs h.symm hv
      refine ⟨w, ?_⟩
      have : n = p + (n - p) := by omega
      rw [this, turns_add, ht]
      exact hw

/-- A chain still running after more turns than there are keys never ends (R244, U5). -/
theorem chainNeverEnds_of_turns {c : ChannelId} {s u : State} (hs : s.mem.wf) {N : Nat}
    (hN : Fintype.card ((BitVec 32 → BitVec 8) × BitVec 32 × Bool) < N)
    (hu : turns c N s = .running u) : ChainNeverEnds c s := by
  have hrun : ∀ i : Fin N, ∃ v, turns c i.val s = .running v := fun i =>
    turns_running_prefix i.isLt.le hu
  choose at_ hat using hrun
  obtain ⟨i, j, hij, hkey⟩ := Fintype.exists_ne_map_eq_of_card_lt
    (fun i : Fin N => byteImage (chainKey c (at_ i))) (by rwa [Fintype.card_fin])
  have key : ∀ i j : Fin N, i.val < j.val →
      byteImage (chainKey c (at_ i)) = byteImage (chainKey c (at_ j)) → ChainNeverEnds c s := by
    intro i j hlt he
    obtain ⟨hwi, hai⟩ := (turns_key i.val hs rfl (hat i)).1
    obtain ⟨hwj, haj⟩ := (turns_key j.val hs rfl (hat j)).1
    have hk := byteImage_inj hwi hwj (hai.trans haj.symm) he
    have hj : turns c (j.val - i.val) (at_ i) = .running (at_ j) := by
      have := hat j
      rw [show j.val = i.val + (j.val - i.val) by omega, turns_add, hat i] at this
      exact this
    have hinf := chainNeverEnds_of_key_eq hwi (by omega) hj hk.symm
    intro n
    by_cases hn : n ≤ i.val
    · exact turns_running_prefix hn (hat i)
    · obtain ⟨v, hv⟩ := hinf (n - i.val)
      refine ⟨v, ?_⟩
      rw [show n = i.val + (n - i.val) by omega, turns_add, hat i]
      exact hv
  rcases Nat.lt_or_gt_of_ne (fun e => hij (Fin.ext e)) with h | h
  · exact key i j h hkey
  · exact key j i h hkey.symm

/-- A fault of the chain is that of a row that never ends (R183). -/
theorem turns_faulted {c : ChannelId} {n : Nat} {s : State} {r : Fault}
    (h : turns c n s = .faulted r) : r = .rowNeverEnds c := by
  induction n generalizing s with
  | zero => cases h
  | succ n ih =>
    rcases chainPass_cases c s with
      ⟨-, hp⟩ | ⟨-, -, u, -, hp⟩ | ⟨-, -, -, hp⟩ | ⟨-, _, hp, -⟩ <;> rw [turns, hp] at h
    · cases h
    · exact ih h
    · cases h; rfl
    · cases h

/-- Everything a run of the engine can do: the chain ends and it answers that state, or it goes on for
ever, or it gets stuck in a row, and the fault says which, or an access is refused (R160, R183, R244,
R51, D12). -/
theorem engine_cases (c : ChannelId) {s : State} (hs : s.mem.wf) :
    (∃ t, ChainEnds c s t ∧ engine c s = .next t) ∨
      (ChainNeverEnds c s ∧ engine c s = .fault (.chainNeverEnds c)) ∨
      (ChainGetsStuck c s ∧ engine c s = .fault (.rowNeverEnds c)) ∨
      ∃ r, ChainIsRefused c s r ∧ engine c s = .refused r := by
  obtain ⟨N, hN, he⟩ := engine_turns_card
  rw [he]
  cases h : turns c N s with
  | ended t => exact .inl ⟨t, ⟨N, h⟩, rfl⟩
  | running t => exact .inr (.inl ⟨chainNeverEnds_of_turns hs hN h, rfl⟩)
  | faulted r => cases turns_faulted h; exact .inr (.inr (.inl ⟨⟨N, h⟩, rfl⟩))
  | refused r => exact .inr (.inr (.inr ⟨r, ⟨N, h⟩, rfl⟩))

/-- A chain that runs no more after fewer than a thousand turns: no premise on the memory. -/
theorem engine_of_turns {c : ChannelId} {n : Nat} (hn : n < 1000) {s : State}
    (h : ∀ t, turns c n s ≠ .running t) : engine c s = chainOutcome c (turns c n s) := by
  obtain ⟨N, hN, he⟩ := engine_turns 1000 (fun L hL => by
    have h1 : 11 ≤ L := by rw [hL]; decide
    have := Nat.pow_le_pow_right (n := 2) (by omega) h1
    omega)
  rw [he, turns_mono (by omega) h]

end Sys2Proof.Machine
end

