-- ==== Sys2Proof/Laws/Decode.lean ====
section
/-! SUPPORT. What the decoder reads from the keys the encoder writes.
-/

namespace Sys2Proof

theorem accessKey_getLsbD (w : Window) (d : Dir) (o : BitVec 12) (i : Nat) :
    (accessKey w d o).getLsbD i =
      if i < 12 then o.getLsbD i else (BitVec.ofBool w.bit ++ BitVec.ofBool d.bit).getLsbD (i - 12) :=
  BitVec.getLsbD_append (x := BitVec.ofBool w.bit ++ BitVec.ofBool d.bit) (y := o) (i := i)

theorem accessKey_window (w : Window) (d : Dir) (o : BitVec 12) :
    (accessKey w d o).getLsbD 13 = w.bit := by
  rw [accessKey_getLsbD]; cases w <;> cases d <;> rfl

theorem accessKey_dir (w : Window) (d : Dir) (o : BitVec 12) :
    (accessKey w d o).getLsbD 12 = d.bit := by
  rw [accessKey_getLsbD]; cases w <;> cases d <;> rfl

theorem accessKey_low (w : Window) (d : Dir) (o : BitVec 12) :
    (accessKey w d o).extractLsb' 0 12 = o := by
  apply BitVec.eq_of_getLsbD_eq
  intro i hi
  rw [BitVec.getLsbD_extractLsb', accessKey_getLsbD]
  simp [hi, -BitVec.getLsbD_eq_getElem]

theorem getLsbD_slotOffset (h : BitVec 4) (r : BitVec 8) (i : Nat) :
    BitVec.getLsbD (w := 12) (h ++ r) i = if i < 8 then r.getLsbD i else h.getLsbD (i - 8) :=
  BitVec.getLsbD_append

theorem accessKey_high (w : Window) (d : Dir) (h : BitVec 4) (r : BitVec 8) :
    (accessKey w d (h ++ r)).extractLsb' 8 4 = h := by
  apply BitVec.eq_of_getLsbD_eq
  intro i hi
  have h1 : 8 + i < 12 := by omega
  rw [BitVec.getLsbD_extractLsb', accessKey_getLsbD, if_pos h1, getLsbD_slotOffset]
  simp [hi, -BitVec.getLsbD_eq_getElem]

theorem accessKey_register (w : Window) (d : Dir) (h : BitVec 4) (r : BitVec 8) :
    (accessKey w d (h ++ r)).extractLsb' 0 8 = r := by
  apply BitVec.eq_of_getLsbD_eq
  intro i hi
  have h1 : 0 + i < 12 := by omega
  rw [BitVec.getLsbD_extractLsb', accessKey_getLsbD, if_pos h1, getLsbD_slotOffset]
  simp [hi, -BitVec.getLsbD_eq_getElem]

theorem decodeKey_keyAC (d : Dir) (c : Fin 15) (r : BitVec 8) (v : Word) :
    decodeKey (keyAC d c r) v =
      .ok (match d with
        | .read => decodeReadAC c r
        | .write => decodeWriteAC c r v) := by
  have hc : (BitVec.ofNat 4 c.val).toNat = c.val := by
    rw [BitVec.toNat_ofNat]; have := c.isLt; omega
  unfold decodeKey keyAC
  simp only [accessKey_window, accessKey_dir, accessKey_high, accessKey_register, hc, c.isLt]
  cases d <;> rfl

theorem decodeKey_keyAG (d : Dir) (r : BitVec 8) (v : Word) :
    decodeKey (keyAG d r) v =
      .ok (match d with
        | .read => decodeReadAG r
        | .write => decodeWriteAG r v) := by
  unfold decodeKey keyAG
  simp only [accessKey_window, accessKey_dir, accessKey_high, accessKey_register]
  cases d <;> rfl

theorem decodeKey_keyBC (d : Dir) (r : BitVec 8) (v : Word) :
    decodeKey (keyBC d r) v =
      .ok (match d with
        | .read => decodeReadBC r
        | .write => decodeWriteBC r v) := by
  unfold decodeKey keyBC
  simp only [accessKey_window, accessKey_dir, accessKey_high, accessKey_register]
  cases d <;> rfl

/-- The register map has nothing at an offset that is none of the nine (R63, R65). -/
theorem decodeReadAC_invalid {r : BitVec 8} (h : definedOffset r = false) (c : Fin 15) :
    decodeReadAC c r = .rdInvalidANY (slotA c) r := by
  simp only [definedOffset, List.contains_eq_mem, decide_eq_false_iff_not, List.mem_cons,
    List.not_mem_nil, or_false, not_or] at h
  simp [decodeReadAC, h]

theorem decodeWriteAC_invalid {r : BitVec 8} (h : definedOffset r = false) (c : Fin 15) (v : Word) :
    decodeWriteAC c r v = .wrInvalidANY (slotA c) r v := by
  simp only [definedOffset, List.contains_eq_mem, decide_eq_false_iff_not, List.mem_cons,
    List.not_mem_nil, or_false, not_or] at h
  simp [decodeWriteAC, h]

theorem decodeReadBC_invalid {r : BitVec 8} (h : definedOffset r = false) :
    decodeReadBC r = .rdInvalidANY channelB r := by
  simp only [definedOffset, List.contains_eq_mem, decide_eq_false_iff_not, List.mem_cons,
    List.not_mem_nil, or_false, not_or] at h
  simp [decodeReadBC, h]

theorem decodeWriteBC_invalid {r : BitVec 8} (h : definedOffset r = false) (v : Word) :
    decodeWriteBC r v = .wrInvalidANY channelB r v := by
  simp only [definedOffset, List.contains_eq_mem, decide_eq_false_iff_not, List.mem_cons,
    List.not_mem_nil, or_false, not_or] at h
  simp [decodeWriteBC, h]

theorem channelB_of_not_lt {c : ChannelId} (h : ¬ c.val < 15) : channelB = c := by
  apply Fin.ext
  have := c.isLt
  show 15 = c.val
  omega

theorem decodeKey_keyOfSlot_read {r : BitVec 8} (h : definedOffset r = false) (c : ChannelId)
    (v : Word) : decodeKey (keyOfSlot .read c r) v = .ok (.rdInvalidANY c r) := by
  unfold keyOfSlot
  split
  · rename_i hc
    rw [decodeKey_keyAC]
    simp only [decodeReadAC_invalid h]
    rfl
  · rename_i hc
    rw [decodeKey_keyBC]
    simp only [decodeReadBC_invalid h, channelB_of_not_lt hc]

theorem decodeKey_keyOfSlot_write {r : BitVec 8} (h : definedOffset r = false) (c : ChannelId)
    (v : Word) : decodeKey (keyOfSlot .write c r) v = .ok (.wrInvalidANY c r v) := by
  unfold keyOfSlot
  split
  · rename_i hc
    rw [decodeKey_keyAC]
    simp only [decodeWriteAC_invalid h]
    rfl
  · rename_i hc
    rw [decodeKey_keyBC]
    simp only [decodeWriteBC_invalid h, channelB_of_not_lt hc]

/-- A key is the key of its own three parts (R60). -/
theorem key_eq_accessKey (key : BitVec 14) :
    key = accessKey (if key.getLsbD 13 then .b else .a) (if key.getLsbD 12 then .write else .read)
      (key.extractLsb' 8 4 ++ key.extractLsb' 0 8) := by
  apply BitVec.eq_of_getLsbD_eq
  intro i hi
  rw [accessKey_getLsbD]
  by_cases h : i < 12
  · rw [if_pos h, getLsbD_slotOffset]
    split
    · simp [*, -BitVec.getLsbD_eq_getElem]
    · have : i - 8 < 4 := by omega
      simp [*, show 8 + (i - 8) = i by omega, -BitVec.getLsbD_eq_getElem]
  · have h2 : i = 12 ∨ i = 13 := by omega
    rcases h2 with rfl | rfl
    · rw [if_neg (by omega), BitVec.getLsbD_append]
      cases key.getLsbD 12 <;> rfl
    · rw [if_neg (by omega), BitVec.getLsbD_append]
      cases key.getLsbD 13 <;> rfl

/-- The offset of a key is its high four bits over its low eight (R60). -/
theorem key_offset (key : BitVec 14) :
    key.extractLsb' 0 12 = key.extractLsb' 8 4 ++ key.extractLsb' 0 8 := by
  conv_lhs => rw [key_eq_accessKey key]
  rw [accessKey_low]

/-! What each table decoder reads is well formed, and encodes back to the key it was read from. -/

theorem encode_decodeReadAC (c : Fin 15) (r : BitVec 8) :
    (decodeReadAC c r).wf = true ∧ encode (decodeReadAC c r) = .access (keyAC .read c r) 0 := by
  by_cases h : definedOffset r = true
  · simp only [definedOffset, List.contains_eq_mem, decide_eq_true_eq, List.mem_cons,
      List.not_mem_nil, or_false] at h
    rcases h with rfl | rfl | rfl | rfl | rfl | rfl | rfl | rfl | rfl <;> exact ⟨rfl, rfl⟩
  · have h := Bool.eq_false_iff.2 h
    have hc : (slotA c).val < 15 := c.isLt
    rw [decodeReadAC_invalid h]
    refine ⟨by simp [Instr.wf, h], ?_⟩
    simp only [encode, keyOfSlot, hc, dif_pos]
    rfl

theorem encode_decodeWriteAC (c : Fin 15) (r : BitVec 8) (v : Word) :
    (decodeWriteAC c r v).wf = true ∧
      encode (decodeWriteAC c r v) = .access (keyAC .write c r) v := by
  by_cases h : definedOffset r = true
  · simp only [definedOffset, List.contains_eq_mem, decide_eq_true_eq, List.mem_cons,
      List.not_mem_nil, or_false] at h
    rcases h with rfl | rfl | rfl | rfl | rfl | rfl | rfl | rfl | rfl <;> exact ⟨rfl, rfl⟩
  · have h := Bool.eq_false_iff.2 h
    have hc : (slotA c).val < 15 := c.isLt
    rw [decodeWriteAC_invalid h]
    refine ⟨by simp [Instr.wf, h], ?_⟩
    simp only [encode, keyOfSlot, hc, dif_pos]
    rfl

theorem encode_decodeReadBC (r : BitVec 8) :
    (decodeReadBC r).wf = true ∧ encode (decodeReadBC r) = .access (keyBC .read r) 0 := by
  by_cases h : definedOffset r = true
  · simp only [definedOffset, List.contains_eq_mem, decide_eq_true_eq, List.mem_cons,
      List.not_mem_nil, or_false] at h
    rcases h with rfl | rfl | rfl | rfl | rfl | rfl | rfl | rfl | rfl <;> exact ⟨rfl, rfl⟩
  · have h := Bool.eq_false_iff.2 h
    rw [decodeReadBC_invalid h]
    exact ⟨by simp [Instr.wf, h], rfl⟩

theorem encode_decodeWriteBC (r : BitVec 8) (v : Word) :
    (decodeWriteBC r v).wf = true ∧ encode (decodeWriteBC r v) = .access (keyBC .write r) v := by
  by_cases h : definedOffset r = true
  · simp only [definedOffset, List.contains_eq_mem, decide_eq_true_eq, List.mem_cons,
      List.not_mem_nil, or_false] at h
    rcases h with rfl | rfl | rfl | rfl | rfl | rfl | rfl | rfl | rfl <;> exact ⟨rfl, rfl⟩
  · have h := Bool.eq_false_iff.2 h
    rw [decodeWriteBC_invalid h]
    exact ⟨by simp [Instr.wf, h], rfl⟩

theorem encode_decodeReadAG (r : BitVec 8) :
    (decodeReadAG r).wf = true ∧ encode (decodeReadAG r) = .access (keyAG .read r) 0 := by
  unfold decodeReadAG
  split
  · subst r; exact ⟨rfl, rfl⟩
  split
  · subst r; exact ⟨rfl, rfl⟩
  exact ⟨by simp [Instr.wf, definedGlobal, *], rfl⟩

theorem encode_decodeWriteAG (r : BitVec 8) (v : Word) :
    (decodeWriteAG r v).wf = true ∧ encode (decodeWriteAG r v) = .access (keyAG .write r) v := by
  unfold decodeWriteAG
  split
  · subst r; exact ⟨rfl, rfl⟩
  split
  · subst r; exact ⟨rfl, rfl⟩
  exact ⟨by simp [Instr.wf, definedGlobal, *], rfl⟩

end Sys2Proof
end

