-- ==== Sys2Proof/Laws/Endless.lean ====
section
/-! SUPPORT. A row that never ends: looking at the edges finds the first of its accesses that is refused, so
`Accessor.endlessRefusal` is the refusal that its steps, one by one, run into.
-/

namespace Sys2Proof.Machine

/-! A run of words upward meets a block of bytes first where `wordsBelow` says. -/

/-- Some byte of the word at `addr` is one of the `size` bytes from `base` on, modulo 2^32. -/
def Meets (addr base : Word) (size : Nat) : Prop :=
  ∃ i, i < 4 ∧ (addr + BitVec.ofNat 32 i - base).toNat < size

theorem toNat_ofNat_add_sub (a base : Word) (m i : Nat) :
    (a + BitVec.ofNat 32 m + BitVec.ofNat 32 i - base).toNat =
      (4294967296 - base.toNat + (a.toNat + m + i)) % 4294967296 := by
  have := base.isLt
  simp only [BitVec.toNat_sub, BitVec.toNat_add, BitVec.toNat_ofNat]
  omega

/-- The distance that `wordsBelow` rounds up to words. -/
theorem exists_distance (a base : Word) : ∃ d, d < 4294967296 ∧
    (a.toNat + d + 3) % 4294967296 = base.toNat ∧ wordsBelow a base = (d + 3) / 4 := by
  refine ⟨(base - 3 - a).toNat, BitVec.isLt _, ?_, rfl⟩
  have hA := a.isLt
  have hB := base.isLt
  have h3 : (3 : Word).toNat = 3 := rfl
  simp only [BitVec.toNat_sub, h3]
  omega

/-- A run upward that meets some bytes has met them at its start or at its first word not below them. -/
theorem meets_wordsBelow {a base : Word} {size n : Nat}
    (h : Meets (a + BitVec.ofNat 32 (4 * n)) base size) :
    Meets (a + BitVec.ofNat 32 (4 * 0)) base size ∨
      wordsBelow a base ≤ n ∧ Meets (a + BitVec.ofNat 32 (4 * wordsBelow a base)) base size := by
  obtain ⟨i, hi, h⟩ := h
  obtain ⟨d, hd, hbase, hw⟩ := exists_distance a base
  have hA := a.isLt
  rw [toNat_ofNat_add_sub, ← hbase] at h
  rw [hw]
  by_cases hle : (d + 3) / 4 ≤ n
  · refine .inr ⟨hle, 3 - (4 * ((d + 3) / 4) - d), by omega, ?_⟩
    rw [toNat_ofNat_add_sub, ← hbase]
    omega
  · left
    by_cases hj : d ≤ 4294967293 + i
    · refine ⟨i, hi, ?_⟩
      rw [toNat_ofNat_add_sub, ← hbase]
      omega
    · refine ⟨d - 4294967293, by omega, ?_⟩
      rw [toNat_ofNat_add_sub, ← hbase]
      omega

/-- The same of a word that runs over the top of the address space. -/
theorem overTop_wordsBelow {a : Word} {n : Nat}
    (h : 2 ^ 32 < (a + BitVec.ofNat 32 (4 * n)).toNat + 4) :
    wordsBelow a 0 ≤ n ∧ 2 ^ 32 < (a + BitVec.ofNat 32 (4 * wordsBelow a 0)).toNat + 4 ∨
      2 ^ 32 < (a + BitVec.ofNat 32 (4 * 0)).toNat + 4 := by
  obtain ⟨d, hd, hbase, hw⟩ := exists_distance a 0
  have hA := a.isLt
  have h0 : (0 : Word).toNat = 0 := rfl
  rw [h0] at hbase
  rw [hw]
  simp only [BitVec.toNat_add, BitVec.toNat_ofNat] at *
  omega

/-! The accessor's own tests are of that kind. -/

theorem wordInWindow_iff {base addr : Word} {size : Nat} :
    wordInWindow (some base) size addr = true ↔ Meets addr base size := by
  simp [wordInWindow, Meets]

theorem wordInSpans_iff {spans : List Span} {addr : Word} :
    wordInSpans spans addr = true ↔ ∃ p ∈ spans,
      Meets addr (BitVec.ofNat 32 p.first) (min (p.last + 1) (2 ^ 32) - p.first) := by
  unfold wordInSpans Meets
  rw [List.any_eq_true]
  refine exists_congr fun p => and_congr_right fun _ => ?_
  simp only [List.any_eq_true, List.mem_range, Bool.and_eq_true, decide_eq_true_eq]
  refine exists_congr fun i => and_congr_right fun _ => ?_
  have := (addr + BitVec.ofNat 32 i).isLt
  simp only [BitVec.toNat_sub, BitVec.toNat_ofNat]
  omega

/-- Where an access of a run upward is refused, one no later is refused that is the first of the run or the
first to meet an edge. -/
theorem Accessor.refusalAt_edge {k : Accessor} {d : Dir} {a : Word} {n : Nat}
    (h : k.refusalAt d a n ≠ none) :
    ∃ m, m ≤ n ∧ m ∈ 0 :: (k.edges d).map (wordsBelow a) ∧ k.refusalAt d a m ≠ none := by
  have hiff : ∀ m, k.refusalAt d a m ≠ none ↔
      k.reachesWindow (a + BitVec.ofNat 32 (4 * m)) = true ∨
        k.rejects d (a + BitVec.ofNat 32 (4 * m)) = true := by
    intro m
    unfold Accessor.refusalAt Accessor.refusal
    cases k.reachesWindow _ <;> cases k.rejects d _ <;> simp
  have key : ∀ (base : Word) (size : Nat), base ∈ k.edges d →
      (∀ x, Meets x base size → k.reachesWindow x = true ∨ k.rejects d x = true) →
      Meets (a + BitVec.ofNat 32 (4 * n)) base size →
      ∃ m, m ≤ n ∧ m ∈ 0 :: (k.edges d).map (wordsBelow a) ∧ k.refusalAt d a m ≠ none := by
    intro base size hmem himp hn
    rcases meets_wordsBelow hn with h0 | ⟨hle, hw⟩
    · exact ⟨0, Nat.zero_le n, List.mem_cons_self, (hiff 0).2 (himp _ h0)⟩
    · exact ⟨_, hle, List.mem_cons_of_mem _ (List.mem_map_of_mem hmem), (hiff _).2 (himp _ hw)⟩
  rcases (hiff n).1 h with h | h
  · unfold Accessor.reachesWindow at h
    rw [Bool.or_eq_true] at h
    rcases h with h | h
    · cases hb : k.windowA with
      | none => rw [hb] at h; cases h
      | some base =>
        refine key base Config.sizeA (by simp [Accessor.edges, hb]) (fun x hx => .inl ?_)
          (wordInWindow_iff.1 (by rwa [hb] at h))
        unfold Accessor.reachesWindow
        rw [hb, wordInWindow_iff.2 hx, Bool.true_or]
    · cases hb : k.windowB with
      | none => rw [hb] at h; cases h
      | some base =>
        refine key base Config.sizeB (by simp [Accessor.edges, hb]) (fun x hx => .inl ?_)
          (wordInWindow_iff.1 (by rwa [hb] at h))
        unfold Accessor.reachesWindow
        rw [hb, wordInWindow_iff.2 hx, Bool.or_true]
  · unfold Accessor.rejects at h
    simp only [Bool.or_eq_true, Bool.and_eq_true, Bool.not_eq_true', bne_iff_ne, ne_eq,
      decide_eq_true_eq] at h
    rcases h with (⟨hk, h⟩ | ⟨hk, h⟩) | h
    · refine ⟨0, Nat.zero_le n, List.mem_cons_self, (hiff 0).2 (.inr ?_)⟩
      unfold Accessor.rejects
      have h0 : (a + BitVec.ofNat 32 (4 * 0)).toNat % 4 ≠ 0 := by
        simp only [BitVec.toNat_add, BitVec.toNat_ofNat] at *
        omega
      rw [hk, bne_iff_ne.2 h0]
      simp
    · have himp : ∀ m, 2 ^ 32 < (a + BitVec.ofNat 32 (4 * m)).toNat + 4 →
          k.refusalAt d a m ≠ none := by
        intro m hm
        refine (hiff m).2 (.inr ?_)
        unfold Accessor.rejects
        rw [hk, decide_eq_true hm]
        simp
      rcases overTop_wordsBelow h with ⟨hle, hw⟩ | h0
      · exact ⟨_, hle, List.mem_cons_of_mem _ (List.mem_map_of_mem (by simp [Accessor.edges])),
          himp _ hw⟩
      · exact ⟨0, Nat.zero_le n, List.mem_cons_self, himp 0 h0⟩
    · obtain ⟨p, hp, hm⟩ := wordInSpans_iff.1 h
      refine key _ _ ?_ (fun x hx => .inr ?_) hm
      · simp only [Accessor.edges, List.mem_cons, List.mem_append, List.mem_map]
        exact .inr (.inr ⟨p, hp, rfl⟩)
      · unfold Accessor.rejects
        rw [wordInSpans_iff.2 ⟨p, hp, hx⟩, Bool.or_true]

/-! The first access refused. -/

/-- The address of access number `n` of a cursor that starts at `a` and moves up or stands still. -/
def cursorAt (up : Bool) (a : Word) (n : Nat) : Word :=
  a + if up then BitVec.ofNat 32 (4 * n) else 0

/-- Everything `Accessor.firstRefused` can say: no access is refused, or the one it numbers is the first. -/
theorem Accessor.firstRefused_cases (k : Accessor) (d : Dir) (up : Bool) (a : Word) :
    (k.firstRefused d up a = none ∧ ∀ n, k.refusal d (cursorAt up a n) = none) ∨
    ∃ n, k.firstRefused d up a = some n ∧ k.refusal d (cursorAt up a n) = k.refusalAt d a n ∧
      k.refusalAt d a n ≠ none ∧ ∀ m, m < n → k.refusal d (cursorAt up a m) = none := by
  obtain ⟨l, hl⟩ : ∃ l, l = (0 :: if up then (k.edges d).map (wordsBelow a) else []).filter
    (fun n => (k.refusalAt d a n).isSome) := ⟨_, rfl⟩
  have hf : k.firstRefused d up a = l.min? := by rw [hl]; rfl
  have hmem : ∀ {n}, n ∈ l ↔ n ∈ (0 :: if up then (k.edges d).map (wordsBelow a) else []) ∧
      k.refusalAt d a n ≠ none := by
    intro n
    rw [hl, List.mem_filter, Option.isSome_iff_ne_none]
  have hex : ∀ {n}, k.refusal d (cursorAt up a n) ≠ none → ∃ m, m ≤ n ∧ m ∈ l := by
    intro n hn
    cases up with
    | false =>
      refine ⟨0, Nat.zero_le n, hmem.2 ⟨List.mem_cons_self, ?_⟩⟩
      simpa [cursorAt, Accessor.refusalAt] using hn
    | true =>
      obtain ⟨m, hle, hm, hr⟩ := Accessor.refusalAt_edge (k := k) (d := d) (a := a) (n := n) hn
      exact ⟨m, hle, hmem.2 ⟨hm, hr⟩⟩
  cases hmin : l.min? with
  | none =>
    rw [List.min?_eq_none_iff] at hmin
    refine .inl ⟨by rw [hf, hmin]; rfl, fun n => ?_⟩
    by_contra hn
    obtain ⟨m, -, hm⟩ := hex hn
    rw [hmin] at hm
    cases hm
  | some n =>
    obtain ⟨hn, hle⟩ := List.min?_eq_some_iff.1 hmin
    obtain ⟨hc, hr⟩ := hmem.1 hn
    refine .inr ⟨n, by rw [hf, hmin], ?_, hr, fun m hm => ?_⟩
    · cases up with
      | true => rfl
      | false =>
        have : n = 0 := by simpa using hc
        rw [this]
        simp [cursorAt, Accessor.refusalAt]
    · by_contra hne
      obtain ⟨j, hj, hjl⟩ := hex hne
      have := hle j hjl
      omega

/-! The steps of a row, one by one. -/

theorem Copied.steps_succ (ti : Word) (n : Nat) (q : Copied) :
    q.steps ti (n + 1) = (q.steps ti n).step ti := by
  induction n generalizing q with
  | zero => rfl
  | succ n ih => rw [Copied.steps, ih]; rfl

theorem Copied.stepsPort_succ (ti : Word) (n : Nat) (q : Copied) :
    q.stepsPort ti (n + 1) = (q.steps ti n).port ti ++ q.stepsPort ti n := by
  induction n generalizing q with
  | zero => simp [Copied.stepsPort, Copied.steps]
  | succ n ih => rw [Copied.stepsPort, ih, List.append_assoc]; rfl

theorem cursorAt_succ (up : Bool) (a : Word) (n : Nat) :
    cursorAt up a (n + 1) = if up then cursorAt up a n + 4 else cursorAt up a n := by
  cases up
  · rfl
  · simp only [cursorAt, if_true]
    rw [Nat.mul_add, BitVec.ofNat_add, BitVec.add_assoc]
    rfl

/-- Where the cursors stand after `n` steps (R166, R167). -/
theorem Copied.steps_cursors (ti : Word) (n : Nat) (q : Copied) :
    (q.steps ti n).src = cursorAt (sourceIncrement ti) q.src n ∧
      (q.steps ti n).dst = cursorAt (destIncrement ti) q.dst n := by
  induction n with
  | zero => constructor <;> simp [Copied.steps, cursorAt]
  | succ n ih =>
    rw [Copied.steps_succ, cursorAt_succ, cursorAt_succ, ← ih.1, ← ih.2]
    exact ⟨rfl, rfl⟩

theorem Accessor.firstRefusal_append (k : Accessor) (l older : List MemAccess) :
    k.firstRefusal (l ++ older) = (k.firstRefusal older).or (k.firstRefusal l) := by
  induction l with
  | nil => simp [Accessor.firstRefusal]
  | cons x l ih => simp only [List.cons_append, Accessor.firstRefusal, ih, Option.or_assoc]

/-- Why step `n` of a row from the cursors `src` and `dst` is refused, if it is: its read, else its write. -/
def Accessor.stepRefusal (k : Accessor) (ti src dst : Word) (n : Nat) : Option Refusal :=
  (if sourceIgnore ti then none else k.refusal .read (cursorAt (sourceIncrement ti) src n)).or
    (if destIgnore ti then none else k.refusal .write (cursorAt (destIncrement ti) dst n))

theorem Accessor.firstRefusal_stepsPort_succ (k : Accessor) (ti : Word) (n : Nat) (q : Copied) :
    k.firstRefusal (q.stepsPort ti (n + 1)) =
      (k.firstRefusal (q.stepsPort ti n)).or (k.stepRefusal ti q.src q.dst n) := by
  rw [Copied.stepsPort_succ, Accessor.firstRefusal_append]
  congr 1
  obtain ⟨hs, hd⟩ := Copied.steps_cursors ti n q
  unfold Copied.port Accessor.stepRefusal
  rw [← hs, ← hd]
  by_cases h1 : sourceIgnore ti <;> by_cases h2 : destIgnore ti <;>
    simp [h1, h2, Accessor.firstRefusal, MemAccess.dir, MemAccess.addr]

theorem Accessor.firstRefusal_stepsPort_eq_none {k : Accessor} {ti : Word} {q : Copied} {n : Nat}
    (h : ∀ i, i < n → k.stepRefusal ti q.src q.dst i = none) :
    k.firstRefusal (q.stepsPort ti n) = none := by
  induction n with
  | zero => rfl
  | succ n ih =>
    rw [Accessor.firstRefusal_stepsPort_succ, ih fun i hi => h i (by omega), h n (by omega)]
    rfl

/-- What more steps run into first, fewer that are refused ran into. -/
theorem Accessor.firstRefusal_stepsPort_mono {k : Accessor} {ti : Word} {q : Copied} {n m : Nat}
    {r : Refusal} (h : k.firstRefusal (q.stepsPort ti n) = some r) (hnm : n ≤ m) :
    k.firstRefusal (q.stepsPort ti m) = some r := by
  induction m with
  | zero => rwa [show n = 0 by omega] at h
  | succ m ih =>
    by_cases he : n = m + 1
    · rwa [he] at h
    · rw [Accessor.firstRefusal_stepsPort_succ, ih (by omega)]
      rfl

/-- Everything `Accessor.endlessRefusal` can say of a row that never ends: it is what the steps of the row run
into, be it never (R51, D12). -/
theorem Accessor.endlessRefusal_cases (k : Accessor) (ti : Word) (q : Copied) :
    (k.endlessRefusal ti q.src q.dst = none ∧ ∀ n, k.firstRefusal (q.stepsPort ti n) = none) ∨
    ∃ r n, k.endlessRefusal ti q.src q.dst = some r ∧
      k.firstRefusal (q.stepsPort ti n) = some r := by
  have side : ∀ (d : Dir) (off up : Bool) (a : Word),
      ((if off then none else k.firstRefused d up a) = none ∧
        ∀ n, (if off then none else k.refusal d (cursorAt up a n)) = none) ∨
      ∃ n r, (if off then none else k.firstRefused d up a) = some n ∧
        k.refusalAt d a n = some r ∧
        (if off then none else k.refusal d (cursorAt up a n)) = some r ∧
        ∀ m, m < n → (if off then none else k.refusal d (cursorAt up a m)) = none := by
    intro d off up a
    cases off
    · rcases k.firstRefused_cases d up a with ⟨h1, h2⟩ | ⟨n, h1, h2, h3, h4⟩
      · exact .inl ⟨h1, h2⟩
      · obtain ⟨r, hr⟩ := Option.ne_none_iff_exists'.1 h3
        exact .inr ⟨n, r, h1, hr, h2.trans hr, h4⟩
    · exact .inl ⟨rfl, fun _ => rfl⟩
  have found : ∀ {n r}, k.stepRefusal ti q.src q.dst n = some r →
      (∀ i, i < n → k.stepRefusal ti q.src q.dst i = none) →
      k.firstRefusal (q.stepsPort ti (n + 1)) = some r := by
    intro n r hn hi
    rw [Accessor.firstRefusal_stepsPort_succ, Accessor.firstRefusal_stepsPort_eq_none hi, hn]
    rfl
  unfold Accessor.endlessRefusal
  rcases side .read (sourceIgnore ti) (sourceIncrement ti) q.src with
    ⟨hr, hrn⟩ | ⟨n, r, hr, hra, hrs, hrn⟩ <;>
  rcases side .write (destIgnore ti) (destIncrement ti) q.dst with
    ⟨hw, hwn⟩ | ⟨m, w, hw, hwa, hws, hwn⟩ <;>
  simp only [hr, hw]
  · exact .inl ⟨trivial, fun n => Accessor.firstRefusal_stepsPort_eq_none fun i _ => by
      rw [Accessor.stepRefusal, hrn, hwn]; rfl⟩
  · exact .inr ⟨w, m + 1, hwa, found (by rw [Accessor.stepRefusal, hrn, hws]; rfl)
      fun i hi => by rw [Accessor.stepRefusal, hrn, hwn i hi]; rfl⟩
  · exact .inr ⟨r, n + 1, hra, found (by rw [Accessor.stepRefusal, hrs]; rfl)
      fun i hi => by rw [Accessor.stepRefusal, hrn i hi, hwn]; rfl⟩
  · by_cases hnm : n ≤ m
    · rw [if_pos hnm]
      exact .inr ⟨r, n + 1, hra, found (by rw [Accessor.stepRefusal, hrs]; rfl)
        fun i hi => by rw [Accessor.stepRefusal, hrn i hi, hwn i (by omega)]; rfl⟩
    · rw [if_neg hnm]
      exact .inr ⟨w, m + 1, hwa, found (by rw [Accessor.stepRefusal, hrn m (by omega), hws]; rfl)
        fun i hi => by rw [Accessor.stepRefusal, hrn i (by omega), hwn i hi]; rfl⟩

end Sys2Proof.Machine
end

