-- ==== Sys2Proof/Laws/Exec.lean ====
section
/-! SUPPORT. What one access can do, said once: the decoding of an issued key, the two cases of `WR.CS`, and
the inversion of `exec` and of the step.
-/

namespace Sys2Proof.Machine

/-- The access that carries a key decodes as the key. -/
theorem decodeAccess_accessOfKey (key : BitVec 14) (v : Word) :
    decodeAccess (accessOfKey key v) = decode (.access key v) := by
  unfold decodeAccess accessOfKey
  simp only [if_true]
  congr 2
  rw [key_offset]
  exact (key_eq_accessKey key).symm

/-! `WR.CS`. -/

theorem exec_csWrite {i : Instr} {c : ChannelId} {v : Word} (h : i.IsCsWrite c v) (s : State) :
    exec i s = writeCs c v s := by
  rcases h with ⟨c', rfl, rfl⟩ | ⟨rfl, rfl⟩ <;> rfl

/-- ACTIVE after the five steps is the written bit (R145). -/
theorem csSteps_active (c : ChannelId) (v : Word) (s : State) :
    (csSteps c v s).active c = v.getLsbD Config.csActive := by
  unfold State.active
  rw [csSteps_cs c v s _ (by decide)]
  unfold csBit
  rw [if_pos (by decide)]

/-- The steps change neither the eligibility of the channel nor the block it points at. -/
theorem csSteps_eligible (c : ChannelId) (v : Word) (s : State) :
    (csSteps c v s).eligible c = s.eligible c := by
  unfold State.eligible State.idle
  rw [csSteps_ch c v s, (unchangedOutside_csSteps c v s).2.1]

theorem csSteps_currentBlock (c : ChannelId) (v : Word) (s : State) :
    (csSteps c v s).currentBlock c = s.currentBlock c := by
  unfold State.currentBlock
  rw [csSteps_ch c v s, csSteps_mem]

/-- A write that raises ACTIVE runs the engine after its steps (R146). -/
theorem writeCs_start {c : ChannelId} {v : Word} {s : State} (h : v.getLsbD Config.csActive = true)
    (hs : s.active c = false) : writeCs c v s = engine c (csSteps c v s.begin) := by
  unfold writeCs
  simp only [hs, csSteps_active, h]
  rfl

/-- Any other takes its steps only (R146). -/
theorem writeCs_noStart {c : ChannelId} {v : Word} {s : State}
    (h : v.getLsbD Config.csActive = false ∨ s.active c = true) :
    writeCs c v s = .next (csSteps c v s.begin) := by
  unfold writeCs
  simp only [csSteps_active]
  rcases h with h | h <;> simp [h]

/-- Everything a CS write that completes can have done. -/
theorem writeCs_cases {c : ChannelId} {v : Word} {s t : State} (h : writeCs c v s = .next t) :
    t = csSteps c v s.begin ∨
      (v.getLsbD Config.csActive = true ∧ s.active c = false ∧
        engine c (csSteps c v s.begin) = .next t) := by
  by_cases hv : v.getLsbD Config.csActive = false ∨ s.active c = true
  · rw [writeCs_noStart hv] at h
    cases h
    exact .inl rfl
  · rw [not_or, Bool.not_eq_false, Bool.not_eq_true] at hv
    rw [writeCs_start hv.1 hv.2] at h
    exact .inr ⟨hv.1, hv.2, h⟩

theorem unchangedOutside_writeCs {c : ChannelId} {v : Word} {s t : State}
    (h : writeCs c v s = .next t) : UnchangedOutside c s t := by
  rcases writeCs_cases h with rfl | ⟨-, -, h⟩
  · exact unchangedOutside_csSteps c v s.begin
  · exact (unchangedOutside_csSteps c v s.begin).trans (unchangedOutside_engine h)

/-! Any instruction. -/

/-- Everything an instruction that completes can have done: nothing but its outputs, `ENABLE` written,
CONBLK_AD or DEBUG of its channel written, a CS write, or a pass over a control block. -/
theorem exec_cases {i : Instr} {s t : State} (h : exec i s = .next t) :
    (t.ctl = s.ctl ∧ t.mem = s.mem ∧ t.inbox = s.inbox ∧ t.draws = s.draws ∧ t.out.traffic = []) ∨
    (∃ v, i = .wrEnable v ∧ t = s.begin.setEnable (v.extractLsb' 0 16)) ∨
    (∃ c v, i.channel = some c ∧ t = s.begin.setCh c { s.ch c with conblkAd := v }) ∨
    (∃ c v, ((∃ c', i = .wrDebugAC c' v ∧ c = slotA c') ∨ (i = .wrDebugBC v ∧ c = 15)) ∧
      i.channel = some c ∧ t = s.begin.setCh c { s.ch c with debug := v }) ∨
    (∃ c v, i.IsCsWrite c v ∧ i.channel = some c ∧ writeCs c v s = .next t) ∨
    (∃ c b, (i = .cbLinear c b ∨ i = .cb2D c b) ∧ i.channel = some c ∧
      ∃ g, runBlock g c b s = .next t) := by
  cases i
  case wrEnable v => right; left; cases h; exact ⟨v, rfl, rfl⟩
  case wrConblkAdAC c v => right; right; left; cases h; exact ⟨_, v, rfl, rfl⟩
  case wrConblkAdBC v => right; right; left; cases h; exact ⟨_, v, rfl, rfl⟩
  case wrDebugAC c v => right; right; right; left; cases h; exact ⟨_, v, .inl ⟨c, rfl, rfl⟩, rfl, rfl⟩
  case wrDebugBC v => right; right; right; left; cases h; exact ⟨_, v, .inr ⟨rfl, rfl⟩, rfl, rfl⟩
  case wrCsAC c v => right; right; right; right; left; exact ⟨_, v, .inl ⟨c, rfl, rfl⟩, rfl, h⟩
  case wrCsBC v => right; right; right; right; left; exact ⟨_, v, .inr ⟨rfl, rfl⟩, rfl, h⟩
  case cbLinear c b =>
    right; right; right; right; right; exact ⟨c, b, .inl rfl, rfl, _, h⟩
  case cb2D c b =>
    right; right; right; right; right; exact ⟨c, b, .inr rfl, rfl, _, h⟩
  all_goals left; cases h; exact ⟨rfl, rfl, rfl, rfl, rfl⟩

/-- An access that completes was decoded, and its operation completed. -/
theorem runAccess_cases {a : Access} {s t : State} (h : runAccess a s = .next t) :
    ∃ i, decodeAccess a = .ok i ∧ exec i s = .next t := by
  unfold runAccess at h
  cases hd : decodeAccess a <;> rw [hd] at h
  · cases h
  · exact ⟨_, rfl, h⟩

/-- Everything a step that completes can have done. -/
theorem step_cases {s t : State} (h : step s = .next t) :
    (s.inbox = [] ∧ t = s) ∨
    (∃ a rest i, s.inbox = .access a :: rest ∧ decodeAccess a = .ok i ∧
      exec i { s with inbox := rest } = .next t) ∨
    (∃ a v rest, s.inbox = .store a v :: rest ∧ t = storeByte a v { s with inbox := rest }) ∨
    (∃ rest, s.inbox = .reset :: rest ∧ t = resetController { s with inbox := rest }) := by
  unfold step runNext at h
  cases hi : s.inbox with
  | nil => rw [hi] at h; cases h; exact .inl ⟨rfl, rfl⟩
  | cons e rest =>
    rw [hi] at h
    cases e with
    | access a =>
      obtain ⟨i, hd, h⟩ := runAccess_cases (show runAccess a _ = _ from h)
      exact .inr (.inl ⟨a, rest, i, rfl, hd, h⟩)
    | store a v => cases h; exact .inr (.inr (.inl ⟨a, v, rest, rfl, rfl⟩))
    | reset => cases h; exact .inr (.inr (.inr ⟨rest, rfl, rfl⟩))

/-- A run whose first step completes goes on from there. -/
theorem run_succ (M : Host.Core) (k : Nat) (s t : M.State) (h : M.step s = .next t) :
    M.run (k + 1) s = M.run k t := by
  rw [Host.Core.run, h]

end Sys2Proof.Machine
end

