-- ==== Sys2Proof/Laws/PerInstr.lean ====
section
/-! SUPPORT. The family `DecodeEncode`: one lemma per constructor of `Instr`, the decoding of its encoding.
-/

namespace Sys2Proof.Laws.DecodeEncode

/-- Decoding the encoding of a well-formed instruction gives it back. -/
def Statement (i : Instr) : Prop := i.wf = true → decode (encode i) = .ok i

theorem rdIntStatus : Statement .rdIntStatus := fun _ =>
  rfl

theorem wrIntStatus (v : Word) : Statement (.wrIntStatus v) := fun _ =>
  rfl

theorem rdEnable : Statement .rdEnable := fun _ =>
  rfl

theorem wrEnable (v : Word) : Statement (.wrEnable v) := fun _ =>
  rfl

theorem rdInvalidAG (r : BitVec 8) : Statement (.rdInvalidAG r) := fun h => by
  rw [encode, decode, decodeKey_keyAG]
  simp_all [Instr.wf, definedGlobal, decodeReadAG]

theorem wrInvalidAG (r : BitVec 8) (v : Word) : Statement (.wrInvalidAG r v) := fun h => by
  rw [encode, decode, decodeKey_keyAG]
  simp_all [Instr.wf, definedGlobal, decodeWriteAG]

theorem rdCsAC (c : Fin 15) : Statement (.rdCsAC c) := fun _ =>
  decodeKey_keyAC _ c _ _

theorem rdCsBC : Statement .rdCsBC := fun _ =>
  rfl

theorem wrCsAC (c : Fin 15) (v : Word) : Statement (.wrCsAC c v) := fun _ =>
  decodeKey_keyAC _ c _ _

theorem wrCsBC (v : Word) : Statement (.wrCsBC v) := fun _ =>
  rfl

theorem rdConblkAdAC (c : Fin 15) : Statement (.rdConblkAdAC c) := fun _ =>
  decodeKey_keyAC _ c _ _

theorem rdConblkAdBC : Statement .rdConblkAdBC := fun _ =>
  rfl

theorem wrConblkAdAC (c : Fin 15) (v : Word) : Statement (.wrConblkAdAC c v) := fun _ =>
  decodeKey_keyAC _ c _ _

theorem wrConblkAdBC (v : Word) : Statement (.wrConblkAdBC v) := fun _ =>
  rfl

theorem rdTiAC (c : Fin 15) : Statement (.rdTiAC c) := fun _ =>
  decodeKey_keyAC _ c _ _

theorem rdTiBC : Statement .rdTiBC := fun _ =>
  rfl

theorem wrTiAC (c : Fin 15) (v : Word) : Statement (.wrTiAC c v) := fun _ =>
  decodeKey_keyAC _ c _ _

theorem wrTiBC (v : Word) : Statement (.wrTiBC v) := fun _ =>
  rfl

theorem rdSourceAdAC (c : Fin 15) : Statement (.rdSourceAdAC c) := fun _ =>
  decodeKey_keyAC _ c _ _

theorem rdSourceAdBC : Statement .rdSourceAdBC := fun _ =>
  rfl

theorem wrSourceAdAC (c : Fin 15) (v : Word) : Statement (.wrSourceAdAC c v) := fun _ =>
  decodeKey_keyAC _ c _ _

theorem wrSourceAdBC (v : Word) : Statement (.wrSourceAdBC v) := fun _ =>
  rfl

theorem rdDestAdAC (c : Fin 15) : Statement (.rdDestAdAC c) := fun _ =>
  decodeKey_keyAC _ c _ _

theorem rdDestAdBC : Statement .rdDestAdBC := fun _ =>
  rfl

theorem wrDestAdAC (c : Fin 15) (v : Word) : Statement (.wrDestAdAC c v) := fun _ =>
  decodeKey_keyAC _ c _ _

theorem wrDestAdBC (v : Word) : Statement (.wrDestAdBC v) := fun _ =>
  rfl

theorem rdTxfrLenAC (c : Fin 15) : Statement (.rdTxfrLenAC c) := fun _ =>
  decodeKey_keyAC _ c _ _

theorem rdTxfrLenBC : Statement .rdTxfrLenBC := fun _ =>
  rfl

theorem wrTxfrLenAC (c : Fin 15) (v : Word) : Statement (.wrTxfrLenAC c v) := fun _ =>
  decodeKey_keyAC _ c _ _

theorem wrTxfrLenBC (v : Word) : Statement (.wrTxfrLenBC v) := fun _ =>
  rfl

theorem rdStrideAC (c : Fin 15) : Statement (.rdStrideAC c) := fun _ =>
  decodeKey_keyAC _ c _ _

theorem rdStrideBC : Statement .rdStrideBC := fun _ =>
  rfl

theorem wrStrideAC (c : Fin 15) (v : Word) : Statement (.wrStrideAC c v) := fun _ =>
  decodeKey_keyAC _ c _ _

theorem wrStrideBC (v : Word) : Statement (.wrStrideBC v) := fun _ =>
  rfl

theorem rdNextconbkAC (c : Fin 15) : Statement (.rdNextconbkAC c) := fun _ =>
  decodeKey_keyAC _ c _ _

theorem rdNextconbkBC : Statement .rdNextconbkBC := fun _ =>
  rfl

theorem wrNextconbkAC (c : Fin 15) (v : Word) : Statement (.wrNextconbkAC c v) := fun _ =>
  decodeKey_keyAC _ c _ _

theorem wrNextconbkBC (v : Word) : Statement (.wrNextconbkBC v) := fun _ =>
  rfl

theorem rdDebugAC (c : Fin 15) : Statement (.rdDebugAC c) := fun _ =>
  decodeKey_keyAC _ c _ _

theorem rdDebugBC : Statement .rdDebugBC := fun _ =>
  rfl

theorem wrDebugAC (c : Fin 15) (v : Word) : Statement (.wrDebugAC c v) := fun _ =>
  decodeKey_keyAC _ c _ _

theorem wrDebugBC (v : Word) : Statement (.wrDebugBC v) := fun _ =>
  rfl

theorem rdInvalidANY (c : ChannelId) (r : BitVec 8) : Statement (.rdInvalidANY c r) := fun h =>
  decodeKey_keyOfSlot_read (by simpa [Instr.wf] using h) c 0

theorem wrInvalidANY (c : ChannelId) (r : BitVec 8) (v : Word) : Statement (.wrInvalidANY c r v) := fun h =>
  decodeKey_keyOfSlot_write (by simpa [Instr.wf] using h) c v

theorem cbLinear (c : ChannelId) (b : Block) : Statement (.cbLinear c b) := fun h => by
  simp_all [Instr.wf, encode, decode, decodeBlock]

theorem cb2D (c : ChannelId) (b : Block) : Statement (.cb2D c b) := fun h => by
  simp_all [Instr.wf, encode, decode, decodeBlock]

end Sys2Proof.Laws.DecodeEncode
end

