-- ==== Sys2Proof/Tests/Slice0.lean ====
section
/-! SUPPORT. The model's own tests. Expected values are those of spec/95_test_vectors.md (X, V, S, E, P) or
written out from the encoding tables of spec/30_encoding.md; nothing is pasted from the model. The
`witness_` theorems show states and operands that meet the hypotheses of the obligation they name.
-/

open Sys2Proof Sys2Proof.Machine

/-- The outcome is a next state with property `p`. -/
def testAfter (r : Host.Outcome State Fault Refusal) (p : State → Bool) : Bool :=
  match r with
  | .next t => p t
  | _ => false

theorem testAfter_next {r : Host.Outcome State Fault Refusal} {p : State → Bool}
    (h : testAfter r p = true) : ∃ t, r = .next t ∧ p t = true := by
  cases r with
  | next t => exact ⟨t, rfl, h⟩
  | fault _ => cases h
  | refused _ => cases h

/-- Reset, with a word at an address. -/
def testWord (a v : Word) (s : State) : State := { s with mem := s.mem.writeWord a v }

/-- Reset, with a control block at 0x100 that channel `c` points at (95_test_vectors 2.3). -/
def testReady (c : ChannelId) (b : Block) : State :=
  let s := { State.reset with mem := State.reset.mem.writeBlock 0x100#32 b }
  s.setCh c { s.ch c with conblkAd := 0x100 }

/-- The same state behind another accessor. -/
def testBehind (k : Accessor) (s : State) : State := { s with mem := { s.mem with accessor := k } }

/-- Every register of channels 3 and 15 different. -/
def testRegs : State :=
  (State.reset.setCh 3 ⟨0x30, 0x31, 0x32, 0x33, 0x34, 0x35, 0x36, 0x37, 0x38, false⟩).setCh 15
    ⟨0xF0, 0xF1, 0xF2, 0xF3, 0xF4, 0xF5, 0xF6, 0xF7, 0xF8, false⟩

/-- A channel with END and INT set, its bitmap bit and its line (95_test_vectors 2.2). -/
def testPending (c : ChannelId) (cs : Word) : State :=
  (State.reset.setCh c { State.reset.ch c with cs := cs, irq := true }).setIntStatus
    (Bitmap.setFor 0 c)

/-! Ill-formed terms are refused, one for each check of WellFormed. -/

theorem test_wf_rdInvalidAG_global : (Instr.rdInvalidAG 0xE0#8).wf = false := by decide
theorem test_wf_wrInvalidAG_global : (Instr.wrInvalidAG 0xF0#8 1).wf = false := by decide
theorem test_wf_rdInvalidANY_register : (Instr.rdInvalidANY 4 0x20#8).wf = false := by decide
theorem test_wf_wrInvalidANY_register : (Instr.wrInvalidANY 15 0x00#8 1).wf = false := by decide
theorem test_wf_cbLinear_tdmode : (Instr.cbLinear 0 ⟨2, 0, 0, 0, 0, 0⟩).wf = false := by decide
theorem test_wf_cb2D_linear : (Instr.cb2D 0 ⟨1, 0, 0, 0, 0, 0⟩).wf = false := by decide

/-! Every constructor's decoding, from a key written out by R60 (`w`, `d`, four bits of channel, eight of
register) or a flag word of R71, with the data of the access. -/

theorem test_decode_rdIntStatus : decode (.access 0b0_0_1111_11100000#14 0) = .ok .rdIntStatus := by decide
theorem test_decode_wrIntStatus : decode (.access 0b0_1_1111_11100000#14 0xFFFF) = .ok (.wrIntStatus 0xFFFF) := by decide
theorem test_decode_rdEnable : decode (.access 0b0_0_1111_11110000#14 0) = .ok .rdEnable := by decide
theorem test_decode_wrEnable : decode (.access 0b0_1_1111_11110000#14 0x12345678) = .ok (.wrEnable 0x12345678) := by decide
theorem test_decode_rdInvalidAG : decode (.access 0b0_0_1111_11100100#14 0) = .ok (.rdInvalidAG 0xE4#8) := by decide
theorem test_decode_wrInvalidAG : decode (.access 0b0_1_1111_11110010#14 1) = .ok (.wrInvalidAG 0xF2#8 1) := by decide
theorem test_decode_rdInvalidANY : decode (.access 0b0_0_0000_00000001#14 0) = .ok (.rdInvalidANY 0 0x01#8) := by decide
theorem test_decode_rdInvalidANY_windowB : decode (.access 0b1_0_0000_11100000#14 0) = .ok (.rdInvalidANY 15 0xE0#8) := by decide
theorem test_decode_wrInvalidANY : decode (.access 0b0_1_0000_00100100#14 0x1234) = .ok (.wrInvalidANY 0 0x24#8 0x1234) := by decide
theorem test_decode_rdCsAC : decode (.access 0b0_0_1110_00000000#14 0) = .ok (.rdCsAC 14) := by decide
theorem test_decode_wrCsAC : decode (.access 0b0_1_1110_00000000#14 0xA5) = .ok (.wrCsAC 14 0xA5) := by decide
theorem test_decode_rdCsBC : decode (.access 0b1_0_0000_00000000#14 0) = .ok .rdCsBC := by decide
theorem test_decode_wrCsBC : decode (.access 0b1_1_0000_00000000#14 0x5A) = .ok (.wrCsBC 0x5A) := by decide
theorem test_decode_rdConblkAdAC : decode (.access 0b0_0_0101_00000100#14 0) = .ok (.rdConblkAdAC 5) := by decide
theorem test_decode_wrConblkAdAC : decode (.access 0b0_1_0101_00000100#14 0xA5) = .ok (.wrConblkAdAC 5 0xA5) := by decide
theorem test_decode_rdConblkAdBC : decode (.access 0b1_0_0000_00000100#14 0) = .ok .rdConblkAdBC := by decide
theorem test_decode_wrConblkAdBC : decode (.access 0b1_1_0000_00000100#14 0x5A) = .ok (.wrConblkAdBC 0x5A) := by decide
theorem test_decode_rdTiAC : decode (.access 0b0_0_0101_00001000#14 0) = .ok (.rdTiAC 5) := by decide
theorem test_decode_wrTiAC : decode (.access 0b0_1_0101_00001000#14 0xA5) = .ok (.wrTiAC 5 0xA5) := by decide
theorem test_decode_rdTiBC : decode (.access 0b1_0_0000_00001000#14 0) = .ok .rdTiBC := by decide
theorem test_decode_wrTiBC : decode (.access 0b1_1_0000_00001000#14 0x5A) = .ok (.wrTiBC 0x5A) := by decide
theorem test_decode_rdSourceAdAC : decode (.access 0b0_0_1001_00001100#14 0) = .ok (.rdSourceAdAC 9) := by decide
theorem test_decode_wrSourceAdAC : decode (.access 0b0_1_1001_00001100#14 0xA5) = .ok (.wrSourceAdAC 9 0xA5) := by decide
theorem test_decode_rdSourceAdBC : decode (.access 0b1_0_0000_00001100#14 0) = .ok .rdSourceAdBC := by decide
theorem test_decode_wrSourceAdBC : decode (.access 0b1_1_0000_00001100#14 0x5A) = .ok (.wrSourceAdBC 0x5A) := by decide
theorem test_decode_rdDestAdAC : decode (.access 0b0_0_1010_00010000#14 0) = .ok (.rdDestAdAC 10) := by decide
theorem test_decode_wrDestAdAC : decode (.access 0b0_1_1010_00010000#14 0xA5) = .ok (.wrDestAdAC 10 0xA5) := by decide
theorem test_decode_rdDestAdBC : decode (.access 0b1_0_0000_00010000#14 0) = .ok .rdDestAdBC := by decide
theorem test_decode_wrDestAdBC : decode (.access 0b1_1_0000_00010000#14 0x5A) = .ok (.wrDestAdBC 0x5A) := by decide
theorem test_decode_rdTxfrLenAC : decode (.access 0b0_0_0001_00010100#14 0) = .ok (.rdTxfrLenAC 1) := by decide
theorem test_decode_wrTxfrLenAC : decode (.access 0b0_1_0001_00010100#14 0xA5) = .ok (.wrTxfrLenAC 1 0xA5) := by decide
theorem test_decode_rdTxfrLenBC : decode (.access 0b1_0_0000_00010100#14 0) = .ok .rdTxfrLenBC := by decide
theorem test_decode_wrTxfrLenBC : decode (.access 0b1_1_0000_00010100#14 0x5A) = .ok (.wrTxfrLenBC 0x5A) := by decide
theorem test_decode_rdStrideAC : decode (.access 0b0_0_0010_00011000#14 0) = .ok (.rdStrideAC 2) := by decide
theorem test_decode_wrStrideAC : decode (.access 0b0_1_0010_00011000#14 0xA5) = .ok (.wrStrideAC 2 0xA5) := by decide
theorem test_decode_rdStrideBC : decode (.access 0b1_0_0000_00011000#14 0) = .ok .rdStrideBC := by decide
theorem test_decode_wrStrideBC : decode (.access 0b1_1_0000_00011000#14 0x5A) = .ok (.wrStrideBC 0x5A) := by decide
theorem test_decode_rdNextconbkAC : decode (.access 0b0_0_0111_00011100#14 0) = .ok (.rdNextconbkAC 7) := by decide
theorem test_decode_wrNextconbkAC : decode (.access 0b0_1_0111_00011100#14 0xA5) = .ok (.wrNextconbkAC 7 0xA5) := by decide
theorem test_decode_rdNextconbkBC : decode (.access 0b1_0_0000_00011100#14 0) = .ok .rdNextconbkBC := by decide
theorem test_decode_wrNextconbkBC : decode (.access 0b1_1_0000_00011100#14 0x5A) = .ok (.wrNextconbkBC 0x5A) := by decide
theorem test_decode_rdDebugAC : decode (.access 0b0_0_1110_00100000#14 0) = .ok (.rdDebugAC 14) := by decide
theorem test_decode_wrDebugAC : decode (.access 0b0_1_1110_00100000#14 0xA5) = .ok (.wrDebugAC 14 0xA5) := by decide
theorem test_decode_rdDebugBC : decode (.access 0b1_0_0000_00100000#14 0) = .ok .rdDebugBC := by decide
theorem test_decode_wrDebugBC : decode (.access 0b1_1_0000_00100000#14 0x5A) = .ok (.wrDebugBC 0x5A) := by decide

/-- The block of P1: SRC_INC and DEST_INC, bits 8 and 4. -/
theorem test_decode_cbLinear :
    decode (.block 0 ⟨0b1_0001_0000#32, 0x2000, 0x3000, 16, 0, 0⟩) =
      .ok (.cbLinear 0 ⟨0x110, 0x2000, 0x3000, 16, 0, 0⟩) := by decide

/-- The block of P2: the same, with INTEN and TDMODE, bits 0 and 1. -/
theorem test_decode_cb2D :
    decode (.block 15 ⟨0b1_0001_0011#32, 0x5000, 0x6020, 0x30008, 0xFFE80008, 0⟩) =
      .ok (.cb2D 15 ⟨0x113, 0x5000, 0x6020, 0x30008, 0xFFE80008, 0⟩) := by decide

/-- R60: an offset of window B above 0xFF is no instruction. -/
theorem test_decode_outsideWindowB :
    decode (.access 0b1_0_0001_00000000#14 0) = .error (.outsideWindow 0x100#12) := by decide

/-- V13: a 1-byte read of window A offset 0. -/
theorem test_decode_width : decodeAccess ⟨.a, .read, 0x000#12, 1, 0⟩ =
    .error (.accessWidth .a 0x000#12 1) := by decide

/-! Reads: the register of the channel addressed (R110 to R125). -/

theorem test_rdCs :
    (testAfter (exec (.rdCsAC 3) testRegs) fun t => t.out.response == some 0x30) = true ∧
    (testAfter (exec .rdCsBC testRegs) fun t => t.out.response == some 0xF0) = true := by decide

theorem test_rdConblkAd :
    (testAfter (exec (.rdConblkAdAC 3) testRegs) fun t => t.out.response == some 0x31) = true ∧
    (testAfter (exec .rdConblkAdBC testRegs) fun t => t.out.response == some 0xF1) = true := by decide

theorem test_rdTi :
    (testAfter (exec (.rdTiAC 3) testRegs) fun t => t.out.response == some 0x32) = true ∧
    (testAfter (exec .rdTiBC testRegs) fun t => t.out.response == some 0xF2) = true := by decide

theorem test_rdSourceAd :
    (testAfter (exec (.rdSourceAdAC 3) testRegs) fun t => t.out.response == some 0x33) = true ∧
    (testAfter (exec .rdSourceAdBC testRegs) fun t => t.out.response == some 0xF3) = true := by decide

theorem test_rdDestAd :
    (testAfter (exec (.rdDestAdAC 3) testRegs) fun t => t.out.response == some 0x34) = true ∧
    (testAfter (exec .rdDestAdBC testRegs) fun t => t.out.response == some 0xF4) = true := by decide

theorem test_rdTxfrLen :
    (testAfter (exec (.rdTxfrLenAC 3) testRegs) fun t => t.out.response == some 0x35) = true ∧
    (testAfter (exec .rdTxfrLenBC testRegs) fun t => t.out.response == some 0xF5) = true := by decide

theorem test_rdStride :
    (testAfter (exec (.rdStrideAC 3) testRegs) fun t => t.out.response == some 0x36) = true ∧
    (testAfter (exec .rdStrideBC testRegs) fun t => t.out.response == some 0xF6) = true := by decide

theorem test_rdNextconbk :
    (testAfter (exec (.rdNextconbkAC 3) testRegs) fun t => t.out.response == some 0x37) = true ∧
    (testAfter (exec .rdNextconbkBC testRegs) fun t => t.out.response == some 0xF7) = true := by decide

theorem test_rdDebug :
    (testAfter (exec (.rdDebugAC 3) testRegs) fun t => t.out.response == some 0x38) = true ∧
    (testAfter (exec .rdDebugBC testRegs) fun t => t.out.response == some 0xF8) = true := by decide

/-- E14: after channel 14 has interrupted. -/
theorem test_rdIntStatus : (testAfter (exec .rdIntStatus (testPending 14 6)) fun t =>
    t.out.response == some 0x4000) = true := by decide

/-- V7. -/
theorem test_rdEnable : (testAfter (exec .rdEnable State.reset) fun t =>
    t.out.response == some 0xFFFF) = true := by decide

/-- V3, V4: 0, and a diagnostic with the offset accessed. -/
theorem test_rdInvalidAG : (testAfter (exec (.rdInvalidAG 0xE4#8) (testPending 15 6)) fun t =>
    t.out.response == some 0 && t.out.diags == [.invalidOffset .a .read 0xFE4#12]) = true := by decide

/-- V1, V10. -/
theorem test_rdInvalidANY :
    (testAfter (exec (.rdInvalidANY 0 0x24#8) testRegs) fun t => t.out.response == some 0 &&
      t.out.diags == [.invalidOffset .a .read 0x024#12]) = true ∧
    (testAfter (exec (.rdInvalidANY 15 0xE0#8) testRegs) fun t => t.out.response == some 0 &&
      t.out.diags == [.invalidOffset .b .read 0x0E0#12]) = true := by decide

/-! Writes other than `WR.CS`. -/

theorem test_wrConblkAd :
    (testAfter (exec (.wrConblkAdAC 3 0xFFFFFFFF) testRegs) fun t =>
      t.ch 3 == { testRegs.ch 3 with conblkAd := 0xFFFFFFFF } && t.ch 15 == testRegs.ch 15) = true ∧
    (testAfter (exec (.wrConblkAdBC 0x5A5A5A5A) testRegs) fun t =>
      t.ch 15 == { testRegs.ch 15 with conblkAd := 0x5A5A5A5A } && t.ch 3 == testRegs.ch 3) = true := by
  decide

theorem test_wrTi :
    (testAfter (exec (.wrTiAC 3 0x77) testRegs) fun t =>
      t.ctl == testRegs.ctl && t.out.diags == [.readOnlyWrite 3 0x08#8]) = true ∧
    (testAfter (exec (.wrTiBC 0x77) testRegs) fun t =>
      t.ctl == testRegs.ctl && t.out.diags == [.readOnlyWrite 15 0x08#8]) = true := by decide

theorem test_wrSourceAd :
    (testAfter (exec (.wrSourceAdAC 3 0x77) testRegs) fun t =>
      t.ctl == testRegs.ctl && t.out.diags == [.readOnlyWrite 3 0x0C#8]) = true ∧
    (testAfter (exec (.wrSourceAdBC 0x77) testRegs) fun t =>
      t.ctl == testRegs.ctl && t.out.diags == [.readOnlyWrite 15 0x0C#8]) = true := by decide

theorem test_wrDestAd :
    (testAfter (exec (.wrDestAdAC 3 0x77) testRegs) fun t =>
      t.ctl == testRegs.ctl && t.out.diags == [.readOnlyWrite 3 0x10#8]) = true ∧
    (testAfter (exec (.wrDestAdBC 0x77) testRegs) fun t =>
      t.ctl == testRegs.ctl && t.out.diags == [.readOnlyWrite 15 0x10#8]) = true := by decide

theorem test_wrTxfrLen :
    (testAfter (exec (.wrTxfrLenAC 3 0x77) testRegs) fun t =>
      t.ctl == testRegs.ctl && t.out.diags == [.readOnlyWrite 3 0x14#8]) = true ∧
    (testAfter (exec (.wrTxfrLenBC 0x77) testRegs) fun t =>
      t.ctl == testRegs.ctl && t.out.diags == [.readOnlyWrite 15 0x14#8]) = true := by decide

theorem test_wrStride :
    (testAfter (exec (.wrStrideAC 3 0x77) testRegs) fun t =>
      t.ctl == testRegs.ctl && t.out.diags == [.readOnlyWrite 3 0x18#8]) = true ∧
    (testAfter (exec (.wrStrideBC 0x77) testRegs) fun t =>
      t.ctl == testRegs.ctl && t.out.diags == [.readOnlyWrite 15 0x18#8]) = true := by decide

theorem test_wrNextconbk :
    (testAfter (exec (.wrNextconbkAC 3 0x77) testRegs) fun t =>
      t.ctl == testRegs.ctl && t.out.diags == [.readOnlyWrite 3 0x1C#8]) = true ∧
    (testAfter (exec (.wrNextconbkBC 0x77) testRegs) fun t =>
      t.ctl == testRegs.ctl && t.out.diags == [.readOnlyWrite 15 0x1C#8]) = true := by decide

theorem test_wrDebug :
    (testAfter (exec (.wrDebugAC 3 0xFFFFFFFF) testRegs) fun t =>
      t.ch 3 == { testRegs.ch 3 with debug := 0xFFFFFFFF } && t.ch 15 == testRegs.ch 15) = true ∧
    (testAfter (exec (.wrDebugBC 0x5A5A5A5A) testRegs) fun t =>
      t.ch 15 == { testRegs.ch 15 with debug := 0x5A5A5A5A } && t.ch 3 == testRegs.ch 3) = true := by
  decide

/-- V6, and R128: the pending interrupt of channel 15 stays. -/
theorem test_wrIntStatus : (testAfter (exec (.wrIntStatus 0xFFFFFFFF) (testPending 15 6)) fun t =>
    t.ctl.intStatus == 0x8000#16 && (t.ch 15).irq) = true := by decide

/-- V7: the low 16 bits. -/
theorem test_wrEnable : (testAfter (exec (.wrEnable 0x12345678) State.reset) fun t =>
    t.ctl.enable == 0x5678#16) = true := by decide

/-- R96: a write to offset 0xFF2 does not change `ENABLE`. -/
theorem test_wrInvalidAG : (testAfter (exec (.wrInvalidAG 0xF2#8 0) State.reset) fun t =>
    t.ctl == State.reset.ctl && t.out.response == none) = true := by decide

/-- V2. -/
theorem test_wrInvalidANY : (testAfter (exec (.wrInvalidANY 0 0x24#8 0xFFFFFFFF) testRegs) fun t =>
    t.ctl == testRegs.ctl && t.out.diags == [.invalidOffset .a .write 0x024#12]) = true := by decide

/-! `WR.CS`. -/

/-- S7: sticky bits, masked bits, ACTIVE gone, nothing else. -/
theorem test_wrCs_all_ones : (testAfter (exec (.wrCsAC 0 0xFFFFFFFF) State.reset) fun t =>
    (t.ch 0).cs == 0xF0FF0000 && t.out.traffic == []) = true := by decide

/-- S13: IS_PAUSED, IS_HELD and ERROR of the data ignored, END cleared, INT and the line kept. -/
theorem test_wrCs_clears_end : (testAfter (exec (.wrCsAC 0 0x00000132) (testPending 0 6)) fun t =>
    (t.ch 0).cs == 4 && t.ctl.intStatus == 1 && (t.ch 0).irq) = true := by decide

/-- S17: only channel 15's bit and line drop. -/
theorem test_wrCs_acknowledge : (testAfter (exec (.wrCsBC 4)
    ((testPending 15 6).setIntStatus 0xFFFF#16)) fun t =>
    (t.ch 15).cs == 2 && t.ctl.intStatus == 0x7FFF#16 && !(t.ch 15).irq) = true := by decide

/-- E14: two interrupting descriptors; here on channel 15, through window B. -/
theorem test_wrCs_chain : (testAfter (exec (.wrCsBC 1)
    { testReady 15 ⟨1, 0, 0, 0, 0, 0x120⟩ with
      mem := (testReady 15 ⟨1, 0, 0, 0, 0, 0x120⟩).mem.writeBlock 0x120 ⟨1, 0, 0, 0, 0, 0⟩ }) fun t =>
    (t.ch 15).cs == 6 && (t.ch 15).conblkAd == 0 && t.ctl.intStatus == 0x8000#16 && (t.ch 15).irq &&
      t.out.traffic.length == 12) = true := by decide +kernel

/-! Control blocks. -/

/-- E4: the first word propagates; cursors and length at the end. -/
theorem test_cbLinear_overlap :
    (testAfter (exec (.cbLinear 0 ⟨0x110, 0x300, 0x304, 12, 0, 0⟩)
      (testWord 0x300 0xAB (testWord 0x304 1 (testWord 0x308 2 (testWord 0x30C 3 State.reset)))))
      fun t => (t.ch 0).sourceAd == 0x30C && (t.ch 0).destAd == 0x310 && (t.ch 0).txfrLen == 0 &&
        t.mem.readWord 0x304 == 0xAB && t.mem.readWord 0x30C == 0xAB) = true := by decide +kernel

/-- E13, its copy: unaligned addresses, the byte order of R42. -/
theorem test_cbLinear_unaligned :
    (testAfter (exec (.cbLinear 0 ⟨0x110, 0x301, 0x203, 4, 0, 0⟩)
      (testWord 0x300 0x44332211 (testWord 0x304 0x88776655 State.reset)))
      fun t => t.mem.readWord 0x200 == 0x22000000 && t.mem.readWord 0x204 == 0x00554433 &&
        t.out.traffic == [.write 0x203 0x55443322, .read 0x301 0x55443322]) = true := by
  decide +kernel

/-- E15: a negative source stride, added after the increments of the row. -/
theorem test_cb2D_negative_stride :
    (testAfter (exec (.cb2D 0 ⟨0x112, 0x310, 0x200, 0x00020008, 0x0000FFE8, 0⟩)
      (testWord 0x300 0xB0 (testWord 0x304 0xB1 (testWord 0x310 0xB4 (testWord 0x314 0xB5 State.reset)))))
      fun t => (t.ch 0).sourceAd == 0x308 && (t.ch 0).destAd == 0x210 &&
        (t.ch 0).txfrLen == 0x00010000 && t.mem.readWord 0x200 == 0xB4 &&
        t.mem.readWord 0x208 == 0xB0 && t.mem.readWord 0x20C == 0xB1) = true := by decide +kernel

/-- E7: three rows of no byte; the strides alone, twice, and the length kept. -/
theorem test_cb2D_empty_rows :
    (testAfter (exec (.cb2D 0 ⟨0x012, 0x300, 0x200, 0x00030000, 0xFFF00010, 0⟩) State.reset)
      fun t => (t.ch 0).cs == 2 && (t.ch 0).sourceAd == 0x320 && (t.ch 0).destAd == 0x1E0 &&
        (t.ch 0).txfrLen == 0x00030000 && t.out.traffic == []) = true := by decide +kernel

/-! The step and the host's placing of an instruction. -/

/-- P5: the disabled channel's write, key 0x1000 with ACTIVE and DISDEBUG, as a step. -/
theorem test_step_disabled : (testAfter (step
    { (testReady 0 ⟨0x110, 0x2000, 0x3000, 16, 0, 0⟩).setEnable 0xFFFE#16 with
      inbox := [.access ⟨.a, .write, 0x000#12, 4, 0x20000001⟩] }) fun t =>
    (t.ch 0).cs == 0x20000000 && (t.ch 0).conblkAd == 0x100 && t.out.traffic == []) = true := by
  decide +kernel

theorem test_placed_access : (testAfter (step (State.reset.withFetchWord 16 0x0FF0)) fun t =>
    t.out.response == some 0xFFFF) = true := by decide

theorem test_placed_block : (testAfter (step (State.reset.withFetchWord 32 0x00000003)) fun t =>
    (t.ch 0).cs == 6 && (t.ch 0).ti == 3) = true := by decide +kernel

/-- V13. -/
theorem test_step_width : step { State.reset with inbox := [.access ⟨.a, .read, 0x000#12, 1, 0⟩] } =
    .refused (.invalidAccessWidth .a 0x000#12 1) := rfl

/-- E11: a length of 2. -/
theorem test_cbLinear_never_ends : exec (.cbLinear 0 ⟨0x110, 0x300, 0x200, 2, 0, 0⟩) State.reset =
    .fault (.rowNeverEnds 0) := rfl

/-! The accessor: the parameter `Mem` (U14, U4) and the controller's own windows (U12). The addresses refused
are those of the first access of the block that the policy forbids, in the order of R187 and R162. -/

/-- The byte at the address is the high one of the word, in the other order. -/
theorem test_accessor_big : ((testBehind { Accessor.flat with order := .big } State.reset).mem.writeWord
    0x200 0x11223344).readByte 0x200 = 0x11 ∧
    (State.reset.mem.writeWord 0x200 0x11223344).readByte 0x200 = 0x44 := by decide +kernel

/-- A memory of 2^16 bytes wraps. -/
theorem test_accessor_ignored : ((testBehind { Accessor.flat with ignored := 16 } State.reset).mem.writeWord
    0xABCDFFFE 0x11223344).readWord 0x0000FFFE = 0x11223344 ∧
    ((testBehind { Accessor.flat with ignored := 16 } State.reset).mem.writeWord
      0xABCDFFFE 0x11223344).readByte 1 = 0x11 := by decide +kernel

/-- D11: a stricter memory refuses an unaligned address, it does not round it. -/
theorem test_accessor_aligned : exec (.cbLinear 0 ⟨0x110, 0x300, 0x203, 4, 0, 0⟩)
    (testBehind { Accessor.flat with aligned := true } State.reset) =
      .refused (.memoryRejects .write 0x203) := rfl

/-- A hole for writes from the second destination word on, and its last byte before one for reads. -/
theorem test_accessor_hole : exec (.cbLinear 0 ⟨0x110, 0x300, 0x200, 8, 0, 0⟩)
    (testBehind { Accessor.flat with noWrite := [⟨0x207, 0x2FF⟩] } State.reset) =
      .refused (.memoryRejects .write 0x204) ∧
    (testAfter (exec (.cbLinear 0 ⟨0x110, 0x300, 0x200, 8, 0, 0⟩)
      (testBehind { Accessor.flat with noWrite := [⟨0x208, 0x2FF⟩], noRead := [⟨0x200, 0x2FF⟩] }
        State.reset)) fun t => t.out.traffic.length == 4) = true := ⟨rfl, by decide +kernel⟩

/-- A word that would run over the top. -/
theorem test_accessor_top : exec (.cbLinear 0 ⟨0x110, 0xFFFFFFFD, 0x200, 4, 0, 0⟩)
    (testBehind { Accessor.flat with topWraps := false } State.reset) =
      .refused (.memoryRejects .read 0xFFFFFFFD) ∧
    (testAfter (exec (.cbLinear 0 ⟨0x110, 0xFFFFFFFC, 0x200, 4, 0, 0⟩)
      (testBehind { Accessor.flat with topWraps := false } State.reset)) fun t =>
        (t.ch 0).sourceAd == 0) = true := ⟨rfl, by decide +kernel⟩

/-- The last byte of the word is the first of window A; one word lower nothing is. -/
theorem test_window_copy : exec (.cbLinear 0 ⟨0x110, 0x300, 0x7E006FF9, 8, 0, 0⟩)
    (testBehind { Accessor.flat with windowA := some 0x7E007000 } State.reset) =
      .refused (.ownWindow .write 0x7E006FFD) := rfl

/-- A row that reads the window's last word. -/
theorem test_window_plane : exec (.cb2D 0 ⟨0x112, 0x7E008000, 0x200, 0x00020004, 0x0000FFF8, 0⟩)
    (testBehind { Accessor.flat with windowA := some 0x7E007000 } State.reset) =
      .refused (.ownWindow .read 0x7E007FFC) := rfl

/-- A row that never ends (length 2) whose first read is of a visible window is refused (R51, U12). -/
theorem test_window_endless : exec (.cbLinear 0 ⟨0x110, 0x7E007FFC, 0x200, 2, 0, 0⟩)
    (testBehind { Accessor.flat with windowA := some 0x7E007000 } State.reset) =
      .refused (.ownWindow .read 0x7E007FFC) := rfl

/-- One that comes to a window after many words: first the write at the top, then, with DEST_IGNORE, the read
whose last byte is the window's first. Where both cursors stand still elsewhere it never ends (E11). -/
theorem test_window_endless_far :
    exec (.cbLinear 0 ⟨0x110, 0x301, 0x7E006000, 2, 0, 0⟩)
      (testBehind { Accessor.flat with windowA := some 0x7E007000 } State.reset) =
        .refused (.ownWindow .write 0x7E007000) ∧
    exec (.cb2D 0 ⟨0x192, 0x301, 0x7E006000, 0x00020002, 0, 0⟩)
      (testBehind { Accessor.flat with windowA := some 0x7E007000 } State.reset) =
        .refused (.ownWindow .read 0x7E006FFD) ∧
    exec (.cbLinear 0 ⟨0x000, 0x301, 0x7E006000, 2, 0, 0⟩)
      (testBehind { Accessor.flat with windowA := some 0x7E007000 } State.reset) =
        .fault (.rowNeverEnds 0) := ⟨rfl, rfl, rfl⟩

/-! The hypotheses of the obligations can be met. -/

/-- One block that copies two words, with INTEN (channel `c` at 0x100). -/
def testCopy : Block := ⟨0x111, 0x300, 0x200, 8, 0, 0⟩

/-- Two rows of two words, the rows 16 bytes apart on both sides, with INTEN. -/
def testPlane : Block := ⟨0x113, 0x300, 0x200, 0x00020008, 0x00080008, 0⟩

/-- A block that copies nothing and links to itself. -/
def testLoop : Block := ⟨0, 0, 0, 0, 0, 0x100⟩

/-- The two words share no byte, as a test. -/
def testApartB (v w : Word) : Bool :=
  (List.range 4).all fun k => (List.range 4).all fun l =>
    Accessor.flat.byteLocation v k != Accessor.flat.byteLocation w l

theorem testApart {v w : Word} (h : testApartB v w = true) : Accessor.flat.Apart v w := by
  rintro a ⟨k, hk, rfl⟩ ⟨l, hl, e⟩
  simp only [testApartB, List.all_eq_true, List.mem_range, bne_iff_ne] at h
  exact h k hk l hl e

/-- The default instance accepts everything. -/
theorem testLinear (b : Block) : LinearAccepted Accessor.flat b := fun _ _ =>
  ⟨fun _ => Accessor.flat_accepts _ _, fun _ => Accessor.flat_accepts _ _⟩

theorem testRows (b : Block) : PlaneAccepted Accessor.flat b := fun _ _ _ _ =>
  ⟨fun _ => Accessor.flat_accepts _ _, fun _ => Accessor.flat_accepts _ _⟩

theorem testFetch (a : Word) : FetchAccepted Accessor.flat a := fun _ _ => Accessor.flat_accepts _ _

theorem testBlock (b : Block) : BlockAccepted Accessor.flat b := by
  unfold BlockAccepted
  split
  · exact testRows b
  · exact testLinear b

theorem testCs (c : Fin 15) (v : Word) : (Instr.wrCsAC c v).IsCsWrite (slotA c) v :=
  .inl ⟨c, rfl, rfl⟩

theorem testCsB (v : Word) : (Instr.wrCsBC v).IsCsWrite 15 v := .inr ⟨rfl, rfl⟩

theorem witness_DecodeOfEncodeGivesTheInstruction :
    (Instr.rdInvalidANY 15 0xFF#8).wf = true ∧ (Instr.cb2D 15 testPlane).wf = true := by decide

theorem witness_EncodeOfDecodeGivesTheKey :
    decode (.access 0x3FF#14 7) = .ok (.rdInvalidANY 3 0xFF#8) ∧
    decode (.block 0 testCopy) = .ok (.cbLinear 0 testCopy) := by decide

theorem witness_EveryAccessDecodes :
    (0xFFF#12).toNat < Window.a.size ∧ (0xFF#12).toNat < Window.b.size := by decide

theorem witness_WindowAGapIsNotChannel15 : (0x00#8).toNat < 0xE0 ∧ (0xDF#8).toNat < 0xE0 := by decide

theorem witness_UnalignedOffsetsMatchNoRegister :
    ((0xFFF#12).toNat < Window.a.size ∧ (0xFFF#12).toNat % 4 ≠ 0) ∧
    ((0x001#12).toNat < Window.b.size ∧ (0x001#12).toNat % 4 ≠ 0) := by decide

theorem witness_StepRunsTheDecodedAccess :
    ({ State.reset with inbox := [.access ⟨.b, .read, 0x20#12, 4, 0⟩] } : State).inbox =
      [.access ⟨.b, .read, 0x20#12, 4, 0⟩] ∧
    decodeAccess ⟨.b, .read, 0x20#12, 4, 0⟩ = .ok .rdDebugBC := by decide

theorem witness_WrongWidthIsRefused :
    ({ State.reset with inbox := [.access ⟨.a, .write, 0x024#12, 2, 0⟩] } : State).inbox =
      [.access ⟨.a, .write, 0x024#12, 2, 0⟩] ∧
    (⟨.a, .write, 0x024#12, 2, 0⟩ : Access).size ≠ 4 := by decide

theorem witness_OffsetOutsideWindowBIsRefused :
    ({ State.reset with inbox := [.access ⟨.b, .read, 0x100#12, 4, 0⟩] } : State).inbox =
      [.access ⟨.b, .read, 0x100#12, 4, 0⟩] ∧
    Config.sizeB ≤ (0x100#12).toNat ∧ Config.sizeB ≤ (0xFFF#12).toNat := by decide

theorem witness_OtherAgentsOnlyStore : State.reset.inbox = [] ∧ State.reset.mem.wf ∧
    ({ State.reset with inbox := [.store 0xFFFFFFFF 7] } : State).inbox = [.store 0xFFFFFFFF 7] := by
  decide

theorem witness_ControllerResetLeavesTheStatedValues :
    ({ State.reset with inbox := [.reset] } : State).inbox = [.reset] := by decide

theorem witness_PlacedAccessRunsNext :
    decodeTableWord 16 0x0000 = some (.rdCsAC 0) ∧
    decodeTableWord 16 0x30FF = some (.wrInvalidANY 15 0xFF#8 0) := by decide

theorem witness_ReadsNeverChangeState : (Instr.rdCsAC 14).isRead = true ∧
    (Instr.rdInvalidANY 15 0x24#8).isRead = true ∧ Instr.rdIntStatus.isRead = true ∧
    Unchanged testRegs testRegs.begin := ⟨by decide, by decide, by decide, rfl, rfl, rfl, rfl⟩

theorem witness_DebugRoundTrips :
    (∃ t, exec (.wrDebugAC 7 0xA5A5F00F) State.reset = .next t) ∧
    ∃ t, exec (.wrDebugBC 0x5A5A5A5A) State.reset = .next t := ⟨⟨_, rfl⟩, ⟨_, rfl⟩⟩

/-- Both ways not to raise the edge: no ACTIVE written, or ACTIVE already set. -/
theorem witness_CsWriteWithoutStartTakesTheFiveSteps :
    (0xFFFFFFFE#32).getLsbD Config.csActive = false ∧
    (State.reset.modifyCs 15 (setBit 0)).active 15 = true := by decide

/-- Both ways not to be eligible: disabled, or idle. -/
theorem witness_StartOfIneligibleChannelRunsNothing :
    (1#32).getLsbD Config.csActive = true ∧ (testReady 0 testCopy).active 0 = false ∧
    ((testReady 0 testCopy).setEnable 0xFFFE#16).eligible 0 = false ∧
    State.reset.active 15 = false ∧ State.reset.eligible 15 = false := by decide

theorem witness_EndIsWriteOneToClear :
    (2#32).getLsbD Config.csActive = false ∧
    (1#32).getLsbD Config.csActive = true ∧ (testReady 3 testCopy).active 3 = false ∧
    (testReady 3 testCopy).eligible 3 = true ∧
    ∃ t, exec (.wrCsAC 3 1) (testReady 3 testCopy) = .next t :=
  ⟨by decide, by decide, by decide, by decide,
    (testAfter_next (p := fun _ => true) (by decide +kernel)).imp fun _ h => h.1⟩

theorem witness_IntIsWriteOneToClear :
    (4#32).getLsbD Config.csActive = false ∧
    ∃ t, exec (.wrCsBC 4) (testPending 15 6) = .next t ∧
      ((testPending 15 6).ch 15).irq = true ∧ (t.ch 15).irq = false :=
  ⟨by decide, _, rfl, by decide, by decide⟩

/-- A chain that ends, one that never does, one with a row that never ends, and one whose fetch is refused. -/
theorem witness_StartRunsTheWholeChain :
    (1#32).getLsbD Config.csActive = true ∧
    ((testReady 15 testCopy).mem.wf ∧ (testReady 15 testCopy).active 15 = false) ∧
    ((testReady 15 testLoop).mem.wf ∧ (testReady 15 testLoop).active 15 = false) ∧
    ((testReady 0 { testCopy with len := 2 }).mem.wf ∧
      (testReady 0 { testCopy with len := 2 }).active 0 = false) ∧
    (testBehind { Accessor.flat with windowB := some 0 } (testReady 0 testCopy)).mem.wf ∧
      (testBehind { Accessor.flat with windowB := some 0 } (testReady 0 testCopy)).active 0 = false := by
  decide +kernel

/-- Not eligible; eligible with a fetch that is accepted; and with one whose last word is not. -/
theorem witness_TurnRunsTheDecodedBlock :
    State.reset.eligible 0 = false ∧
    ((testReady 15 testPlane).eligible 15 = true ∧
      FetchAccepted (testReady 15 testPlane).mem.accessor ((testReady 15 testPlane).ch 15).conblkAd ∧
      (testReady 15 testPlane).currentBlock 15 = testPlane) ∧
    (testBehind { Accessor.flat with noRead := [⟨0x117, 0x117⟩] } (testReady 15 testPlane)).eligible 15 =
      true ∧
    ¬ FetchAccepted { Accessor.flat with noRead := [⟨0x117, 0x117⟩] } 0x100 :=
  ⟨by decide, ⟨by decide, testFetch _, by decide +kernel⟩, by decide, fun h =>
    absurd (h 5 (by decide)) (by decide)⟩

theorem witness_StartOfOneBlockRunsIt :
    (1#32).getLsbD Config.csActive = true ∧ (testReady 15 testCopy).active 15 = false ∧
    (testReady 15 testCopy).eligible 15 = true ∧
    FetchAccepted (testReady 15 testCopy).mem.accessor ((testReady 15 testCopy).ch 15).conblkAd ∧
    BlockAccepted (testReady 15 testCopy).mem.accessor ((testReady 15 testCopy).currentBlock 15) ∧
    BlockEnds ((testReady 15 testCopy).currentBlock 15) ∧
    ((testReady 15 testCopy).currentBlock 15).next = 0 := by
  have h : (testReady 15 testCopy).currentBlock 15 = testCopy := by decide +kernel
  rw [h]
  exact ⟨by decide, by decide, by decide, testFetch _, testBlock _, by unfold BlockEnds; decide, rfl⟩

theorem witness_CompletedStartLeavesTheChannelIdle :
    (1#32).getLsbD Config.csActive = true ∧ (testReady 15 testCopy).active 15 = false ∧
    (testReady 15 testCopy).eligible 15 = true ∧
    ∃ t, exec (.wrCsBC 1) (testReady 15 testCopy) = .next t :=
  ⟨by decide, by decide, by decide,
    (testAfter_next (p := fun _ => true) (by decide +kernel)).imp fun _ h => h.1⟩

theorem witness_AcknowledgeAndRestartInOneWrite :
    ((7#32).getLsbD Config.csActive = true ∧ (7#32).getLsbD Config.csEnd = true ∧
      (7#32).getLsbD Config.csInt = true) ∧
    (testReady 2 testCopy).active 2 = false ∧ (testReady 2 testCopy).eligible 2 = true ∧
    FetchAccepted (testReady 2 testCopy).mem.accessor ((testReady 2 testCopy).ch 2).conblkAd ∧
    BlockAccepted (testReady 2 testCopy).mem.accessor ((testReady 2 testCopy).currentBlock 2) ∧
    BlockEnds ((testReady 2 testCopy).currentBlock 2) ∧
    ((testReady 2 testCopy).currentBlock 2).next = 0 := by
  have h : (testReady 2 testCopy).currentBlock 2 = testCopy := by decide +kernel
  rw [h]
  exact ⟨by decide, by decide, by decide, testFetch _, testBlock _, by unfold BlockEnds; decide, rfl⟩

theorem witness_SelfLinkedBlockNeverEnds :
    (testReady 15 testLoop).mem.wf ∧ (1#32).getLsbD Config.csActive = true ∧
    (testReady 15 testLoop).active 15 = false ∧ (testReady 15 testLoop).eligible 15 = true ∧
    FetchAccepted (testReady 15 testLoop).mem.accessor ((testReady 15 testLoop).ch 15).conblkAd ∧
    ((testReady 15 testLoop).currentBlock 15).len = 0 ∧
    ((testReady 15 testLoop).currentBlock 15).next = ((testReady 15 testLoop).ch 15).conblkAd :=
  ⟨by decide +kernel, by decide, by decide, by decide, testFetch _, by decide +kernel,
    by decide +kernel⟩

theorem witness_LinearBlockCompletes : testCopy.len.toNat % 4 = 0 ∧ (0#32).toNat % 4 = 0 ∧
    (0xFFFFFFFC#32).toNat % 4 = 0 ∧ LinearAccepted State.reset.mem.accessor testCopy ∧
    LinearAccepted State.reset.mem.accessor { testCopy with len := 0xFFFFFFFC } :=
  ⟨by decide, by decide, by decide, testLinear _, testLinear _⟩

/-- No row, rows of words, and rows of no byte. -/
theorem witness_PlaneBlockCompletes : planeRows { testPlane with len := 0x00000007 } = 0 ∧
    planeBytes testPlane % 4 = 0 ∧ planeBytes { testPlane with len := 0x3FFF0000 } % 4 = 0 ∧
    PlaneAccepted State.reset.mem.accessor testPlane :=
  ⟨by decide, by decide, by decide, testRows _⟩

theorem witness_CompletionSetsTheFlags : ({ testPlane with len := 0 } : Block).len = 0 ∧
    ∃ t, exec (.cb2D 0 testPlane) State.reset = .next t := ⟨rfl, _, rfl⟩

theorem witness_LinearBlockUsesThePortInOrder :
    ∃ t, exec (.cbLinear 0 testCopy) State.reset = .next t := ⟨_, rfl⟩

theorem witness_LinearBlockStoresOnlyToItsWords : State.reset.mem.wf ∧
    (∃ t, exec (.cbLinear 0 { testCopy with ti := 0x180 }) State.reset = .next t) ∧
    destIgnore 0x180 = true ∧ (∃ t, exec (.cbLinear 0 testCopy) State.reset = .next t) ∧
    ∀ i, i < testCopy.len.toNat / 4 → ¬ State.reset.mem.accessor.InWord 0x208 (linearDest testCopy i) :=
  ⟨by decide, ⟨_, rfl⟩, by decide, ⟨_, rfl⟩, fun i hi ⟨k, hk, h⟩ =>
    (show ∀ i, i < 2 → ∀ k, k < 4 → 0x208 ≠ Accessor.flat.byteLocation (linearDest testCopy i) k by decide)
      i hi k hk h⟩

theorem witness_PlaneBlockStoresOnlyToItsWords : State.reset.mem.wf ∧
    (∃ t, exec (.cb2D 0 { testPlane with ti := 0x182 }) State.reset = .next t) ∧
    destIgnore 0x182 = true ∧ (∃ t, exec (.cb2D 0 testPlane) State.reset = .next t) ∧
    ∀ j i, j < planeRows testPlane → i < planeBytes testPlane / 4 →
      ¬ State.reset.mem.accessor.InWord 0x20F (planeDest testPlane j i) :=
  ⟨by decide, ⟨_, rfl⟩, by decide, ⟨_, rfl⟩, fun j i hj hi ⟨k, hk, h⟩ =>
    (show ∀ j, j < 2 → ∀ i, i < 2 → ∀ k, k < 4 → 0x20F ≠
      Accessor.flat.byteLocation (planeDest testPlane j i) k by decide) j hj i hi k hk h⟩

/-- With DEST_INC, on every address bit and on a memory that wraps; and without DEST_INC. -/
theorem witness_LinearBlockCopiesDisjointRegions : State.reset.mem.wf ∧
    ((∃ t, exec (.cbLinear 0 testCopy) State.reset = .next t) ∧
      sourceIgnore testCopy.ti = false ∧ destIgnore testCopy.ti = false ∧
      destIncrement testCopy.ti = true ∧ State.reset.mem.accessor.ignored = 0 ∧
      ∀ i j, i < testCopy.len.toNat / 4 → j < testCopy.len.toNat / 4 →
        State.reset.mem.accessor.Apart (linearSource testCopy i) (linearDest testCopy j)) ∧
    (∀ i j, i < testCopy.len.toNat / 4 → j < testCopy.len.toNat / 4 → i ≠ j →
      State.reset.mem.accessor.Apart (linearDest testCopy i) (linearDest testCopy j)) ∧
    (∃ t, exec (.cbLinear 0 { testCopy with ti := 0x100 }) State.reset = .next t) ∧
      sourceIgnore 0x100 = false ∧ destIgnore 0x100 = false ∧ destIncrement 0x100 = false ∧
      ∀ i j, i < testCopy.len.toNat / 4 → j < testCopy.len.toNat / 4 →
        State.reset.mem.accessor.Apart (linearSource { testCopy with ti := 0x100 } i)
          (linearDest { testCopy with ti := 0x100 } j) :=
  ⟨by decide, ⟨⟨_, rfl⟩, by decide, by decide, by decide, rfl, fun i j hi hj => testApart
    ((show ∀ i, i < 2 → ∀ j, j < 2 →
      testApartB (linearSource testCopy i) (linearDest testCopy j) = true by decide +kernel)
      i hi j hj)⟩, fun i j hi hj h => testApart
    ((show ∀ i, i < 2 → ∀ j, j < 2 → i ≠ j →
      testApartB (linearDest testCopy i) (linearDest testCopy j) = true by decide +kernel)
      i hi j hj h), ⟨_, rfl⟩, by decide, by decide, by decide, fun i j hi hj => testApart
    ((show ∀ i, i < 2 → ∀ j, j < 2 → testApartB (linearSource { testCopy with ti := 0x100 } i)
      (linearDest { testCopy with ti := 0x100 } j) = true by decide +kernel) i hi j hj)⟩

theorem witness_PlaneBlockCopiesEveryRow : State.reset.mem.wf ∧
    (∃ t, exec (.cb2D 0 testPlane) State.reset = .next t) ∧
    sourceIgnore testPlane.ti = false ∧ destIgnore testPlane.ti = false ∧
    ∀ j i j' i', j < planeRows testPlane → i < planeBytes testPlane / 4 →
      j' < planeRows testPlane → i' < planeBytes testPlane / 4 →
      State.reset.mem.accessor.Apart (planeSource testPlane j i) (planeDest testPlane j' i') ∧
        ((j, i) ≠ (j', i') →
          State.reset.mem.accessor.Apart (planeDest testPlane j i) (planeDest testPlane j' i')) := by
  have h1 : ∀ j, j < 2 → ∀ i, i < 2 → ∀ j', j' < 2 → ∀ i', i' < 2 →
      testApartB (planeSource testPlane j i) (planeDest testPlane j' i') = true := by
    decide +kernel
  have h2 : ∀ j, j < 2 → ∀ i, i < 2 → ∀ j', j' < 2 → ∀ i', i' < 2 →
      (decide (j = j' ∧ i = i') ||
        testApartB (planeDest testPlane j i) (planeDest testPlane j' i')) = true := by
    decide +kernel
  exact ⟨by decide, ⟨_, rfl⟩, by decide, by decide, fun j i j' i' hj hi hj' hi' =>
    ⟨testApart (h1 j hj i hi j' hj' i' hi'), fun h => testApart (by
      have h2 := h2 j hj i hi j' hj' i' hi'
      rw [Bool.or_eq_true, decide_eq_true_eq] at h2
      exact h2.resolve_left fun e => h (Prod.ext e.1 e.2))⟩⟩

/-- E4. -/
theorem witness_OverlappingCopyPropagatesTheFirstWord : State.reset.mem.wf ∧
    (∃ t, exec (.cbLinear 0 ⟨0x110, 0x300, 0x304, 12, 0, 0⟩) State.reset = .next t) ∧
    sourceIgnore 0x110 = false ∧ destIgnore 0x110 = false ∧ sourceIncrement 0x110 = true ∧
    destIncrement 0x110 = true ∧ (0x304 : Word) = 0x300 + 4 :=
  ⟨by decide, ⟨_, rfl⟩, by decide, by decide, by decide, by decide, by decide⟩

/-- E1. -/
theorem witness_SourceIgnoreFillsWithZero : State.reset.mem.wf ∧
    (∃ t, exec (.cbLinear 0 ⟨0x810, 0x9999, 0x200, 8, 0, 0⟩) State.reset = .next t) ∧
    sourceIgnore 0x810 = true ∧ destIgnore 0x810 = false :=
  ⟨by decide, ⟨_, rfl⟩, by decide, by decide⟩

theorem witness_TurnUsesThePortAsCounted :
    ∃ t, chainPass 15 (testReady 15 testPlane) = .running t := by
  have h : (match chainPass 15 (testReady 15 testPlane) with | .running _ => true | _ => false) =
      true := by decide +kernel
  cases e : chainPass 15 (testReady 15 testPlane) with
  | running t => exact ⟨t, rfl⟩
  | ended t => rw [e] at h; cases h
  | faulted r => rw [e] at h; cases h
  | refused r => rw [e] at h; cases h

/-- Each reason, for each branch: the block ends and its first access is refused. -/
theorem witness_BlockIsRefusedAtItsFirstRefusedAccess :
    exec (.cbLinear 0 testCopy) (testBehind { Accessor.flat with windowA := some 0x300 } State.reset) =
      .refused (.ownWindow .read 0x300) ∧
    exec (.cb2D 0 testPlane)
        (testBehind { Accessor.flat with noWrite := [⟨0x217, 0x217⟩] } State.reset) =
      .refused (.memoryRejects .write 0x214) := ⟨rfl, rfl⟩

/-- The first word of the fetch in a window, the first word rejected, and the sixth word only. -/
theorem witness_StartIsRefusedWhereTheFetchIs :
    (1#32).getLsbD Config.csActive = true ∧ (testReady 15 testCopy).active 15 = false ∧
    (testReady 15 testCopy).eligible 15 = true ∧
    ({ Accessor.flat with windowB := some 0x103 } : Accessor).reachesWindow 0x100 = true ∧
    (({ Accessor.flat with noRead := [⟨0x103, 0x103⟩] } : Accessor).reachesWindow 0x100 = false ∧
      ({ Accessor.flat with noRead := [⟨0x103, 0x103⟩] } : Accessor).rejects .read 0x100 = true) ∧
    ¬ FetchAccepted { Accessor.flat with windowB := some 0x117 } 0x100 :=
  ⟨by decide, by decide, by decide, by decide, by decide, fun h =>
    absurd (h 5 (by decide)) (by decide)⟩

theorem witness_WordsStandInTheByteOrder : State.reset.mem.wf ∧
    (testBehind { Accessor.flat with order := .big, ignored := 30 } State.reset).mem.wf ∧
    (∀ i, i < 4 → 0x204 ≠ Accessor.flat.byteLocation 0x200 i) := by decide

theorem witness_StepKeepsTheInvariant :
    ({ testReady 15 testPlane with inbox := [.access ⟨.b, .write, 0x00#12, 4, 1⟩] } : State).Inv ∧
    ∃ t, step { testReady 15 testPlane with inbox := [.access ⟨.b, .write, 0x00#12, 4, 1⟩] } =
      .next t :=
  ⟨by decide +kernel, (testAfter_next (p := fun _ => true) (by decide +kernel)).imp fun _ h => h.1⟩

/-- A start whose accesses, 0x100 to 0x117, 0x200 to 0x217 and 0x300 to 0x317, end just below the window. -/
theorem witness_StepKeepsTheEngineOutOfTheWindows :
    ({ testBehind { Accessor.flat with windowB := some 0x318 } (testReady 15 testPlane) with
      inbox := [.access ⟨.b, .write, 0x00#12, 4, 1⟩] } : State).TrafficAccepted ∧
    ∃ t, step { testBehind { Accessor.flat with windowB := some 0x318 } (testReady 15 testPlane) with
      inbox := [.access ⟨.b, .write, 0x00#12, 4, 1⟩] } = .next t ∧ (t.out.traffic.length == 14) = true :=
  ⟨fun _ h => (nomatch h), testAfter_next (p := fun t => t.out.traffic.length == 14) (by decide +kernel)⟩

theorem witness_NoStepChangesTheAccessor :
    ∃ t, step { testBehind { Accessor.flat with windowB := some 0x318 } (testReady 15 testPlane) with
      inbox := [.access ⟨.b, .write, 0x00#12, 4, 1⟩] } = .next t :=
  (testAfter_next (p := fun _ => true) (by decide +kernel)).imp fun _ h => h.1

/-- Each of the three places is cleared by the acknowledge; and a reset stands in the inbox. -/
theorem witness_OnlyTheAcknowledgeClearsAnInterrupt :
    (∃ t, exec (.wrCsAC 4 4) (testPending 4 6) = .next t ∧
      (((testPending 4 6).ch 4).cs.getLsbD Config.csInt = true ∧
        (t.ch 4).cs.getLsbD Config.csInt = false) ∧
      ((testPending 4 6).ctl.intStatus.getLsbD 4 = true ∧ t.ctl.intStatus.getLsbD 4 = false) ∧
      ((testPending 4 6).ch 4).irq = true ∧ (t.ch 4).irq = false) ∧
    ((4#32).getLsbD Config.csInt = true ∧ (4#32).getLsbD Config.csActive = false) ∧
    ({ testPending 4 6 with inbox := [.reset] } : State).inbox = [.reset] :=
  ⟨⟨_, rfl, by decide, by decide, by decide, by decide⟩, by decide, rfl⟩

/-- By a descriptor run as such, and by one a starting CS write comes to. -/
theorem witness_OnlyInterruptDescriptorsRaiseTheLine :
    (∃ t, exec (.cbLinear 5 testCopy) State.reset = .next t ∧
      (State.reset.ch 5).irq = false ∧ (t.ch 5).irq = true) ∧
    ((testReady 15 testCopy).ch 15).irq = false ∧
    ∃ t, exec (.wrCsBC 1) (testReady 15 testCopy) = .next t ∧ (t.ch 15).irq = true :=
  ⟨⟨_, rfl, by decide, by decide +kernel⟩, by decide,
    testAfter_next (p := fun t => (t.ch 15).irq) (by decide +kernel)⟩

theorem witness_ResetAndAbortBitsAreSticky :
    ∃ t, exec (.wrCsAC 4 0) (State.reset.modifyCs 4 fun _ => 0xC0FF0006) = .next t ∧
      ((State.reset.modifyCs 4 fun _ => 0xC0FF0006).ch 4).cs.getLsbD Config.csReset = true ∧
      ((State.reset.modifyCs 4 fun _ => 0xC0FF0006).ch 4).cs.getLsbD Config.csAbort = true :=
  ⟨_, rfl, by decide, by decide⟩

theorem witness_OnlyItsWriteChangesEnable :
    ∃ t, exec (.wrEnable 1) State.reset = .next t ∧ t.ctl.enable ≠ State.reset.ctl.enable :=
  ⟨_, rfl, by decide⟩

theorem witness_OtherChannelsAreUntouched :
    (∃ t, exec (.wrDebugAC 3 1) State.reset = .next t) ∧ (Instr.wrDebugAC 3 1).channel ≠ some 15 ∧
    (∃ t, exec (.wrEnable 1) State.reset = .next t) ∧ (Instr.wrEnable 1).channel ≠ some 15 :=
  ⟨⟨_, rfl⟩, by decide, ⟨_, rfl⟩, by decide⟩

theorem witness_OnlyItsWriteChangesDebug :
    (∃ t, exec (.wrDebugAC 3 1) State.reset = .next t ∧
      (t.ch 3).debug ≠ (State.reset.ch 3).debug) ∧
    ∃ t, exec (.wrDebugBC 1) State.reset = .next t ∧ (t.ch 15).debug ≠ (State.reset.ch 15).debug :=
  ⟨⟨_, rfl, by decide⟩, ⟨_, rfl, by decide⟩⟩

theorem witness_MemoryIsWrittenOnlyThroughThePort : State.reset.mem.wf ∧
    encode (.wrCsBC 1) = .access (keyBC .write 0x00#8) 1 ∧
    (∃ t, exec (.wrCsBC 1) State.reset = .next t ∧ t.out.traffic = []) ∧
    (testReady 15 testCopy).mem.wf ∧
    ∃ t, exec (.wrCsBC 1) (testReady 15 testCopy) = .next t ∧
      (t.out.traffic.contains (.write 0x204 0)) = true :=
  ⟨by decide, rfl, ⟨_, rfl, rfl⟩, by decide +kernel,
    testAfter_next (p := fun t => t.out.traffic.contains (.write 0x204 0)) (by decide +kernel)⟩

/-- An access of each window, a CS write that starts nothing, a store and a reset in one inbox. -/
theorem witness_RunsWithoutStartsNeverStop : ∀ a, Event.access a ∈
    [Event.access ⟨.a, .write, 0x000#12, 4, 0xFFFFFFFE⟩, .store 5 1, .reset,
      .access ⟨.b, .read, 0xFF#12, 4, 0⟩] →
    a.size = 4 ∧ a.offset.toNat < a.window.size ∧
      ∀ i c v, decodeAccess a = .ok i → i.IsCsWrite c v → v.getLsbD Config.csActive = false := by
  intro a ha
  simp only [List.mem_cons, Event.access.injEq, reduceCtorEq, List.not_mem_nil, or_false,
    false_or] at ha
  rcases ha with rfl | rfl
  · refine ⟨by decide, by decide, fun i c v hd hi => ?_⟩
    have h : decodeAccess ⟨.a, .write, 0x000#12, 4, 0xFFFFFFFE⟩ = .ok (.wrCsAC 0 0xFFFFFFFE) := by
      decide
    rw [h] at hd
    cases hd
    rcases hi with ⟨c', e, -⟩ | ⟨e, -⟩ <;> cases e
    decide
  · refine ⟨by decide, by decide, fun i c v hd hi => ?_⟩
    have h : decodeAccess ⟨.b, .read, 0xFF#12, 4, 0⟩ = .ok (.rdInvalidANY 15 0xFF#8) := by decide
    rw [h] at hd
    cases hd
    rcases hi with ⟨c', e, -⟩ | ⟨e, -⟩ <;> cases e
end

section
/-! PROOFS. Register access: an instruction that reads answers from the controller's state alone (R133). -/

namespace Sys2Proof.Machine

/-! The direction bit of the keys the encoder writes (R60). -/

theorem keyAG_dir (d : Dir) (r : BitVec 8) : (keyAG d r).getLsbD 12 = d.bit :=
  accessKey_dir _ _ _

theorem keyAC_dir (d : Dir) (c : Fin 15) (r : BitVec 8) : (keyAC d c r).getLsbD 12 = d.bit :=
  accessKey_dir _ _ _

theorem keyBC_dir (d : Dir) (r : BitVec 8) : (keyBC d r).getLsbD 12 = d.bit :=
  accessKey_dir _ _ _

theorem keyOfSlot_dir (d : Dir) (c : ChannelId) (r : BitVec 8) :
    (keyOfSlot d c r).getLsbD 12 = d.bit := by
  unfold keyOfSlot
  split
  · exact keyAC_dir d _ r
  · exact keyBC_dir d r

/-! What each of the three kinds of read returns. -/

theorem returns_of_readRegister {i : Instr} {s : State} {f : Channel → Word} {c : ChannelId}
    (h : exec i s = readRegister f c s) : Returns i s (f (s.ch c)) :=
  ⟨_, h, rfl, rfl, rfl, rfl, rfl, rfl⟩

theorem returns_of_readBitmap {i : Instr} {s : State} {m : Bitmap}
    (h : exec i s = readBitmap m s) : Returns i s (m.setWidth 32) :=
  ⟨_, h, rfl, rfl, rfl, rfl, rfl, rfl⟩

theorem returns_of_readInvalid {i : Instr} {s : State} {w : Window} {o : BitVec 12}
    (h : exec i s = readInvalid w o s) : Returns i s 0 :=
  ⟨_, h, rfl, rfl, rfl, rfl, rfl, rfl⟩

/-- Everything an instruction that reads can be: the read of a channel register, of a global bitmap, or of
an invalid offset; the rows that write, and the control blocks, do not read. -/
theorem exec_cases_of_isRead {i : Instr} (h : i.isRead = true) :
    (∃ f c, ∀ s, exec i s = readRegister f c s) ∨
    (∃ m : Controller → Bitmap, ∀ s, exec i s = readBitmap (m s.ctl) s) ∨
    (∃ w o, ∀ s, exec i s = readInvalid w o s) := by
  cases i
  case rdCsAC c | rdConblkAdAC c | rdTiAC c | rdSourceAdAC c | rdDestAdAC c | rdTxfrLenAC c
      | rdStrideAC c | rdNextconbkAC c | rdDebugAC c =>
    exact .inl ⟨_, slotA c, fun _ => rfl⟩
  case rdCsBC | rdConblkAdBC | rdTiBC | rdSourceAdBC | rdDestAdBC | rdTxfrLenBC
      | rdStrideBC | rdNextconbkBC | rdDebugBC =>
    exact .inl ⟨_, channelB, fun _ => rfl⟩
  case rdIntStatus => exact .inr (.inl ⟨Controller.intStatus, fun _ => rfl⟩)
  case rdEnable => exact .inr (.inl ⟨Controller.enable, fun _ => rfl⟩)
  case rdInvalidAG r => exact .inr (.inr ⟨.a, 0xF#4 ++ r, fun _ => rfl⟩)
  case rdInvalidANY c r => exact .inr (.inr ⟨slotWindow c, slotOffset c r, fun _ => rfl⟩)
  all_goals
    simp only [Instr.isRead, encode, keyAG_dir, keyAC_dir, keyBC_dir, keyOfSlot_dir, Dir.bit,
      Bool.not_true, Bool.false_eq_true] at h

/-- The value a read returns is a function of the controller's state (R133). -/
theorem exists_returns_of_isRead {i : Instr} (h : i.isRead = true) :
    ∃ value : Controller → Word, ∀ s, Returns i s (value s.ctl) := by
  obtain ⟨f, c, hi⟩ | ⟨m, hi⟩ | ⟨w, o, hi⟩ := exec_cases_of_isRead h
  · exact ⟨fun k => f (k.ch c), fun s => returns_of_readRegister (hi s)⟩
  · exact ⟨fun k => (m k).setWidth 32, fun s => returns_of_readBitmap (hi s)⟩
  · exact ⟨fun _ => 0, fun s => returns_of_readInvalid (hi s)⟩

/-- Settles O18: the first read leaves the controller as it was, and the value returned depends on
nothing else. -/
theorem readsNeverChangeState : Obligations.ReadsNeverChangeState := by
  intro i s h
  obtain ⟨value, hvalue⟩ := exists_returns_of_isRead h
  obtain ⟨t, hexec, hresponse, -, hunchanged⟩ := hvalue s
  refine ⟨t, hexec, hunchanged, fun u hu => ?_⟩
  obtain ⟨w, hexec', hresponse', -, -⟩ := hvalue u
  obtain ⟨hctl, -⟩ := hu
  exact ⟨w, hexec', by rw [hresponse', hresponse, hctl]⟩

end Sys2Proof.Machine
end

section
/-! PROOFS. Status and control: END and INT are write 1 to clear (R143, R144). What a CS write that runs no
chain does whole, and what a chain does to END and to the lines. -/

namespace Sys2Proof.Machine

/-! The two write-1-to-clear bits in the steps of a CS write. -/

theorem csBit_end (v old : Word) :
    csBit v old Config.csEnd = (old.getLsbD Config.csEnd && !v.getLsbD Config.csEnd) := by
  unfold csBit
  rw [if_neg (by decide), if_neg (by decide), if_pos (.inl rfl)]

theorem csBit_int (v old : Word) :
    csBit v old Config.csInt = (old.getLsbD Config.csInt && !v.getLsbD Config.csInt) := by
  unfold csBit
  rw [if_neg (by decide), if_neg (by decide), if_pos (.inr rfl)]

/-! A CS write that runs no chain. -/

/-- An engine started on a channel that is not eligible goes straight to its exit (R161, R181). -/
theorem engine_of_not_eligible {c : ChannelId} {s : State} (h : s.eligible c = false) :
    engine c s = .next (exitStep c s) := by
  have hpass : chainPass c s = .ended (exitStep c s) := by
    unfold chainPass
    rw [if_neg (by rw [h]; decide)]
  have hturn : turns c 1 s = .ended (exitStep c s) := by rw [turns, hpass]
  rw [engine_of_turns (n := 1) (by decide) (by rw [hturn]; exact fun _ => nofun), hturn]
  rfl

/-- The exit changes no bit of CS but ACTIVE (R181). -/
theorem exitStep_getLsbD (c : ChannelId) (s : State) {k : Nat} (hk : k ≠ Config.csActive) :
    ((exitStep c s).ch c).cs.getLsbD k = (s.ch c).cs.getLsbD k := by
  rw [exitStep_ch, getLsbD_clearBit, decide_eq_false hk, Bool.not_false, Bool.and_true]

/-- A CS write that starts nothing, or starts a channel that is not eligible, completes; but for ACTIVE it
leaves what its five steps wrote. -/
theorem writeCs_of_noChain {c : ChannelId} {v : Word} {s : State}
    (h : v.getLsbD Config.csActive = false ∨ s.active c = true ∨ s.eligible c = false) :
    ∃ t, writeCs c v s = .next t ∧
      (∀ k, k < 32 → k ≠ Config.csActive →
        (t.ch c).cs.getLsbD k = csBit v (s.ch c).cs k) ∧
      t.ctl.intStatus.getLsbD c.val =
        (s.ctl.intStatus.getLsbD c.val && !v.getLsbD Config.csInt) ∧
      (t.ch c).irq = ((s.ch c).irq && !v.getLsbD Config.csInt) ∧ UnchangedOutside c s t := by
  have hcs := csSteps_cs c v s.begin
  have hint := csSteps_intStatus c v s.begin
  have hirq := csSteps_irq c v s.begin
  have hout := (unchangedOutside_begin c s).trans (unchangedOutside_csSteps c v s.begin)
  by_cases hstart : v.getLsbD Config.csActive = false ∨ s.active c = true
  · exact ⟨_, writeCs_noStart hstart, fun k hk _ => hcs k hk, hint, hirq, hout⟩
  · have he : s.eligible c = false := (or_assoc.2 h).resolve_left hstart
    rw [not_or, Bool.not_eq_false, Bool.not_eq_true] at hstart
    refine ⟨exitStep c (csSteps c v s.begin), ?_, fun k hk hne => ?_, hint, ?_,
      hout.trans (unchangedOutside_exitStep c _)⟩
    · rw [writeCs_start hstart.1 hstart.2]
      exact engine_of_not_eligible ((csSteps_eligible c v s.begin).trans he)
    · rw [exitStep_getLsbD c _ hne]
      exact hcs k hk
    · rw [exitStep_ch]
      exact hirq

/-! What a pass and a chain do to END and to the lines. -/

/-- A pass leaves END set (R170). -/
theorem runBlock_end {g : Geometry} {c : ChannelId} {b : Block} {s t : State}
    (h : runBlock g c b s = .next t) : (t.ch c).cs.getLsbD Config.csEnd = true := by
  obtain ⟨hcs, -⟩ := runBlock_flags h
  rw [hcs]
  split <;> simp [show Config.csEnd < 32 by decide, -BitVec.getLsbD_eq_getElem]

/-- A pass deasserts no line (R170). -/
theorem runBlock_keeps_irq {g : Geometry} {c d : ChannelId} {b : Block} {s t : State}
    (h : runBlock g c b s = .next t) (hd : (s.ch d).irq = true) : (t.ch d).irq = true := by
  obtain ⟨-, hirq, -, -, -, hother, -⟩ := runBlock_flags h
  by_cases hdc : d = c
  · subst hdc
    rw [hirq, hd, Bool.true_or]
  · rw [(hother d hdc).1, hd]

/-- A chain that runs at all leaves END set: its first pass sets it, and no later one clears it. -/
theorem engine_end_of_eligible {c : ChannelId} {s t : State} (h : engine c s = .next t)
    (he : s.eligible c = true) : (t.ch c).cs.getLsbD Config.csEnd = true := by
  obtain ⟨u, hu, hne, rfl⟩ := engine_induct
    (fun u => u.eligible c = true ∨ (u.ch c).cs.getLsbD Config.csEnd = true)
    (fun u w _ _ _ hw => by
      rw [runFetched_eq] at hw
      exact .inr (runBlock_end hw)) (.inl he) h
  rw [exitStep_getLsbD c u (by decide)]
  exact hu.resolve_left (by rw [hne]; decide)

/-- A chain deasserts no line. -/
theorem engine_keeps_irq {c d : ChannelId} {s t : State} (h : engine c s = .next t)
    (hd : (s.ch d).irq = true) : (t.ch d).irq = true := by
  obtain ⟨u, hu, -, rfl⟩ := engine_induct (fun u => (u.ch d).irq = true)
    (fun u w hu _ _ hw => by
      rw [runFetched_eq] at hw
      exact runBlock_keeps_irq hw (show ((fetchStep c u).ch d).irq = true from hu)) hd h
  by_cases hdc : d = c
  · subst hdc
    rw [exitStep_ch]
    exact hu
  · rw [((unchangedOutside_exitStep c u).1 d hdc).1, hu]

/-- A register write that keeps the line of its channel keeps every line. -/
theorem setCh_begin_irq (c d : ChannelId) (s : State) (x : Channel) (hx : x.irq = (s.ch d).irq) :
    ((s.begin.setCh d x).ch c).irq = (s.ch c).irq := by
  by_cases h : c = d
  · subst h
    rw [State.ch_setCh_self, hx]
  · rw [State.ch_setCh_ne _ _ _ _ h, State.begin_ch]

/-- A CS write deasserts a line only by a written INT (R144). -/
theorem int_of_writeCs_irq_falls {c : ChannelId} {v : Word} {s t : State}
    (h : writeCs c v s = .next t) (hs : (s.ch c).irq = true) (ht : (t.ch c).irq = false) :
    v.getLsbD Config.csInt = true := by
  by_contra hv
  rw [Bool.not_eq_true] at hv
  have hsteps : ((csSteps c v s.begin).ch c).irq = true := by
    rw [csSteps_irq, State.begin_ch, hs, hv]
    rfl
  have hkept : (t.ch c).irq = true := by
    obtain rfl | ⟨-, -, hengine⟩ := writeCs_cases h
    · exact hsteps
    · exact engine_keeps_irq hengine hsteps
  exact Bool.false_ne_true (ht.symm.trans hkept)

/-- Whatever is executed, a line falls only by a CS write of its channel with INT written 1 (R144). -/
theorem csWrite_of_exec_irq_falls {i : Instr} {c : ChannelId} {s t : State}
    (h : exec i s = .next t) (hs : (s.ch c).irq = true) (ht : (t.ch c).irq = false) :
    ∃ v, i.IsCsWrite c v ∧ v.getLsbD Config.csInt = true := by
  have hne : (t.ch c).irq ≠ (s.ch c).irq := by rw [hs, ht]; decide
  rcases exec_cases h with ⟨hctl, -⟩ | ⟨v, -, rfl⟩ | ⟨d, v, -, rfl⟩ | ⟨d, v, -, -, rfl⟩ |
    ⟨d, v, hi, -, hw⟩ | ⟨d, b, -, -, g, hb⟩
  · exact (hne (by unfold State.ch; rw [hctl])).elim
  · exact (hne rfl).elim
  · exact (hne (setCh_begin_irq c d s _ rfl)).elim
  · exact (hne (setCh_begin_irq c d s _ rfl)).elim
  · obtain rfl : c = d := by
      by_contra hcd
      exact hne (by rw [((unchangedOutside_writeCs hw).1 c hcd).1])
    exact ⟨v, hi, int_of_writeCs_irq_falls hw hs ht⟩
  · exact (hne ((runBlock_keeps_irq hb hs).trans hs.symm)).elim

/-- Settles O25: without a chain END is what the END step left; with one, what its first pass set. -/
theorem endIsWriteOneToClear : Obligations.EndIsWriteOneToClear := by
  intro i c v s hi
  refine ⟨fun hno => ?_, fun hv hs he t ht => ?_⟩
  · obtain ⟨t, ht, hcs, hint, hirq, -⟩ := writeCs_of_noChain hno
    exact ⟨t, (exec_csWrite hi s).trans ht,
      (hcs _ (by decide) (by decide)).trans (csBit_end _ _), hint, hirq⟩
  · rw [exec_csWrite hi, writeCs_start hv hs] at ht
    exact engine_end_of_eligible ht ((csSteps_eligible c v s.begin).trans he)

/-- Settles O26: the INT step clears the three together, and neither a chain nor any other instruction
deasserts a line. -/
theorem intIsWriteOneToClear : Obligations.IntIsWriteOneToClear := by
  refine ⟨fun c v s => ⟨?_, csSteps_intStatus c v s.begin, csSteps_irq c v s.begin⟩,
    fun i c v s hi hno => ?_, fun i c s t h hs ht => csWrite_of_exec_irq_falls h hs ht⟩
  · exact (csSteps_cs c v s.begin _ (by decide)).trans (csBit_int _ _)
  · obtain ⟨t, ht, hcs, hint, hirq, hout⟩ := writeCs_of_noChain hno
    exact ⟨t, (exec_csWrite hi s).trans ht,
      (hcs _ (by decide) (by decide)).trans (csBit_int _ _), hint, hirq, hout⟩

end Sys2Proof.Machine
end

section
/-! PROOFS. The execution engine: the two control-block forms, whole (R187, R188, R170). Which uses of the
memory port a pass makes and when it completes, then what its copy is in the words of the two rules. -/

namespace Sys2Proof.Machine

/-! A control block as an instruction is one pass of its geometry. -/

theorem exec_cbLinear (c : ChannelId) (b : Block) (s : State) :
    exec (.cbLinear c b) s = runBlock (linearGeometry b) c b s := rfl

theorem exec_cb2D (c : ChannelId) (b : Block) (s : State) :
    exec (.cb2D c b) s = runBlock (planeGeometry b) c b s := rfl

/-- A pass whose rows end and whose accesses are all accepted completes. -/
theorem runBlock_completes {g : Geometry} {c : ChannelId} {b : Block} {s : State}
    (hend : g.rows = 0 ∨ rowSteps g.rowBytes ≠ none)
    (hacc : s.mem.accessor.firstRefusal (passTraffic g b s.mem) = none) :
    ∃ t, runBlock g c b s = .next t := by
  rcases runBlock_outcome g c b s with ⟨hne, -⟩ | ⟨-, ⟨r, hr, -⟩ | ⟨-, hnext⟩⟩
  · exact (hne hend).elim
  · rw [hacc] at hr
    cases hr
  · exact hnext

theorem rowSteps_of_dvd {x : Word} (h : x.toNat % 4 = 0) : rowSteps x = some (x.toNat / 4) :=
  if_pos h

/-! Accepted steps. -/

/-- The accesses of a step whose cursors stand at `src` and `dst` are accepted (R166, R167). -/
def Accessor.AcceptsStep (k : Accessor) (ti src dst : Word) : Prop :=
  (sourceIgnore ti = false → k.accepts .read src = true) ∧
    (destIgnore ti = false → k.accepts .write dst = true)

theorem Accessor.stepRefusal_eq_none {k : Accessor} {ti src dst : Word} {n : Nat} :
    k.stepRefusal ti src dst n = none ↔ k.AcceptsStep ti (cursorAt (sourceIncrement ti) src n)
      (cursorAt (destIncrement ti) dst n) := by
  unfold Accessor.stepRefusal Accessor.AcceptsStep
  rw [Option.or_eq_none_iff]
  cases sourceIgnore ti <;> cases destIgnore ti <;> simp [Accessor.refusal_eq_none]

/-- Where the cursor of step `i` of row `j` stands, if it starts at `a` and rows have `n` steps (R169). -/
def planeCursor (up : Bool) (stride : Word) (n : Nat) (a : Word) (j i : Nat) : Word :=
  cursorAt up (a + BitVec.ofNat 32 j * stride) (j * n + i)

theorem planeCursor_zero (up : Bool) (stride : Word) (n : Nat) (a : Word) (i : Nat) :
    planeCursor up stride n a 0 i = cursorAt up a i := by
  simp [planeCursor]

/-- The later rows are those of a copy that starts where the second row does. -/
theorem planeCursor_succ (up : Bool) (stride : Word) (n : Nat) (a : Word) (j i : Nat) :
    planeCursor up stride n a (j + 1) i =
      planeCursor up stride n (cursorAt up a n + stride) j i := by
  have hrow : BitVec.ofNat 32 (j + 1) * stride = BitVec.ofNat 32 j * stride + stride := by
    rw [BitVec.ofNat_add, BitVec.add_mul, BitVec.one_mul]
  have hstep : 4 * ((j + 1) * n + i) = 4 * n + 4 * (j * n + i) := by ring
  unfold planeCursor cursorAt
  rw [hrow]
  cases up
  · simp only [Bool.false_eq_true, if_false]
    ac_rfl
  · simp only [if_true, hstep, BitVec.ofNat_add]
    ac_rfl

/-- Rows whose steps are all accepted run into no refusal. -/
theorem Accessor.firstRefusal_rowsPort_eq_none {k : Accessor} {ti ss ds : Word} {n rows : Nat}
    {q : Copied}
    (h : ∀ j i, j < rows → i < n → k.AcceptsStep ti (planeCursor (sourceIncrement ti) ss n q.src j i)
      (planeCursor (destIncrement ti) ds n q.dst j i)) :
    k.firstRefusal (q.rowsPort ti ss ds n rows) = none := by
  induction rows generalizing q with
  | zero => rfl
  | succ rows ih =>
    have hfirst : k.firstRefusal (q.stepsPort ti n) = none :=
      Accessor.firstRefusal_stepsPort_eq_none fun i hi => by
        rw [Accessor.stepRefusal_eq_none, ← planeCursor_zero _ ss n, ← planeCursor_zero _ ds n]
        exact h 0 i (Nat.succ_pos rows) hi
    rw [Copied.rowsPort, Accessor.firstRefusal_append, hfirst, Option.none_or]
    split
    · rfl
    · refine ih fun j i hj hi => ?_
      obtain ⟨hsrc, hdst⟩ := Copied.steps_cursors ti n q
      rw [hsrc, hdst, ← planeCursor_succ, ← planeCursor_succ]
      exact h (j + 1) i (Nat.succ_lt_succ hj) hi

/-! `CB.LINEAR` (R187). -/

@[simp] theorem linearGeometry_rows (b : Block) : (linearGeometry b).rows = 1 := rfl

@[simp] theorem linearGeometry_rowBytes (b : Block) : (linearGeometry b).rowBytes = b.len := rfl

theorem Copied.rows_one (ti ss ds : Word) (n : Nat) (q : Copied) :
    q.rows ti ss ds n 1 = q.steps ti n := rfl

theorem passTraffic_linearGeometry {b : Block} (h : b.len.toNat % 4 = 0) (m : Mem) :
    passTraffic (linearGeometry b) b m =
      Copied.stepsPort b.ti (b.len.toNat / 4) ⟨m, b.src, b.dst⟩ := by
  unfold passTraffic
  rw [linearGeometry_rowBytes, rowSteps_of_dvd h]
  rfl

/-- The memory of R187 is that of the steps of the copy. -/
theorem linearMemory_eq_steps (b : Block) (m : Mem) (n : Nat) :
    linearMemory b m n = (Copied.steps b.ti n ⟨m, b.src, b.dst⟩).mem := by
  induction n with
  | zero => rfl
  | succ n ih =>
    obtain ⟨hsrc, hdst⟩ := Copied.steps_cursors b.ti n ⟨m, b.src, b.dst⟩
    rw [Copied.steps_succ, Copied.step, hsrc, hdst, ← ih]
    rfl

/-- A cursor that has run over a count of whole words has moved by the count. -/
theorem cursorAt_count {len : Word} (h : len.toNat % 4 = 0) (up : Bool) (a : Word) :
    cursorAt up a (len.toNat / 4) = a + if up then len else 0 := by
  have hlen : 4 * (len.toNat / 4) = len.toNat := by omega
  rw [cursorAt, hlen, BitVec.ofNat_toNat, BitVec.setWidth_eq]

/-- The length left by a linear block is 0, whether or not it took a step (R168). -/
theorem linear_length_left {b : Block} (h : b.len.toNat % 4 = 0) :
    (if (linearGeometry b).rows = 0 ∨ b.len.toNat / 4 = 0 then b.len
      else packLength (linearGeometry b) 1 0) = 0 := by
  split
  next hnone =>
    have hsteps : b.len.toNat / 4 = 0 := hnone.resolve_left Nat.one_ne_zero
    have hlen : b.len.toNat = 0 := by omega
    exact BitVec.eq_of_toNat_eq hlen
  next => rfl

theorem exec_cbLinear_completes (c : ChannelId) {b : Block} {s : State} (h : b.len.toNat % 4 = 0)
    (hacc : LinearAccepted s.mem.accessor b) : ∃ t, exec (.cbLinear c b) s = .next t := by
  have hend : rowSteps (linearGeometry b).rowBytes ≠ none := by
    rw [linearGeometry_rowBytes, rowSteps_of_dvd h]
    exact Option.some_ne_none _
  refine runBlock_completes (.inr hend) ?_
  rw [passTraffic_linearGeometry h]
  exact Accessor.firstRefusal_stepsPort_eq_none fun i hi =>
    Accessor.stepRefusal_eq_none.2 (hacc i hi)

/-- Settles O34: the pass completes, and the one row of its copy is the loop of R187. -/
theorem linearBlockCompletes : Obligations.LinearBlockCompletes := by
  intro c b s h hacc
  obtain ⟨t, ht⟩ := exec_cbLinear_completes c h hacc
  obtain ⟨n, hn, -, hmem, hch, hint, -, -, -, -, hout⟩ :=
    runBlock_next ((exec_cbLinear c b s).symm.trans ht)
  rw [linearGeometry_rowBytes, rowSteps_of_dvd h, Option.getD_some] at hn
  subst hn
  rw [linearGeometry_rows, Copied.rows_one] at hmem
  refine ⟨t, ht, by rw [hmem, linearMemory_eq_steps], ?_, hint, hout⟩
  obtain ⟨hsrc, hdst⟩ := Copied.steps_cursors b.ti (b.len.toNat / 4) ⟨s.mem, b.src, b.dst⟩
  rw [hch, linear_length_left h, linearGeometry_rows, Copied.rows_one,
    Channel.withCopied, hsrc, hdst, cursorAt_count h, cursorAt_count h]
  rfl

/-! `CB.2D` (R188). -/

@[simp] theorem planeGeometry_rows (b : Block) : (planeGeometry b).rows = planeRows b := rfl

theorem planeGeometry_rowBytes_toNat (b : Block) :
    (planeGeometry b).rowBytes.toNat = planeBytes b := by
  have := (b.len.extractLsb' 0 16).isLt
  simp only [planeGeometry, planeBytes, BitVec.toNat_setWidth]
  omega

theorem rowSteps_planeGeometry {b : Block} (h : planeBytes b % 4 = 0) :
    rowSteps (planeGeometry b).rowBytes = some (planeBytes b / 4) := by
  rw [← planeGeometry_rowBytes_toNat] at h ⊢
  exact rowSteps_of_dvd h

/-- The rows of a 2D block end if it has none or they are of whole words (R183, R184). -/
theorem planeGeometry_ends {b : Block} (h : planeRows b = 0 ∨ planeBytes b % 4 = 0) :
    (planeGeometry b).rows = 0 ∨ rowSteps (planeGeometry b).rowBytes ≠ none :=
  h.imp_right fun hbytes => by
    rw [rowSteps_planeGeometry hbytes]
    exact Option.some_ne_none _

theorem passTraffic_planeGeometry {b : Block} (h : planeRows b = 0 ∨ planeBytes b % 4 = 0) (m : Mem) :
    passTraffic (planeGeometry b) b m = planeTraffic b m := by
  unfold passTraffic planeTraffic
  rw [planeGeometry_rows]
  obtain hrows | hbytes := h
  · rw [hrows]
    rfl
  · rw [rowSteps_planeGeometry hbytes]
    rfl

/-- The rows the pass copies are those of R188; with no row the count of steps says nothing. -/
theorem rows_planeGeometry {b : Block} (h : planeRows b = 0 ∨ planeBytes b % 4 = 0) (q : Copied) :
    Copied.rows b.ti (planeGeometry b).srcStride (planeGeometry b).dstStride
        ((rowSteps (planeGeometry b).rowBytes).getD 0) (planeGeometry b).rows q =
      Copied.rows b.ti (planeSourceStride b) (planeDestStride b) (planeBytes b / 4)
        (planeRows b) q := by
  rw [planeGeometry_rows]
  obtain hrows | hbytes := h
  · rw [hrows]
    rfl
  · rw [rowSteps_planeGeometry hbytes]
    rfl

/-- The length left by a 2D block: one row of no byte after a step, else the length fetched (R168, R185). -/
theorem plane_length_left {b : Block} (h : planeRows b = 0 ∨ planeBytes b % 4 = 0) :
    (if (planeGeometry b).rows = 0 ∨ (rowSteps (planeGeometry b).rowBytes).getD 0 = 0 then b.len
      else packLength (planeGeometry b) 1 0) =
    if 0 < planeRows b ∧ 0 < planeBytes b / 4 then 0x00010000#32 else b.len := by
  rw [planeGeometry_rows,
    show packLength (planeGeometry b) 1 0 = 0x00010000#32 from rfl]
  by_cases hrows : planeRows b = 0
  · rw [if_pos (.inl hrows), if_neg (by omega)]
  · rw [rowSteps_planeGeometry (h.resolve_left hrows), Option.getD_some]
    by_cases hsteps : planeBytes b / 4 = 0
    · rw [if_pos (.inr hsteps), if_neg (by omega)]
    · rw [if_neg (by omega), if_pos (by omega)]

theorem exec_cb2D_completes (c : ChannelId) {b : Block} {s : State}
    (h : planeRows b = 0 ∨ planeBytes b % 4 = 0) (hacc : PlaneAccepted s.mem.accessor b) :
    ∃ t, exec (.cb2D c b) s = .next t := by
  refine runBlock_completes (planeGeometry_ends h) ?_
  rw [passTraffic_planeGeometry h]
  exact Accessor.firstRefusal_rowsPort_eq_none hacc

/-- Settles O35: the pass completes, and the rows of its copy are the loops of R188. -/
theorem planeBlockCompletes : Obligations.PlaneBlockCompletes := by
  intro c b s h hacc
  obtain ⟨t, ht⟩ := exec_cb2D_completes c h hacc
  obtain ⟨n, rfl, -, hmem, hch, hint, -, -, -, -, hout⟩ :=
    runBlock_next ((exec_cb2D c b s).symm.trans ht)
  rw [rows_planeGeometry h] at hmem hch
  rw [plane_length_left h] at hch
  exact ⟨t, _, rfl, ht, hmem, hch, hint, hout⟩

/-! The flags of a completed block (R170). -/

/-- The flag word of the block stays cached in TI (R162). -/
theorem runBlock_ti {g : Geometry} {c : ChannelId} {b : Block} {s t : State}
    (h : runBlock g c b s = .next t) : (t.ch c).ti = b.ti := by
  obtain ⟨n, -, -, -, hch, -⟩ := runBlock_next h
  rw [hch]
  rfl

/-- A pass sets INT by the INTEN of its block and does not clear it. -/
theorem runBlock_int {g : Geometry} {c : ChannelId} {b : Block} {s t : State}
    (h : runBlock g c b s = .next t) : (t.ch c).cs.getLsbD Config.csInt =
      ((s.ch c).cs.getLsbD Config.csInt || interruptEnable b.ti) := by
  have hne : Config.csInt ≠ Config.csEnd := by decide
  have hlt : Config.csInt < 32 := by decide
  obtain ⟨hcs, -⟩ := runBlock_flags h
  rw [hcs]
  cases interruptEnable b.ti <;> simp [hne, hlt, -BitVec.getLsbD_eq_getElem]

/-- A block of length 0 copies nothing and completes, in both forms (R184). -/
theorem exec_completes_of_len_zero {i : Instr} {c : ChannelId} {b : Block} (s : State)
    (hi : i = .cbLinear c b ∨ i = .cb2D c b) (h : b.len = 0) : ∃ t, exec i s = .next t := by
  obtain rfl | rfl := hi
  · have hlen : b.len.toNat = 0 := by rw [h]; rfl
    exact exec_cbLinear_completes c (by omega) fun i hi => by omega
  · have hrows : planeRows b = 0 := by rw [planeRows, h]; rfl
    exact exec_cb2D_completes c (.inl hrows) fun j i hj => by omega

/-- Settles O36: both forms are a pass, and the completion of a pass sets the flags. -/
theorem completionSetsTheFlags : Obligations.CompletionSetsTheFlags := by
  intro i c b s hi
  refine ⟨exec_completes_of_len_zero s hi, fun t ht => ?_⟩
  obtain ⟨g, hg⟩ : ∃ g, runBlock g c b s = .next t := by
    obtain rfl | rfl := hi
    · exact ⟨_, (exec_cbLinear c b s).symm.trans ht⟩
    · exact ⟨_, (exec_cb2D c b s).symm.trans ht⟩
  obtain ⟨-, hirq, hint, -⟩ := runBlock_flags hg
  exact ⟨runBlock_ti hg, runBlock_end hg, runBlock_int hg, hint, hirq⟩

end Sys2Proof.Machine
end

section
/-! PROOFS. Exceptions: a pending interrupt is cleared only by its acknowledge (R213). What everything else
executed keeps of a source's three places, then what the acknowledge and the reset leave of them. -/

namespace Sys2Proof.Machine

/-! Keeping a source pending. -/

/-- No place in which source `c` is pending in `s` has fallen in `t` (R212). -/
structure KeepsPending (c : ChannelId) (s t : State) : Prop where
  int : (s.ch c).cs.getLsbD Config.csInt = true → (t.ch c).cs.getLsbD Config.csInt = true
  status : s.ctl.intStatus.getLsbD c.val = true → t.ctl.intStatus.getLsbD c.val = true
  line : (s.ch c).irq = true → (t.ch c).irq = true

theorem KeepsPending.trans {c : ChannelId} {s t u : State} (h : KeepsPending c s t)
    (k : KeepsPending c t u) : KeepsPending c s u :=
  ⟨k.int ∘ h.int, k.status ∘ h.status, k.line ∘ h.line⟩

theorem KeepsPending.of_eq {c : ChannelId} {s t : State} (hch : t.ch c = s.ch c)
    (hint : t.ctl.intStatus.getLsbD c.val = s.ctl.intStatus.getLsbD c.val) :
    KeepsPending c s t := by
  constructor
  · rw [hch]; exact id
  · rw [hint]; exact id
  · rw [hch]; exact id

theorem KeepsPending.of_ctl_eq {c : ChannelId} {s t : State} (h : t.ctl = s.ctl) :
    KeepsPending c s t :=
  .of_eq (by rw [State.ch, h, State.ch]) (by rw [h])

theorem KeepsPending.refl (c : ChannelId) (s : State) : KeepsPending c s s := .of_ctl_eq rfl

/-- What touches another channel only keeps the source (R34). -/
theorem UnchangedOutside.keepsPending {c d : ChannelId} {s t : State} (h : UnchangedOutside d s t)
    (hcd : c ≠ d) : KeepsPending c s t := by
  obtain ⟨hother, -⟩ := h
  obtain ⟨hch, hint⟩ := hother c hcd
  exact .of_eq hch hint

/-- What has fallen in a place has not kept the source. -/
theorem KeepsPending.not_fallen {c : ChannelId} {s t : State} (h : KeepsPending c s t) :
    ¬ ((s.ch c).cs.getLsbD Config.csInt = true ∧ (t.ch c).cs.getLsbD Config.csInt = false ∨
      s.ctl.intStatus.getLsbD c.val = true ∧ t.ctl.intStatus.getLsbD c.val = false ∨
      (s.ch c).irq = true ∧ (t.ch c).irq = false) := by
  rintro (⟨hs, ht⟩ | ⟨hs, ht⟩ | ⟨hs, ht⟩)
  · exact Bool.false_ne_true (ht.symm.trans (h.int hs))
  · exact Bool.false_ne_true (ht.symm.trans (h.status hs))
  · exact Bool.false_ne_true (ht.symm.trans (h.line hs))

/-! What keeps every source. -/

/-- A register write that leaves CS and the line of its channel alone. -/
theorem keepsPending_setCh_begin (c d : ChannelId) (s : State) (x : Channel)
    (hcs : x.cs = (s.ch d).cs) (hirq : x.irq = (s.ch d).irq) :
    KeepsPending c s (s.begin.setCh d x) := by
  by_cases hcd : c = d
  · subst hcd
    constructor
    · rw [State.ch_setCh_self, hcs]; exact id
    · exact id
    · rw [State.ch_setCh_self, hirq]; exact id
  · exact ((unchangedOutside_begin d s).trans (unchangedOutside_setCh d x _)).keepsPending hcd

/-- A pass over a control block can only raise an interrupt (R170). -/
theorem runBlock_keepsPending {g : Geometry} {c d : ChannelId} {b : Block} {s t : State}
    (h : runBlock g d b s = .next t) : KeepsPending c s t := by
  obtain ⟨-, -, hint, -, -, hother⟩ := runBlock_flags h
  by_cases hcd : c = d
  · subst hcd
    constructor
    · intro hs
      rw [runBlock_int h, hs, Bool.true_or]
    · intro hs
      rw [hint, hs, Bool.true_or]
    · exact runBlock_keeps_irq h
  · exact hother.keepsPending hcd

/-- The exit of the engine clears ACTIVE only (R181). -/
theorem exitStep_keepsPending (c d : ChannelId) (s : State) : KeepsPending c s (exitStep d s) := by
  by_cases hcd : c = d
  · subst hcd
    constructor
    · rw [exitStep_getLsbD c s (by decide)]; exact id
    · exact id
    · rw [exitStep_ch]; exact id
  · exact (unchangedOutside_exitStep d s).keepsPending hcd

/-- A whole chain keeps every source: each turn is a pass, and the exit follows. -/
theorem engine_keepsPending {c d : ChannelId} {s t : State} (h : engine d s = .next t) :
    KeepsPending c s t := by
  obtain ⟨u, hu, -, rfl⟩ := engine_induct (fun u => KeepsPending c s u)
    (fun u w hu _ _ hw => by
      rw [runFetched_eq] at hw
      have hfetch : KeepsPending c u (fetchStep d u) := .of_ctl_eq rfl
      exact (hu.trans hfetch).trans (runBlock_keepsPending hw)) (.refl c s) h
  exact hu.trans (exitStep_keepsPending c d u)

/-- The INT step of a CS write clears nothing unless INT is written, and no other step touches the three
places (R144). -/
theorem csSteps_keepsPending {c : ChannelId} {v : Word} (s : State)
    (hv : v.getLsbD Config.csInt = false) : KeepsPending c s (csSteps c v s) := by
  constructor
  · intro hs
    rw [csSteps_cs c v s _ (by decide), csBit_int, hs, hv]
    rfl
  · intro hs
    rw [csSteps_intStatus, hs, hv]
    rfl
  · intro hs
    rw [csSteps_irq, hs, hv]
    rfl

/-- A CS write that does not write INT, with the chain it may run. -/
theorem writeCs_keepsPending {c : ChannelId} {v : Word} {s t : State}
    (h : writeCs c v s = .next t) (hv : v.getLsbD Config.csInt = false) : KeepsPending c s t := by
  have hbegin : KeepsPending c s s.begin := .of_ctl_eq rfl
  have hsteps := hbegin.trans (csSteps_keepsPending s.begin hv)
  obtain rfl | ⟨-, -, hengine⟩ := writeCs_cases h
  · exact hsteps
  · exact hsteps.trans (engine_keepsPending hengine)

/-- Whatever is executed keeps source `c` pending, but the acknowledge of channel `c` (R213). -/
theorem exec_keepsPending_or_acknowledge {i : Instr} {c : ChannelId} {s t : State}
    (h : exec i s = .next t) :
    KeepsPending c s t ∨ ∃ v, i.IsCsWrite c v ∧ v.getLsbD Config.csInt = true := by
  rcases exec_cases h with ⟨hctl, -⟩ | ⟨v, -, rfl⟩ | ⟨d, v, -, rfl⟩ | ⟨d, v, -, -, rfl⟩ |
    ⟨d, v, hi, -, hw⟩ | ⟨d, b, -, -, g, hb⟩
  · exact .inl (.of_ctl_eq hctl)
  · exact .inl ⟨id, id, id⟩
  · exact .inl (keepsPending_setCh_begin c d s _ rfl rfl)
  · exact .inl (keepsPending_setCh_begin c d s _ rfl rfl)
  · by_cases hcd : c = d
    · subst hcd
      cases hv : v.getLsbD Config.csInt
      · exact .inl (writeCs_keepsPending hw hv)
      · exact .inr ⟨v, hi, hv⟩
    · exact .inl ((unchangedOutside_writeCs hw).keepsPending hcd)
  · exact .inl (runBlock_keepsPending hb)

/-! What clears a source. -/

theorem State.pending_eq_false {s : State} {c : ChannelId} : s.pending c = false ↔
    (s.ch c).cs.getLsbD Config.csInt = false ∧ s.ctl.intStatus.getLsbD c.val = false ∧
      (s.ch c).irq = false := by
  rw [State.pending, Bool.or_eq_false_iff, Bool.or_eq_false_iff, and_assoc]

/-- An acknowledge that runs no chain leaves its source clear in all three places (R144, R217). -/
theorem writeCs_acknowledges {c : ChannelId} {v : Word} (s : State)
    (hint : v.getLsbD Config.csInt = true) (hactive : v.getLsbD Config.csActive = false) :
    ∃ t, writeCs c v s = .next t ∧ t.pending c = false := by
  obtain ⟨t, ht, hcs, hstatus, hirq, -⟩ := writeCs_of_noChain (c := c) (s := s) (.inl hactive)
  refine ⟨t, ht, State.pending_eq_false.2 ⟨?_, ?_, ?_⟩⟩
  · rw [hcs _ (by decide) (by decide), csBit_int, hint, Bool.not_true, Bool.and_false]
  · rw [hstatus, hint, Bool.not_true, Bool.and_false]
  · rw [hirq, hint, Bool.not_true, Bool.and_false]

theorem Controller.afterReset_ch (other : Vector (Vector Word 7) 16) (c : ChannelId) :
    (Controller.afterReset other).ch c = Channel.afterReset other[c] := by
  simp [Controller.ch, Controller.afterReset]

theorem resetController_ch (s : State) (c : ChannelId) :
    (resetController s).ch c = Channel.afterReset (resetDraws s.draws)[c] :=
  Controller.afterReset_ch _ c

/-- The controller's reset leaves no source pending, whatever the unspecified registers draw (R230). -/
theorem resetController_not_pending (s : State) (c : ChannelId) :
    (resetController s).pending c = false := by
  have hstatus : (resetController s).ctl.intStatus = 0 := rfl
  rw [State.pending_eq_false, resetController_ch, hstatus]
  exact ⟨BitVec.getLsbD_zero, BitVec.getLsbD_zero, rfl⟩

theorem step_of_reset {s : State} {rest : List Event} (h : s.inbox = .reset :: rest) :
    step s = .next (resetController { s with inbox := rest }) := by
  unfold step runNext
  rw [h]
  rfl

/-- Settles O53: what is not the acknowledge keeps the source in each of its places; the acknowledge and the
reset clear them all. -/
theorem onlyTheAcknowledgeClearsAnInterrupt : Obligations.OnlyTheAcknowledgeClearsAnInterrupt := by
  refine ⟨fun i c s t h hfallen => ?_, fun i c v s hi hint hactive => ?_, fun s rest h => ?_⟩
  · exact (exec_keepsPending_or_acknowledge h).resolve_left fun hkept => hkept.not_fallen hfallen
  · rw [exec_csWrite hi]
    exact writeCs_acknowledges s hint hactive
  · exact ⟨_, step_of_reset h, resetController_not_pending _⟩

end Sys2Proof.Machine
end

section
/-! PROOFS. Encodings: the decoder and the encoder are inverse (R60 to R64, R70, R71), and every access of 4
bytes inside its window is the operation the register map gives it (R63 to R65, R91 to R97). -/

namespace Sys2Proof.Machine

section
open Sys2Proof.Laws.DecodeEncode

/-- Settles O1: the family `DecodeEncode`, one lemma for each row. -/
theorem decodeOfEncodeGivesTheInstruction : Obligations.DecodeOfEncodeGivesTheInstruction := by
  intro i
  cases i with
  | rdIntStatus => exact rdIntStatus
  | wrIntStatus v => exact wrIntStatus v
  | rdEnable => exact rdEnable
  | wrEnable v => exact wrEnable v
  | rdInvalidAG r => exact rdInvalidAG r
  | wrInvalidAG r v => exact wrInvalidAG r v
  | rdCsAC c => exact rdCsAC c
  | rdCsBC => exact rdCsBC
  | wrCsAC c v => exact wrCsAC c v
  | wrCsBC v => exact wrCsBC v
  | rdConblkAdAC c => exact rdConblkAdAC c
  | rdConblkAdBC => exact rdConblkAdBC
  | wrConblkAdAC c v => exact wrConblkAdAC c v
  | wrConblkAdBC v => exact wrConblkAdBC v
  | rdTiAC c => exact rdTiAC c
  | rdTiBC => exact rdTiBC
  | wrTiAC c v => exact wrTiAC c v
  | wrTiBC v => exact wrTiBC v
  | rdSourceAdAC c => exact rdSourceAdAC c
  | rdSourceAdBC => exact rdSourceAdBC
  | wrSourceAdAC c v => exact wrSourceAdAC c v
  | wrSourceAdBC v => exact wrSourceAdBC v
  | rdDestAdAC c => exact rdDestAdAC c
  | rdDestAdBC => exact rdDestAdBC
  | wrDestAdAC c v => exact wrDestAdAC c v
  | wrDestAdBC v => exact wrDestAdBC v
  | rdTxfrLenAC c => exact rdTxfrLenAC c
  | rdTxfrLenBC => exact rdTxfrLenBC
  | wrTxfrLenAC c v => exact wrTxfrLenAC c v
  | wrTxfrLenBC v => exact wrTxfrLenBC v
  | rdStrideAC c => exact rdStrideAC c
  | rdStrideBC => exact rdStrideBC
  | wrStrideAC c v => exact wrStrideAC c v
  | wrStrideBC v => exact wrStrideBC v
  | rdNextconbkAC c => exact rdNextconbkAC c
  | rdNextconbkBC => exact rdNextconbkBC
  | wrNextconbkAC c v => exact wrNextconbkAC c v
  | wrNextconbkBC v => exact wrNextconbkBC v
  | rdDebugAC c => exact rdDebugAC c
  | rdDebugBC => exact rdDebugBC
  | wrDebugAC c v => exact wrDebugAC c v
  | wrDebugBC v => exact wrDebugBC v
  | rdInvalidANY c r => exact rdInvalidANY c r
  | wrInvalidANY c r v => exact wrInvalidANY c r v
  | cbLinear c b => exact cbLinear c b
  | cb2D c b => exact cb2D c b

end

/-! The keys inside their windows. -/

/-- An offset is its high four bits over its low eight. -/
theorem offset_eq_append (o : BitVec 12) : o = o.extractLsb' 8 4 ++ o.extractLsb' 0 8 := by
  apply BitVec.eq_of_getLsbD_eq
  intro i hi
  rw [getLsbD_slotOffset, BitVec.getLsbD_extractLsb', BitVec.getLsbD_extractLsb']
  split
  next h => simp [h, -BitVec.getLsbD_eq_getElem]
  next h =>
    have hlt : i - 8 < 4 := by omega
    simp [hlt, show 8 + (i - 8) = i by omega, -BitVec.getLsbD_eq_getElem]

theorem extractLsb'_high_toNat (o : BitVec 12) : (o.extractLsb' 8 4).toNat = o.toNat / 256 := by
  have := o.isLt
  rw [BitVec.extractLsb'_toNat, Nat.shiftRight_eq_div_pow]
  omega

theorem extractLsb'_low_toNat (o : BitVec 12) : (o.extractLsb' 0 8).toNat = o.toNat % 256 := by
  rw [BitVec.extractLsb'_toNat, Nat.shiftRight_zero]

/-- The key is that of register offset `r` of a slot of window A, of window A offset `0xF00 + r`, or of window
B (R61, R62). -/
def KeyOf (d : Dir) (r : BitVec 8) (key : BitVec 14) : Prop :=
  (∃ c, key = keyAC d c r) ∨ key = keyAG d r ∨ key = keyBC d r

theorem keyOf_accessKey_a (d : Dir) (h : BitVec 4) (r : BitVec 8) :
    KeyOf d r (accessKey .a d (h ++ r)) := by
  by_cases hc : h.toNat < 15
  · refine .inl ⟨⟨h.toNat, hc⟩, ?_⟩
    rw [keyAC, BitVec.ofNat_toNat, BitVec.setWidth_eq]
  · have hF : h = 0xF#4 := BitVec.eq_of_toNat_eq (by have := h.isLt; show h.toNat = 15; omega)
    exact .inr (.inl (by rw [hF, keyAG]))

/-- Every offset inside its window has such a key. -/
theorem keyOf_accessKey {w : Window} {o : BitVec 12} (h : o.toNat < w.size) (d : Dir) :
    KeyOf d (o.extractLsb' 0 8) (accessKey w d o) := by
  rw [show accessKey w d o = accessKey w d (o.extractLsb' 8 4 ++ o.extractLsb' 0 8) from
    congrArg _ (offset_eq_append o)]
  cases w with
  | a => exact keyOf_accessKey_a d _ _
  | b =>
    have hlt : o.toNat < 256 := h
    have h0 : o.extractLsb' 8 4 = 0#4 := BitVec.eq_of_toNat_eq (by
      rw [extractLsb'_high_toNat]
      show o.toNat / 256 = 0
      omega)
    exact .inr (.inr (by rw [h0, keyBC]))

theorem KeyOf.dir {d : Dir} {r : BitVec 8} {key : BitVec 14} (h : KeyOf d r key) :
    key.getLsbD 12 = d.bit := by
  obtain ⟨c, rfl⟩ | rfl | rfl := h
  · exact keyAC_dir d c r
  · exact keyAG_dir d r
  · exact keyBC_dir d r

/-- A key the decoder reads an instruction from lies inside its window (R60). -/
theorem keyOf_of_decodeKey {key : BitVec 14} {v : Word} {i : Instr} (h : decodeKey key v = .ok i) :
    ∃ d r, KeyOf d r key := by
  rw [key_eq_accessKey key]
  by_cases hB : key.getLsbD 13 = true
  · have h0 : key.extractLsb' 8 4 = 0#4 := by
      by_contra hne
      have hnat : (key.extractLsb' 8 4).toNat ≠ 0 := fun e => hne (BitVec.eq_of_toNat_eq e)
      unfold decodeKey at h
      simp only [hB, if_true, if_neg hnat] at h
      cases h
    rw [if_pos hB, h0]
    exact ⟨_, _, .inr (.inr rfl)⟩
  · rw [if_neg hB]
    exact ⟨_, _, keyOf_accessKey_a _ _ _⟩

/-- The decoder reads a well-formed instruction from the key and the data, and it encodes back to them, but
for the data of a read. -/
def DecodesBack (d : Dir) (key : BitVec 14) (v : Word) : Prop :=
  ∃ i, decodeKey key v = .ok i ∧ i.wf = true ∧
    encode i = .access key (match d with
      | .read => 0
      | .write => v)

theorem KeyOf.decodesBack {d : Dir} {r : BitVec 8} {key : BitVec 14} (h : KeyOf d r key) (v : Word) :
    DecodesBack d key v := by
  obtain ⟨c, rfl⟩ | rfl | rfl := h
  · cases d with
    | read => exact ⟨_, decodeKey_keyAC _ c r v, encode_decodeReadAC c r⟩
    | write => exact ⟨_, decodeKey_keyAC _ c r v, encode_decodeWriteAC c r v⟩
  · cases d with
    | read => exact ⟨_, decodeKey_keyAG _ r v, encode_decodeReadAG r⟩
    | write => exact ⟨_, decodeKey_keyAG _ r v, encode_decodeWriteAG r v⟩
  · cases d with
    | read => exact ⟨_, decodeKey_keyBC _ r v, encode_decodeReadBC r⟩
    | write => exact ⟨_, decodeKey_keyBC _ r v, encode_decodeWriteBC r v⟩

theorem isRead_of_encode {i : Instr} {key : BitVec 14} {v : Word} (h : encode i = .access key v) :
    i.isRead = !key.getLsbD 12 := by
  rw [Instr.isRead, h]

theorem wf_decodeBlock (c : ChannelId) (b : Block) : (decodeBlock c b).wf = true := by
  unfold decodeBlock
  split <;> simp_all [Instr.wf]

theorem encode_decodeBlock (c : ChannelId) (b : Block) : encode (decodeBlock c b) = .block c b := by
  unfold decodeBlock
  split <;> rfl

/-- Settles O2: a key that decodes is one of the register map's keys, whose decoding encodes back. -/
theorem encodeOfDecodeGivesTheKey : Obligations.EncodeOfDecodeGivesTheKey := by
  intro e i h
  cases e with
  | block c b =>
    cases h
    exact ⟨wf_decodeBlock c b, encode_decodeBlock c b⟩
  | access key v =>
    obtain ⟨d, r, hkey⟩ := keyOf_of_decodeKey h
    obtain ⟨j, hj, hwf, henc⟩ := hkey.decodesBack v
    cases h.symm.trans hj
    refine ⟨hwf, _, henc, fun hread => ?_⟩
    rw [isRead_of_encode henc, hkey.dir] at hread
    cases d with
    | read => cases hread
    | write => rfl

/-! Accesses of 4 bytes. -/

theorem decodeAccess_of_size {a : Access} (h : a.size = 4) :
    decodeAccess a = decodeKey (accessKey a.window a.dir a.offset) a.data :=
  if_pos h

/-- Settles O3: the key of the access is one of the register map's. -/
theorem everyAccessDecodes : Obligations.EveryAccessDecodes := by
  intro a hsize hlt
  have hkey := keyOf_accessKey hlt a.dir
  obtain ⟨i, hi, hwf, henc⟩ := hkey.decodesBack a.data
  refine ⟨i, (decodeAccess_of_size hsize).trans hi, hwf, ?_⟩
  rw [isRead_of_encode henc, hkey.dir]
  cases a.dir <;> simp [Dir.bit]

/-! The operations that do nothing. -/

theorem ignored_of_next_begin {i : Instr} {s : State} (h : exec i s = .next s.begin) : Ignored i s :=
  ⟨_, h, rfl, rfl, rfl, rfl, rfl, rfl⟩

theorem ignored_of_next_diag {i : Instr} {s : State} {g : Diag}
    (h : exec i s = .next (s.begin.diag g)) : Ignored i s :=
  ⟨_, h, rfl, rfl, rfl, rfl, rfl, rfl⟩

theorem returns_rdInvalidAG (r : BitVec 8) (s : State) : Returns (.rdInvalidAG r) s 0 :=
  returns_of_readInvalid rfl

theorem returns_rdInvalidANY (c : ChannelId) (r : BitVec 8) (s : State) :
    Returns (.rdInvalidANY c r) s 0 :=
  returns_of_readInvalid rfl

theorem ignored_wrInvalidAG (r : BitVec 8) (v : Word) (s : State) : Ignored (.wrInvalidAG r v) s :=
  ignored_of_next_diag rfl

theorem ignored_wrInvalidANY (c : ChannelId) (r : BitVec 8) (v : Word) (s : State) :
    Ignored (.wrInvalidANY c r v) s :=
  ignored_of_next_diag rfl

/-- A read returns 0 and a write does nothing, in every state (R94, R95). -/
def DoesNothing (d : Dir) (i : Instr) : Prop :=
  (d = .read → ∀ s, Returns i s 0) ∧ (d = .write → ∀ s, Ignored i s)

theorem decodeReadAG_invalid {r : BitVec 8} (h : definedGlobal r = false) :
    decodeReadAG r = .rdInvalidAG r := by
  obtain ⟨h1, h2⟩ : r ≠ 0xE0#8 ∧ r ≠ 0xF0#8 := by simpa [definedGlobal] using h
  rw [decodeReadAG, if_neg h1, if_neg h2]

theorem decodeWriteAG_invalid {r : BitVec 8} (h : definedGlobal r = false) (v : Word) :
    decodeWriteAG r v = .wrInvalidAG r v := by
  obtain ⟨h1, h2⟩ : r ≠ 0xE0#8 ∧ r ≠ 0xF0#8 := by simpa [definedGlobal] using h
  rw [decodeWriteAG, if_neg h1, if_neg h2]

/-- Where no register and no global begins, the operation does nothing (R65, R94, R95). -/
theorem KeyOf.doesNothing {d : Dir} {r : BitVec 8} {key : BitVec 14} (h : KeyOf d r key)
    (ho : definedOffset r = false) (hg : definedGlobal r = false) (v : Word) :
    ∃ i, decodeKey key v = .ok i ∧ DoesNothing d i := by
  obtain ⟨c, rfl⟩ | rfl | rfl := h
  · refine ⟨_, decodeKey_keyAC d c r v, ?_⟩
    cases d with
    | read =>
      simp only [decodeReadAC_invalid ho]
      exact ⟨fun _ => returns_rdInvalidANY _ r, nofun⟩
    | write =>
      simp only [decodeWriteAC_invalid ho]
      exact ⟨nofun, fun _ => ignored_wrInvalidANY _ r v⟩
  · refine ⟨_, decodeKey_keyAG d r v, ?_⟩
    cases d with
    | read =>
      simp only [decodeReadAG_invalid hg]
      exact ⟨fun _ => returns_rdInvalidAG r, nofun⟩
    | write =>
      simp only [decodeWriteAG_invalid hg]
      exact ⟨nofun, fun _ => ignored_wrInvalidAG r v⟩
  · refine ⟨_, decodeKey_keyBC d r v, ?_⟩
    cases d with
    | read =>
      simp only [decodeReadBC_invalid ho]
      exact ⟨fun _ => returns_rdInvalidANY _ r, nofun⟩
    | write =>
      simp only [decodeWriteBC_invalid ho]
      exact ⟨nofun, fun _ => ignored_wrInvalidANY _ r v⟩

/-- The registers and the globals begin at multiples of 4 (R63, R64). -/
theorem not_defined_of_unaligned {r : BitVec 8} (h : r.toNat % 4 ≠ 0) :
    definedOffset r = false ∧ definedGlobal r = false := by
  have hne : ∀ x : BitVec 8, x.toNat % 4 = 0 → r ≠ x := fun x hx e => h (e ▸ hx)
  constructor
  · simp only [definedOffset, List.contains_eq_mem, decide_eq_false_iff_not, List.mem_cons,
      List.not_mem_nil, or_false, not_or]
    refine ⟨?_, ?_, ?_, ?_, ?_, ?_, ?_, ?_, ?_⟩ <;> exact hne _ rfl
  · simp only [definedGlobal, Bool.or_eq_false_iff, beq_eq_false_iff_ne]
    exact ⟨hne _ rfl, hne _ rfl⟩

/-- Settles O7: no register begins at the low eight bits of the offset. -/
theorem unalignedOffsetsMatchNoRegister : Obligations.UnalignedOffsetsMatchNoRegister := by
  intro a hsize hlt halign
  obtain ⟨ho, hg⟩ := not_defined_of_unaligned (r := a.offset.extractLsb' 0 8) (by
    rw [extractLsb'_low_toNat]
    omega)
  obtain ⟨i, hi, hnothing⟩ := (keyOf_accessKey hlt a.dir).doesNothing ho hg a.data
  exact ⟨i, (decodeAccess_of_size hsize).trans hi, hnothing⟩

/-- Settles O6: below 0xE0 stands no global. -/
theorem windowAGapIsNotChannel15 : Obligations.WindowAGapIsNotChannel15 := by
  intro r v hr
  have hg : definedGlobal r = false := by
    simp only [definedGlobal, Bool.or_eq_false_iff, beq_eq_false_iff_ne]
    constructor <;> rintro rfl <;> exact absurd hr (by decide)
  refine ⟨?_, ?_, fun s => ⟨returns_rdInvalidAG r s, ignored_wrInvalidAG r v s⟩⟩
  · exact (decodeKey_keyAG .read r v).trans (congrArg _ (decodeReadAG_invalid hg))
  · exact (decodeKey_keyAG .write r v).trans (congrArg _ (decodeWriteAG_invalid hg v))

/-- Settles O4: each word by evaluation. -/
theorem specWordsDecode : Obligations.SpecWordsDecode := by
  refine ⟨?_, ?_, ?_, ?_, ?_, ?_, ?_, ?_, ?_, ?_, ?_, ?_⟩ <;> decide

/-- Settles O5: the tables of the two windows and of the globals, line by line. -/
theorem accessesDecodeByTheRegisterMap : Obligations.AccessesDecodeByTheRegisterMap := by
  intro c v
  have slot := fun d r => decodeKey_keyAC d c r v
  have windowB := fun d r => decodeKey_keyBC d r v
  have global := fun d r => decodeKey_keyAG d r v
  exact ⟨slot _ _, slot _ _, windowB _ _, windowB _ _, slot _ _, slot _ _, windowB _ _, windowB _ _,
    slot _ _, slot _ _, windowB _ _, windowB _ _, slot _ _, slot _ _, windowB _ _, windowB _ _,
    slot _ _, slot _ _, windowB _ _, windowB _ _, slot _ _, slot _ _, windowB _ _, windowB _ _,
    slot _ _, slot _ _, windowB _ _, windowB _ _, slot _ _, slot _ _, windowB _ _, windowB _ _,
    slot _ _, slot _ _, windowB _ _, windowB _ _, global _ _, global _ _, global _ _, global _ _⟩

end Sys2Proof.Machine
end

section
/-! PROOFS. The step: which event it takes and what it makes of it (R3, R90, R230, R248), and that nothing but
an access that starts a chain stops the machine. -/

namespace Sys2Proof.Machine

/-! One event. -/

theorem step_of_access {s : State} {a : Access} {rest : List Event}
    (h : s.inbox = .access a :: rest) : step s = runAccess a { s with inbox := rest } := by
  unfold step runNext
  rw [h]
  rfl

theorem step_of_store {s : State} {a : Word} {v : Byte} {rest : List Event}
    (h : s.inbox = .store a v :: rest) : step s = .next (storeByte a v { s with inbox := rest }) := by
  unfold step runNext
  rw [h]
  rfl

theorem step_of_no_event {s : State} (h : s.inbox = []) : step s = .next s := by
  unfold step runNext
  rw [h]

theorem runAccess_of_decoded {a : Access} {i : Instr} (h : decodeAccess a = .ok i) (s : State) :
    runAccess a s = exec i s := by
  rw [runAccess, h]

theorem runAccess_of_not_decoded {a : Access} {e : DecodeError} (h : decodeAccess a = .error e)
    (s : State) : runAccess a s = .refused (refusalOf e) := by
  rw [runAccess, h]

/-- Settles O8. -/
theorem stepRunsTheDecodedAccess : Obligations.StepRunsTheDecodedAccess :=
  fun _ _ _ _ hinbox hdec => (step_of_access hinbox).trans (runAccess_of_decoded hdec _)

/-- Settles O9: the size is looked at first. -/
theorem wrongWidthIsRefused : Obligations.WrongWidthIsRefused :=
  fun _ _ _ hinbox hsize => (step_of_access hinbox).trans (runAccess_of_not_decoded (if_neg hsize) _)

/-- Above window B the high four bits of the offset are not 0, which the decoder refuses. -/
theorem decodeKey_outside_b (d : Dir) {o : BitVec 12} (h : 256 ≤ o.toNat) (v : Word) :
    decodeKey (accessKey .b d o) v = .error (.outsideWindow o) := by
  have hhigh : ((accessKey .b d o).extractLsb' 8 4).toNat ≠ 0 := by
    have hlt := o.isLt
    rw [congrArg (accessKey .b d) (offset_eq_append o), accessKey_high, extractLsb'_high_toNat]
    omega
  unfold decodeKey
  simp only [accessKey_window, Window.bit, if_true, if_neg hhigh, accessKey_low]

/-- Settles O10. -/
theorem offsetOutsideWindowBIsRefused : Obligations.OffsetOutsideWindowBIsRefused := by
  intro s a rest hinbox hsize hwindow hoffset
  rw [step_of_access hinbox]
  refine runAccess_of_not_decoded (e := .outsideWindow a.offset) ?_ _
  rw [decodeAccess_of_size hsize, hwindow]
  exact decodeKey_outside_b a.dir hoffset a.data

/-- Settles O11: the store writes one byte behind the accessor. -/
theorem otherAgentsOnlyStore : Obligations.OtherAgentsOnlyStore :=
  ⟨fun _ => step_of_no_event, fun _ _ _ _ hwf hinbox =>
    ⟨_, step_of_store hinbox, rfl, rfl, rfl, rfl, Mem.readByte_writeByte hwf _ _⟩⟩

/-- Settles O12: whatever is drawn for the other registers. -/
theorem controllerResetLeavesTheStatedValues : Obligations.ControllerResetLeavesTheStatedValues := by
  intro s rest hinbox
  refine ⟨_, step_of_reset hinbox, fun c => ?_, rfl, rfl, rfl, rfl⟩
  rw [resetController_ch]
  exact ⟨rfl, rfl, rfl⟩

theorem reset_ch (c : ChannelId) : State.reset.ch c =
    Channel.afterReset (Vector.replicate 16 (Vector.replicate 7 Config.resetOther))[c] :=
  Controller.afterReset_ch _ c

/-- Settles O13: a channel with CONBLK_AD 0 is idle. -/
theorem resetStateHasTheStatedValues : Obligations.ResetStateHasTheStatedValues := by
  refine ⟨fun c => ?_, rfl, rfl, fun c => ?_⟩
  · rw [reset_ch]
    exact ⟨rfl, rfl, rfl⟩
  · have hidle : State.reset.idle c = true := by rw [State.idle, reset_ch]; rfl
    rw [State.eligible, hidle, Bool.not_true, Bool.and_false]

/-- Settles O14: the key is issued as an access, and the access decodes as the key. -/
theorem placedAccessRunsNext : Obligations.PlacedAccessRunsNext := by
  intro s nbits w i hlow hhigh hdec
  by_cases hw : w < 2 ^ 14
  · have henc : tableEncoding nbits w = some (.access (BitVec.ofNat 14 w) 0) := by
      rw [tableEncoding, if_pos ⟨hlow, hhigh⟩, if_pos hw]
    have hkey : decode (.access (BitVec.ofNat 14 w) 0) = .ok i := by
      rw [decodeTableWord, henc, Option.bind_some] at hdec
      cases hd : decode (.access (BitVec.ofNat 14 w) 0) with
      | ok j => rw [hd] at hdec; cases hdec; rfl
      | error e => rw [hd] at hdec; cases hdec
    have hplaced : s.withFetchWord nbits w = s.issue (accessOfKey (BitVec.ofNat 14 w) 0) := by
      rw [State.withFetchWord, placeTableWord, henc]
      rfl
    rw [hplaced]
    exact stepRunsTheDecodedAccess _ _ s.inbox i rfl ((decodeAccess_accessOfKey _ _).trans hkey)
  · rw [decodeTableWord, tableEncoding, if_pos ⟨hlow, hhigh⟩, if_neg hw] at hdec
    cases hdec

/-! Runs that start no chain. -/

/-- An access that is not a CS write with ACTIVE completes (R66, R133, R146). -/
theorem exec_completes_of_noStart {i : Instr} (s : State)
    (haccess : ∃ key v, encode i = .access key v)
    (hstart : ∀ c v, i.IsCsWrite c v → v.getLsbD Config.csActive = false) :
    ∃ t, exec i s = .next t := by
  cases i
  case wrCsAC c v =>
    exact ⟨_, writeCs_noStart (.inl (hstart _ v (.inl ⟨c, rfl, rfl⟩)))⟩
  case wrCsBC v =>
    exact ⟨_, writeCs_noStart (.inl (hstart _ v (.inr ⟨rfl, rfl⟩)))⟩
  case cbLinear c b => obtain ⟨_, _, h⟩ := haccess; cases h
  case cb2D c b => obtain ⟨_, _, h⟩ := haccess; cases h
  all_goals exact ⟨_, rfl⟩

/-- No instruction takes or adds an event (R240). -/
theorem exec_inbox {i : Instr} {s t : State} (h : exec i s = .next t) : t.inbox = s.inbox := by
  rcases exec_cases h with ⟨-, -, hinbox, -⟩ | ⟨v, -, rfl⟩ | ⟨c, v, -, rfl⟩ | ⟨c, v, -, -, rfl⟩ |
    ⟨c, v, -, -, hw⟩ | ⟨c, b, -, -, g, hb⟩
  · exact hinbox
  · rfl
  · rfl
  · rfl
  · obtain ⟨-, -, hinbox, -⟩ := unchangedOutside_writeCs hw
    exact hinbox
  · obtain ⟨-, -, -, -, -, -, -, hinbox, -⟩ := runBlock_flags hb
    exact hinbox

/-- The access is of 4 bytes, inside its window, and no CS write with ACTIVE. -/
def HarmlessAccess (a : Access) : Prop :=
  a.size = 4 ∧ a.offset.toNat < a.window.size ∧
    ∀ i c v, decodeAccess a = .ok i → i.IsCsWrite c v → v.getLsbD Config.csActive = false

theorem HarmlessAccess.runs {a : Access} (h : HarmlessAccess a) (s : State) :
    ∃ t, runAccess a s = .next t ∧ t.inbox = s.inbox := by
  obtain ⟨hsize, hlt, hstart⟩ := h
  obtain ⟨i, hi, -, henc⟩ := (keyOf_accessKey hlt a.dir).decodesBack a.data
  have hdec : decodeAccess a = .ok i := (decodeAccess_of_size hsize).trans hi
  obtain ⟨t, ht⟩ := exec_completes_of_noStart s ⟨_, _, henc⟩ fun c v => hstart i c v hdec
  exact ⟨t, (runAccess_of_decoded hdec s).trans ht, exec_inbox ht⟩

/-- A step with such accesses pending completes and leaves no event that was not pending. -/
theorem step_completes_of_harmless {s : State} (h : ∀ a, .access a ∈ s.inbox → HarmlessAccess a) :
    ∃ t, step s = .next t ∧ t.inbox ⊆ s.inbox := by
  cases hinbox : s.inbox with
  | nil => exact ⟨s, step_of_no_event hinbox, by rw [hinbox]; exact List.Subset.refl _⟩
  | cons e rest =>
    have htail : rest ⊆ e :: rest := List.subset_cons_self e rest
    cases e with
    | access a =>
      obtain ⟨t, ht, hrest⟩ := (h a (by rw [hinbox]; exact List.mem_cons_self)).runs
        { s with inbox := rest }
      exact ⟨t, (step_of_access hinbox).trans ht, by rw [hrest]; exact htail⟩
    | store a v => exact ⟨_, step_of_store hinbox, htail⟩
    | reset => exact ⟨_, step_of_reset hinbox, htail⟩

/-- Settles O60, by induction on the number of steps: each completes, and the events left meet the
condition. -/
theorem runsWithoutStartsNeverStop : Obligations.RunsWithoutStartsNeverStop := by
  intro k
  induction k with
  | zero => exact fun s _ => ⟨s, rfl⟩
  | succ k ih =>
    intro s h
    obtain ⟨t, ht, hsub⟩ := step_completes_of_harmless h
    obtain ⟨u, hu⟩ := ih t fun a ha => h a (hsub ha)
    exact ⟨u, (run_succ Sys2Proof.core k s t ht).trans hu⟩

end Sys2Proof.Machine
end

section
/-! PROOFS. Register access: what each read returns and each write stores, in both windows
(41_register_access). -/

namespace Sys2Proof.Machine

/-- Settles O15: each row is the read of one register of one channel. -/
theorem channelReadsReturnTheRegister : Obligations.ChannelReadsReturnTheRegister := by
  intro c s
  have read : ∀ {i : Instr} {f : Channel → Word} {c : ChannelId},
      exec i s = readRegister f c s → Returns i s (f (s.ch c)) := returns_of_readRegister
  exact ⟨read rfl, read rfl, read rfl, read rfl, read rfl, read rfl, read rfl, read rfl, read rfl,
    read rfl, read rfl, read rfl, read rfl, read rfl, read rfl, read rfl, read rfl, read rfl⟩

/-- Settles O16. -/
theorem globalReadsReturnTheBitmap : Obligations.GlobalReadsReturnTheBitmap := by
  intro s
  rw [BitVec.ofNat_toNat, BitVec.ofNat_toNat]
  exact ⟨returns_of_readBitmap rfl, returns_of_readBitmap rfl⟩

/-- Settles O17. -/
theorem invalidReadsReturnZero : Obligations.InvalidReadsReturnZero :=
  fun r c s => ⟨returns_rdInvalidAG r s, returns_rdInvalidANY c r s⟩

theorem stores_of_writeRegister {i : Instr} {s : State} {f : Channel → Channel} {c : ChannelId}
    (h : exec i s = writeRegister f c s) : Stores i s c (f (s.ch c)) :=
  ⟨_, h, rfl, rfl, State.ch_setCh_self _ c _,
    (unchangedOutside_begin c s).trans (unchangedOutside_setCh c _ _), rfl, rfl⟩

/-- Settles O19. -/
theorem conblkAdWritesStoreVerbatim : Obligations.ConblkAdWritesStoreVerbatim :=
  fun _ v _ => ⟨stores_of_writeRegister (f := fun ch => { ch with conblkAd := v }) rfl,
    stores_of_writeRegister (f := fun ch => { ch with conblkAd := v }) rfl⟩

/-- A read of a register returns what was stored in it. -/
theorem returns_of_stores {i j : Instr} {s t : State} {f : Channel → Word} {c : ChannelId}
    {x : Channel} (hstore : Stores i s c x) (ht : exec i s = .next t)
    (hread : ∀ u, exec j u = readRegister f c u) : Returns j t (f x) := by
  obtain ⟨u, hu, -, -, rfl, -⟩ := hstore
  cases ht.symm.trans hu
  exact returns_of_readRegister (hread t)

/-- Settles O20. -/
theorem debugRoundTrips : Obligations.DebugRoundTrips := by
  intro c v s
  have hA : Stores (.wrDebugAC c v) s (slotA c) { s.ch (slotA c) with debug := v } :=
    stores_of_writeRegister (f := fun ch => { ch with debug := v }) rfl
  have hB : Stores (.wrDebugBC v) s 15 { s.ch 15 with debug := v } :=
    stores_of_writeRegister (f := fun ch => { ch with debug := v }) rfl
  exact ⟨hA, hB, fun _ ht => returns_of_stores hA ht (f := Channel.debug) fun _ => rfl,
    fun _ ht => returns_of_stores hB ht (f := Channel.debug) fun _ => rfl⟩

/-- Settles O21: each row only emits a diagnostic. -/
theorem readOnlyRegisterWritesAreIgnored : Obligations.ReadOnlyRegisterWritesAreIgnored := by
  intro c v s
  have ignored : ∀ {i : Instr} {g : Diag}, exec i s = .next (s.begin.diag g) → Ignored i s :=
    ignored_of_next_diag
  exact ⟨ignored rfl, ignored rfl, ignored rfl, ignored rfl, ignored rfl, ignored rfl, ignored rfl,
    ignored rfl, ignored rfl, ignored rfl, ignored rfl, ignored rfl⟩

/-- Settles O22. -/
theorem intStatusAndInvalidWritesAreIgnored : Obligations.IntStatusAndInvalidWritesAreIgnored :=
  fun r c v s => ⟨ignored_of_next_begin rfl, ignored_wrInvalidAG r v s, ignored_wrInvalidANY c r v s⟩

/-- Settles O23: the low 16 bits of a word are its number modulo 2^16. -/
theorem enableWriteReplacesTheBitmap : Obligations.EnableWriteReplacesTheBitmap :=
  fun v s => ⟨s.begin.setEnable (v.extractLsb' 0 16), rfl,
    by rw [State.setEnable_enable, BitVec.extractLsb', Nat.shiftRight_zero], rfl, rfl, rfl, rfl, rfl, rfl⟩

end Sys2Proof.Machine
end

section
/-! PROOFS. The CS write and the chain it starts (42_status_control, 43_execution_engine): the write without a
chain, what the engine answers in the words of its plain loop, and the chains of one block. -/

namespace Sys2Proof.Machine

/-! A write that runs no chain. -/

/-- Settles O24. -/
theorem csWriteWithoutStartTakesTheFiveSteps : Obligations.CsWriteWithoutStartTakesTheFiveSteps := by
  intro i c v s hi hno
  refine ⟨_, (exec_csWrite hi s).trans (writeCs_noStart hno), csWritten_csSteps c v s.begin, ?_, ?_⟩
  · rw [csSteps_out]
    rfl
  · rw [csSteps_out]
    rfl

/-- Settles O27: the engine goes straight to its exit, which clears ACTIVE after the five steps. -/
theorem startOfIneligibleChannelRunsNothing : Obligations.StartOfIneligibleChannelRunsNothing := by
  intro i c v s hi hv hs he
  have hengine := engine_of_not_eligible ((csSteps_eligible c v s.begin).trans he)
  obtain ⟨hcs, hint, hch, hout, hmem⟩ := csWritten_csSteps c v s.begin
  refine ⟨_, (exec_csWrite hi s).trans ((writeCs_start hv hs).trans hengine), ?_, ?_, hmem,
    hout.trans (unchangedOutside_exitStep c _), fun k hk => ?_, hint, ?_⟩
  · rw [exitStep_out, csSteps_out]
    rfl
  · rw [exitStep_out, csSteps_out]
    rfl
  · split
    next hactive => rw [exitStep_ch, getLsbD_clearBit, hactive]; simp
    next hne => rw [exitStep_getLsbD c _ hne]; exact hcs k hk
  · rw [exitStep_ch, hch]
    rfl

/-! What the engine answers. -/

/-- The engine answers what any number of turns leaves that the chain does not outlast. -/
theorem engine_eq_of_turns {c : ChannelId} {n : Nat} {s : State} (hs : s.mem.wf)
    (h : ∀ t, turns c n s ≠ .running t) : engine c s = chainOutcome c (turns c n s) := by
  have stops : ∀ {m : Nat} {r : Chain}, turns c m s = r → (∀ t, r ≠ .running t) →
      turns c n s = r := fun hm hr =>
    (turns_unique h fun t => by rw [hm]; exact hr t).trans hm
  rcases engine_cases c hs with ⟨t, ⟨m, hm⟩, he⟩ | ⟨hnever, -⟩ | ⟨⟨m, hm⟩, he⟩ | ⟨r, ⟨m, hm⟩, he⟩
  · rw [he, stops hm fun _ => nofun]
    rfl
  · obtain ⟨t, ht⟩ := hnever n
    exact (h t ht).elim
  · rw [he, stops hm fun _ => nofun]
    rfl
  · rw [he, stops hm fun _ => nofun]
    rfl

theorem engine_eq_next_iff {c : ChannelId} {s t : State} (hs : s.mem.wf) :
    engine c s = .next t ↔ ChainEnds c s t := by
  refine ⟨engine_next, fun ⟨n, hn⟩ => ?_⟩
  rw [engine_eq_of_turns hs (n := n) (by rw [hn]; exact fun _ => nofun), hn]
  rfl

theorem engine_eq_chainNeverEnds_iff {c : ChannelId} {s : State} (hs : s.mem.wf) :
    engine c s = .fault (.chainNeverEnds c) ↔ ChainNeverEnds c s := by
  rcases engine_cases c hs with ⟨t, ⟨m, hm⟩, he⟩ | ⟨hnever, he⟩ | ⟨⟨m, hm⟩, he⟩ | ⟨r, ⟨m, hm⟩, he⟩
  case inr.inl => exact iff_of_true he hnever
  all_goals
    refine iff_of_false (by rw [he]; nofun) fun hnever => ?_
    obtain ⟨u, hu⟩ := hnever m
    rw [hm] at hu
    cases hu

theorem engine_eq_rowNeverEnds_iff {c : ChannelId} {s : State} (hs : s.mem.wf) :
    engine c s = .fault (.rowNeverEnds c) ↔ ChainGetsStuck c s := by
  constructor
  · intro h
    rcases engine_cases c hs with ⟨t, -, he⟩ | ⟨-, he⟩ | ⟨hstuck, -⟩ | ⟨r, -, he⟩
    case inr.inr.inl => exact hstuck
    all_goals rw [he] at h; cases h
  · rintro ⟨n, hn⟩
    rw [engine_eq_of_turns hs (n := n) (by rw [hn]; exact fun _ => nofun), hn]
    rfl

theorem engine_eq_refused_iff {c : ChannelId} {s : State} {r : Refusal} (hs : s.mem.wf) :
    engine c s = .refused r ↔ ChainIsRefused c s r := by
  constructor
  · intro h
    rcases engine_cases c hs with ⟨t, -, he⟩ | ⟨-, he⟩ | ⟨-, he⟩ | ⟨q, hq, he⟩
    case inr.inr.inr => rw [he] at h; cases h; exact hq
    all_goals rw [he] at h; cases h
  · rintro ⟨n, hn⟩
    rw [engine_eq_of_turns hs (n := n) (by rw [hn]; exact fun _ => nofun), hn]
    rfl

/-- A CS write that raises ACTIVE is its five steps, then the engine (R146). -/
theorem exec_start {i : Instr} {c : ChannelId} {v : Word} {s : State} (hi : i.IsCsWrite c v)
    (hv : v.getLsbD Config.csActive = true) (hs : s.active c = false) :
    exec i s = engine c (csSteps c v s.begin) :=
  (exec_csWrite hi s).trans (writeCs_start hv hs)

/-- Settles O28: the engine answers as its plain loop, and only so. -/
theorem startRunsTheWholeChain : Obligations.StartRunsTheWholeChain := by
  intro i c v s hi hwf hv hs
  have hwf' : (csSteps c v s.begin).mem.wf := by rw [csSteps_mem]; exact hwf
  rw [exec_start hi hv hs]
  exact ⟨fun _ => engine_eq_next_iff hwf', engine_eq_chainNeverEnds_iff hwf',
    engine_eq_rowNeverEnds_iff hwf', fun _ => engine_eq_refused_iff hwf'⟩

/-! One turn. -/

/-- The block the fetch decodes to runs on the branch the engine takes (R160). -/
theorem exec_decodeBlock (c : ChannelId) (b : Block) (s : State) :
    exec (decodeBlock c b) s = runFetched c b s := by
  unfold decodeBlock runFetched twoDimensional
  split <;> rfl

theorem chainPass_of_fetched {c : ChannelId} {s : State} (he : s.eligible c = true)
    (hf : FetchAccepted s.mem.accessor (s.ch c).conblkAd) :
    chainPass c s = Chain.ofOutcome (runFetched c (s.currentBlock c) (fetchStep c s)) := by
  rw [chainPass, if_pos he, fetchRefusal_eq_none.2 hf]

theorem chainPass_of_fetch_refused {c : ChannelId} {s : State} {r : Refusal}
    (he : s.eligible c = true) (hf : s.fetchRefusal c = some r) : chainPass c s = .refused r := by
  rw [chainPass, if_pos he, hf]

theorem exists_fetchRefusal {c : ChannelId} {s : State}
    (h : ¬ FetchAccepted s.mem.accessor (s.ch c).conblkAd) : ∃ r, s.fetchRefusal c = some r :=
  Option.ne_none_iff_exists'.1 fun e => h (fetchRefusal_eq_none.1 e)

/-- Settles O29. -/
theorem turnRunsTheDecodedBlock : Obligations.TurnRunsTheDecodedBlock := by
  refine fun c s => ⟨fun he => ?_, fun he hf t => ?_, fun he hf => ?_⟩
  · rw [chainPass, if_neg (by rw [he]; decide)]
  · rw [chainPass_of_fetched he hf, exec_decodeBlock]
    cases runFetched c (s.currentBlock c) (fetchStep c s) <;> simp [Chain.ofOutcome]
  · exact (exists_fetchRefusal hf).imp fun _ => chainPass_of_fetch_refused he

/-! The engine after one turn. -/

theorem engine_of_chainPass_refused {c : ChannelId} {s : State} {r : Refusal}
    (h : chainPass c s = .refused r) : engine c s = .refused r := by
  have hturn : turns c 1 s = .refused r := by rw [turns, h]
  rw [engine_of_turns (n := 1) (by decide) (by rw [hturn]; exact fun _ => nofun), hturn]
  rfl

/-- A block whose link is not eligible is the last: the exit follows (R161, R181). -/
theorem engine_of_last_block {c : ChannelId} {s t : State} (h : chainPass c s = .running t)
    (ht : t.eligible c = false) : engine c s = .next (exitStep c t) := by
  have hpass : chainPass c t = .ended (exitStep c t) := by rw [chainPass, if_neg (by rw [ht]; decide)]
  have hturns : turns c 2 s = .ended (exitStep c t) := by simp only [turns, h, hpass]
  rw [engine_of_turns (n := 2) (by decide) (by rw [hturns]; exact fun _ => nofun), hturns]
  rfl

/-- The pass leaves CONBLK_AD at the link of its block (R180). -/
theorem runBlock_conblkAd {g : Geometry} {c : ChannelId} {b : Block} {s t : State}
    (h : runBlock g c b s = .next t) : (t.ch c).conblkAd = b.next := by
  obtain ⟨n, -, -, -, hch, -⟩ := runBlock_next h
  rw [hch]
  rfl

theorem not_eligible_of_conblkAd {c : ChannelId} {s : State} (h : (s.ch c).conblkAd = 0) :
    s.eligible c = false := by
  rw [State.eligible, State.idle, h]
  simp

/-- A block that ends and whose accesses are accepted completes, on the branch its flag selects. -/
theorem runFetched_completes {c : ChannelId} {b : Block} {s : State} (hend : BlockEnds b)
    (hacc : BlockAccepted s.mem.accessor b) : ∃ t, runFetched c b s = .next t := by
  unfold BlockEnds at hend
  unfold BlockAccepted at hacc
  unfold runFetched
  by_cases h2 : twoDimensional b.ti = true
  · rw [if_pos h2] at hend hacc ⊢
    exact exec_cb2D_completes c hend hacc
  · rw [if_neg h2] at hend hacc ⊢
    exact exec_cbLinear_completes c hend hacc

/-- A chain of one block that ends, whose accesses are accepted: the pass, then the exit. -/
theorem engine_of_one_block {c : ChannelId} {s : State} (he : s.eligible c = true)
    (hf : FetchAccepted s.mem.accessor (s.ch c).conblkAd)
    (hacc : BlockAccepted s.mem.accessor (s.currentBlock c)) (hend : BlockEnds (s.currentBlock c))
    (hlink : (s.currentBlock c).next = 0) :
    ∃ t, runFetched c (s.currentBlock c) (fetchStep c s) = .next t ∧
      engine c s = .next (exitStep c t) := by
  obtain ⟨t, ht⟩ := runFetched_completes (c := c) (s := fetchStep c s) hend hacc
  refine ⟨t, ht, engine_of_last_block (by rw [chainPass_of_fetched he hf, ht]; rfl) ?_⟩
  rw [runFetched_eq] at ht
  exact not_eligible_of_conblkAd ((runBlock_conblkAd ht).trans hlink)

theorem csSteps_conblkAd (c : ChannelId) (v : Word) (s : State) :
    ((csSteps c v s).ch c).conblkAd = (s.ch c).conblkAd := by
  rw [csSteps_ch]

/-- The start of a chain of one block, from the state before the write. -/
theorem exec_start_of_one_block {i : Instr} {c : ChannelId} {v : Word} {s : State}
    (hi : i.IsCsWrite c v) (hv : v.getLsbD Config.csActive = true) (hs : s.active c = false)
    (he : s.eligible c = true) (hf : FetchAccepted s.mem.accessor (s.ch c).conblkAd)
    (hacc : BlockAccepted s.mem.accessor (s.currentBlock c)) (hend : BlockEnds (s.currentBlock c))
    (hlink : (s.currentBlock c).next = 0) :
    ∃ t, runFetched c (s.currentBlock c) (fetchStep c (csSteps c v s.begin)) = .next t ∧
      exec i s = .next (exitStep c t) := by
  have hblock : (csSteps c v s.begin).currentBlock c = s.currentBlock c :=
    csSteps_currentBlock c v s.begin
  rw [exec_start hi hv hs, ← hblock]
  refine engine_of_one_block ((csSteps_eligible c v s.begin).trans he) ?_ ?_ ?_ ?_
  · rw [csSteps_mem, csSteps_conblkAd]
    exact hf
  · rw [csSteps_mem, hblock]
    exact hacc
  · rw [hblock]
    exact hend
  · rw [hblock]
    exact hlink

/-- Settles O30. -/
theorem startOfOneBlockRunsIt : Obligations.StartOfOneBlockRunsIt := by
  intro i c v s hi hv hs he hf hacc hend hlink
  obtain ⟨t, ht, hexec⟩ := exec_start_of_one_block hi hv hs he hf hacc hend hlink
  exact ⟨t, (exec_decodeBlock c _ _).trans ht, hexec⟩

/-- Settles O32: the steps clear INT, and the completion of the one block sets it by its INTEN. -/
theorem acknowledgeAndRestartInOneWrite : Obligations.AcknowledgeAndRestartInOneWrite := by
  intro i c v s hi hv _ hint hs he hf hacc hend hlink
  obtain ⟨t, ht, hexec⟩ := exec_start_of_one_block hi hv hs he hf hacc hend hlink
  rw [runFetched_eq] at ht
  obtain ⟨-, hirq, hstatus, -⟩ := runBlock_flags ht
  refine ⟨exitStep c t, hexec, ?_, ?_, ?_, ?_⟩
  · rw [exitStep_getLsbD c t (by decide)]
    exact runBlock_end ht
  · have hcleared : ((csSteps c v s.begin).ch c).cs.getLsbD Config.csInt = false := by
      rw [csSteps_cs c v _ _ (by decide), csBit_int, hint, Bool.not_true, Bool.and_false]
    rw [exitStep_getLsbD c t (by decide), runBlock_int ht]
    exact (congrArg (· || _) hcleared).trans (Bool.false_or _)
  · have hcleared : (csSteps c v s.begin).ctl.intStatus.getLsbD c.val = false := by
      rw [csSteps_intStatus, hint, Bool.not_true, Bool.and_false]
    rw [exitStep_intStatus, hstatus]
    exact (congrArg (· || _) hcleared).trans (Bool.false_or _)
  · have hcleared : ((csSteps c v s.begin).ch c).irq = false := by
      rw [csSteps_irq, hint, Bool.not_true, Bool.and_false]
    rw [exitStep_ch, hirq]
    exact (congrArg (· || _) hcleared).trans (Bool.false_or _)

/-! The end of a chain. -/

theorem exitStep_eligible (c : ChannelId) (s : State) :
    (exitStep c s).eligible c = s.eligible c := by
  rw [State.eligible, State.idle, exitStep_ch]
  rfl

/-- The engine leaves its channel not eligible, ACTIVE clear (R161, R181). -/
theorem engine_exit {c : ChannelId} {s t : State} (h : engine c s = .next t) :
    t.eligible c = false ∧ t.active c = false := by
  obtain ⟨u, -, hu, rfl⟩ := engine_induct (fun _ => True) (fun _ _ _ _ _ _ => trivial) trivial h
  refine ⟨(exitStep_eligible c u).trans hu, ?_⟩
  rw [State.active, exitStep_ch, getLsbD_clearBit]
  simp

/-- An enabled channel that is not eligible is idle (R33). -/
theorem conblkAd_of_not_eligible {c : ChannelId} {s : State}
    (hen : s.ctl.enable.getLsbD c.val = true) (h : s.eligible c = false) :
    (s.ch c).conblkAd = 0 := by
  rw [State.eligible, hen, Bool.true_and, Bool.not_eq_false'] at h
  exact beq_iff_eq.1 h

/-- Settles O31: no turn touches ENABLE, so the chain ended at a zero link. -/
theorem completedStartLeavesTheChannelIdle : Obligations.CompletedStartLeavesTheChannelIdle := by
  intro i c v s t hi hv hs he ht
  rw [exec_start hi hv hs] at ht
  obtain ⟨hnot, hactive⟩ := engine_exit ht
  have hsteps : (csSteps c v s.begin).eligible c = true := (csSteps_eligible c v s.begin).trans he
  have hen : t.ctl.enable.getLsbD c.val = true := by
    obtain ⟨-, henable, -⟩ := unchangedOutside_engine ht
    rw [henable]
    exact (Bool.and_eq_true_iff.1 hsteps).1
  exact ⟨conblkAd_of_not_eligible hen hnot, engine_end_of_eligible ht hsteps, hactive⟩

/-! A chain that comes back to its start. -/

/-- Rows of no step store nothing. -/
theorem Copied.rows_no_steps_mem (ti ss ds : Word) (rows : Nat) (q : Copied) :
    (q.rows ti ss ds 0 rows).mem = q.mem := by
  induction rows generalizing q with
  | zero => rfl
  | succ rows ih =>
    rw [Copied.rows]
    split
    · rfl
    · exact ih _

/-- A block of length 0 leaves the memory as it was (R184). -/
theorem runFetched_mem_of_len_zero {c : ChannelId} {b : Block} {s t : State} (hlen : b.len = 0)
    (h : runFetched c b s = .next t) : t.mem = s.mem := by
  have hsteps : rowSteps 0 = some 0 := rfl
  rw [runFetched_eq] at h
  obtain ⟨n, rfl, -, hmem, -⟩ := runBlock_next h
  rw [hmem]
  split
  next =>
    have hrows : (planeGeometry b).rows = 0 := by rw [planeGeometry_rows, planeRows, hlen]; rfl
    rw [hrows]
    rfl
  next =>
    rw [linearGeometry_rowBytes, hlen, hsteps]
    exact Copied.rows_no_steps_mem _ _ _ _ _

/-- An eligible channel whose block copies nothing and links to itself turns for ever. -/
theorem chainNeverEnds_of_self_link {c : ChannelId} {s : State} (hwf : s.mem.wf)
    (he : s.eligible c = true) (hf : FetchAccepted s.mem.accessor (s.ch c).conblkAd)
    (hlen : (s.currentBlock c).len = 0) (hlink : (s.currentBlock c).next = (s.ch c).conblkAd) :
    ChainNeverEnds c s := by
  obtain ⟨t, ht⟩ : ∃ t, runFetched c (s.currentBlock c) (fetchStep c s) = .next t := by
    rw [← exec_decodeBlock]
    refine exec_completes_of_len_zero (c := c) _ ?_ hlen
    unfold decodeBlock
    split
    · exact .inr rfl
    · exact .inl rfl
  have hturn : turns c 1 s = .running t := by
    rw [turns, chainPass_of_fetched he hf, ht]
    rfl
  refine chainNeverEnds_of_key_eq hwf Nat.one_pos hturn ?_
  have hmem : t.mem = (fetchStep c s).mem := runFetched_mem_of_len_zero hlen ht
  rw [runFetched_eq] at ht
  obtain ⟨-, -, -, henable, -⟩ := runBlock_flags ht
  rw [chainKey, chainKey, hmem, runBlock_conblkAd ht, hlink, henable]
  rfl

/-- Settles O33. -/
theorem selfLinkedBlockNeverEnds : Obligations.SelfLinkedBlockNeverEnds := by
  intro i c v s hi hwf hv hs he hf hlen hlink
  have hmem : (csSteps c v s.begin).mem = s.mem := csSteps_mem c v s.begin
  have had : ((csSteps c v s.begin).ch c).conblkAd = (s.ch c).conblkAd := csSteps_conblkAd c v s.begin
  have hblock : (csSteps c v s.begin).currentBlock c = s.currentBlock c :=
    csSteps_currentBlock c v s.begin
  rw [exec_start hi hv hs, engine_eq_chainNeverEnds_iff (by rw [hmem]; exact hwf)]
  refine chainNeverEnds_of_self_link (by rw [hmem]; exact hwf)
    ((csSteps_eligible c v s.begin).trans he) ?_ ?_ ?_
  · rw [hmem, had]
    exact hf
  · rw [hblock]
    exact hlen
  · rw [hblock, had]
    exact hlink

/-! A fetch that is refused. -/

/-- The fetch reads the word at its address first (R162). -/
theorem fetchRefusal_of_first_read {c : ChannelId} {s : State} {r : Refusal}
    (h : s.mem.accessor.refusal .read (s.ch c).conblkAd = some r) : s.fetchRefusal c = some r := by
  have hfirst : s.mem.accessor.firstRefusal
      [.read (s.ch c).conblkAd (s.currentBlock c).ti] = some r := h
  have happend := s.mem.accessor.firstRefusal_append
    ((fetchTraffic (s.ch c).conblkAd (s.currentBlock c)).take 5)
    [.read (s.ch c).conblkAd (s.currentBlock c).ti]
  rw [hfirst] at happend
  exact happend

theorem csSteps_fetchRefusal (c : ChannelId) (v : Word) (s : State) :
    (csSteps c v s).fetchRefusal c = s.fetchRefusal c := by
  unfold State.fetchRefusal
  rw [csSteps_currentBlock, csSteps_mem, csSteps_conblkAd]

theorem exec_start_of_fetch_refused {i : Instr} {c : ChannelId} {v : Word} {s : State} {r : Refusal}
    (hi : i.IsCsWrite c v) (hv : v.getLsbD Config.csActive = true) (hs : s.active c = false)
    (he : s.eligible c = true) (hr : s.fetchRefusal c = some r) : exec i s = .refused r := by
  rw [exec_start hi hv hs]
  exact engine_of_chainPass_refused (chainPass_of_fetch_refused
    ((csSteps_eligible c v s.begin).trans he) ((csSteps_fetchRefusal c v s.begin).trans hr))

/-- Settles O47. -/
theorem startIsRefusedWhereTheFetchIs : Obligations.StartIsRefusedWhereTheFetchIs := by
  intro i c v s hi hv hs he
  have refused : ∀ {r}, s.fetchRefusal c = some r → exec i s = .refused r :=
    exec_start_of_fetch_refused hi hv hs he
  refine ⟨fun hw => ?_, fun hw hr => ?_, fun hf => ?_⟩
  · exact refused (fetchRefusal_of_first_read (by rw [Accessor.refusal, if_pos hw]))
  · exact refused (fetchRefusal_of_first_read (by
      rw [Accessor.refusal, hw, if_neg Bool.false_ne_true, if_pos hr]))
  · exact (exists_fetchRefusal hf).imp fun _ => refused

end Sys2Proof.Machine
end

section
/-! PROOFS. What holds between accesses is kept by every instruction and every step: the flags of each channel,
ACTIVE clear, the canonical memory, and the accessor (10_state section 9). -/

namespace Sys2Proof.Machine

/-! Single bits of CS in a pass over a control block. -/

/-- A pass sets END, sets INT by its INTEN, and leaves every other bit of CS (R170). -/
theorem runBlock_getLsbD {g : Geometry} {c : ChannelId} {b : Block} {s t : State}
    (h : runBlock g c b s = .next t) {k : Nat} (hend : k ≠ Config.csEnd) (hint : k ≠ Config.csInt) :
    (t.ch c).cs.getLsbD k = (s.ch c).cs.getLsbD k := by
  obtain ⟨hcs, -⟩ := runBlock_flags h
  rw [hcs]
  split <;> simp [hend, hint, -BitVec.getLsbD_eq_getElem]

/-! The flags of a channel (R30, R32). -/

/-- The bits of CS that R32 lets be 1, one by one. -/
theorem csUsed_getLsbD (k : Nat) : csUsed.getLsbD k =
    (Config.csRwMask.getLsbD k || decide (k = Config.csReset) || decide (k = Config.csAbort) ||
      decide (k = Config.csInt) || decide (k = Config.csEnd)) := by
  have hlt : ∀ n, n < 32 → (decide (k < 32) && decide (k = n)) = decide (k = n) := fun n hn => by
    by_cases hk : k = n
    · simp [hk, hn]
    · simp [hk]
  simp only [csUsed, getLsbD_setBit]
  rw [hlt _ (by decide), hlt _ (by decide), hlt _ (by decide), hlt _ (by decide)]

/-- Every bit of the word that R32 does not let be 1 is 0. -/
theorem reserved_clear_iff (x : Word) :
    x &&& ~~~csUsed = 0 ↔ ∀ k, k < 32 → csUsed.getLsbD k = false → x.getLsbD k = false := by
  constructor
  · intro h k hk hu
    have hbit := congrArg (fun w => BitVec.getLsbD w k) h
    simpa [BitVec.getLsbD_and, BitVec.getLsbD_not, hk, hu, -BitVec.getLsbD_eq_getElem] using hbit
  · intro h
    apply BitVec.eq_of_getLsbD_eq
    intro k hk
    rw [BitVec.getLsbD_and, BitVec.getLsbD_not]
    cases hu : csUsed.getLsbD k
    · simp [h k hk hu]
    · simp

/-- What R30 and R32 say of channel `c`. -/
structure FlagsAgree (c : ChannelId) (s : State) : Prop where
  status : s.ctl.intStatus.getLsbD c.val = (s.ch c).cs.getLsbD Config.csInt
  line : (s.ch c).irq = (s.ch c).cs.getLsbD Config.csInt
  reserved : ∀ k, k < 32 → csUsed.getLsbD k = false → (s.ch c).cs.getLsbD k = false

theorem inv_iff (s : State) :
    s.Inv ↔ (∀ c, FlagsAgree c s ∧ s.active c = false) ∧ s.mem.wf := by
  constructor
  · rintro ⟨hagree, hinactive, hreserved, hwf⟩
    refine ⟨fun c => ⟨?_, hinactive c⟩, hwf⟩
    obtain ⟨hstatus, hline⟩ := hagree c
    exact ⟨hstatus, hline, (reserved_clear_iff _).1 (hreserved c)⟩
  · rintro ⟨hch, hwf⟩
    refine ⟨fun c => ?_, fun c => ?_, fun c => ?_, hwf⟩ <;> obtain ⟨hflags, hactive⟩ := hch c
    · exact ⟨hflags.status, hflags.line⟩
    · exact hactive
    · exact (reserved_clear_iff _).2 hflags.reserved

theorem FlagsAgree.of_eq {c : ChannelId} {s t : State} (h : FlagsAgree c s) (hcs : (t.ch c).cs = (s.ch c).cs)
    (hirq : (t.ch c).irq = (s.ch c).irq)
    (hint : t.ctl.intStatus.getLsbD c.val = s.ctl.intStatus.getLsbD c.val) : FlagsAgree c t := by
  constructor
  · rw [hint, hcs]
    exact h.status
  · rw [hirq, hcs]
    exact h.line
  · rw [hcs]
    exact h.reserved

/-- What touches another channel only keeps the flags of this one. -/
theorem FlagsAgree.of_unchangedOutside {c d : ChannelId} {s t : State} (h : FlagsAgree c s)
    (hu : UnchangedOutside d s t) (hcd : c ≠ d) : FlagsAgree c t := by
  obtain ⟨hother, -⟩ := hu
  obtain ⟨hch, hint⟩ := hother c hcd
  exact h.of_eq (by rw [hch]) (by rw [hch]) hint

/-- A pass raises INT, the bitmap bit and the line together (R170). -/
theorem FlagsAgree.of_runBlock {g : Geometry} {c : ChannelId} {d : ChannelId} {b : Block} {s t : State}
    (hs : FlagsAgree c s) (h : runBlock g d b s = .next t) : FlagsAgree c t := by
  obtain ⟨-, hirq, hstatus, -, -, hout⟩ := runBlock_flags h
  by_cases hcd : c = d
  · subst hcd
    refine ⟨?_, ?_, fun k hk hu => ?_⟩
    · rw [hstatus, runBlock_int h, hs.status]
    · rw [hirq, runBlock_int h, hs.line]
    · have hused := csUsed_getLsbD k
      rw [hu] at hused
      rw [runBlock_getLsbD h (by rintro rfl; cases hused) (by rintro rfl; cases hused)]
      exact hs.reserved k hk hu
  · exact hs.of_unchangedOutside hout hcd

/-- The five steps clear the three together, and write no reserved bit (R144, R145). -/
theorem FlagsAgree.of_csSteps {c d : ChannelId} {s : State} (hs : FlagsAgree c s) (v : Word) :
    FlagsAgree c (csSteps d v s) := by
  by_cases hcd : c = d
  · subst hcd
    refine ⟨?_, ?_, fun k hk hu => ?_⟩
    · rw [csSteps_intStatus, csSteps_cs c v s _ (by decide), csBit_int, hs.status]
    · rw [csSteps_irq, csSteps_cs c v s _ (by decide), csBit_int, hs.line]
    · have hold := hs.reserved k hk hu
      rw [csUsed_getLsbD] at hu
      simp only [Bool.or_eq_false_iff, decide_eq_false_iff_not] at hu
      obtain ⟨⟨⟨⟨hmask, hreset⟩, habort⟩, hint⟩, hend⟩ := hu
      rw [csSteps_cs c v s k hk, csBit, if_neg (by rw [hmask]; decide),
        if_neg (not_or.2 ⟨hreset, habort⟩), if_neg (not_or.2 ⟨hend, hint⟩)]
      exact hold
  · exact hs.of_unchangedOutside (unchangedOutside_csSteps d v s) hcd

/-- The exit touches ACTIVE only (R181). -/
theorem FlagsAgree.of_exitStep {c d : ChannelId} {s : State} (hs : FlagsAgree c s) :
    FlagsAgree c (exitStep d s) := by
  by_cases hcd : c = d
  · subst hcd
    refine ⟨?_, ?_, fun k hk hu => ?_⟩
    · rw [exitStep_intStatus, exitStep_getLsbD c s (by decide)]
      exact hs.status
    · rw [exitStep_getLsbD c s (by decide), exitStep_ch]
      exact hs.line
    · have hused := csUsed_getLsbD k
      rw [hu] at hused
      rw [exitStep_getLsbD c s (by rintro rfl; cases hused)]
      exact hs.reserved k hk hu
  · exact hs.of_unchangedOutside (unchangedOutside_exitStep d s) hcd

/-- A whole chain keeps the flags of every channel in agreement. -/
theorem FlagsAgree.of_engine {c d : ChannelId} {s t : State} (hs : FlagsAgree c s)
    (h : engine d s = .next t) : FlagsAgree c t := by
  obtain ⟨u, hu, -, rfl⟩ := engine_induct (fun u => FlagsAgree c u)
    (fun u w hu _ _ hw => by
      rw [runFetched_eq] at hw
      exact FlagsAgree.of_runBlock (s := fetchStep d u) (hu.of_eq rfl rfl rfl) hw) hs h
  exact hu.of_exitStep

theorem FlagsAgree.of_writeCs {c d : ChannelId} {v : Word} {s t : State} (hs : FlagsAgree c s)
    (h : writeCs d v s = .next t) : FlagsAgree c t := by
  have hsteps : FlagsAgree c (csSteps d v s.begin) := (hs.of_eq (t := s.begin) rfl rfl rfl).of_csSteps v
  obtain rfl | ⟨-, -, hengine⟩ := writeCs_cases h
  · exact hsteps
  · exact hsteps.of_engine hengine

/-- A register write that leaves CS and the line of its channel alone. -/
theorem FlagsAgree.of_setCh_begin {c d : ChannelId} {s : State} {x : Channel} (hs : FlagsAgree c s)
    (hcs : x.cs = (s.ch d).cs) (hirq : x.irq = (s.ch d).irq) :
    FlagsAgree c (s.begin.setCh d x) := by
  by_cases hcd : c = d
  · subst hcd
    exact hs.of_eq (by rw [State.ch_setCh_self, hcs]) (by rw [State.ch_setCh_self, hirq]) rfl
  · exact hs.of_unchangedOutside ((unchangedOutside_begin d s).trans (unchangedOutside_setCh d x _)) hcd

theorem FlagsAgree.of_exec {i : Instr} {c : ChannelId} {s t : State} (hs : FlagsAgree c s)
    (h : exec i s = .next t) : FlagsAgree c t := by
  rcases exec_cases h with ⟨hctl, -⟩ | ⟨v, -, rfl⟩ | ⟨d, v, -, rfl⟩ | ⟨d, v, -, -, rfl⟩ |
    ⟨d, v, -, -, hw⟩ | ⟨d, b, -, -, g, hb⟩
  · have hch : t.ch c = s.ch c := by rw [State.ch, hctl, State.ch]
    exact hs.of_eq (by rw [hch]) (by rw [hch]) (by rw [hctl])
  · exact hs.of_eq rfl rfl rfl
  · exact hs.of_setCh_begin rfl rfl
  · exact hs.of_setCh_begin rfl rfl
  · exact hs.of_writeCs hw
  · exact hs.of_runBlock hb

/-! ACTIVE (R31). -/

theorem active_of_unchangedOutside {c d : ChannelId} {s t : State} (hu : UnchangedOutside d s t)
    (hcd : c ≠ d) : t.active c = s.active c := by
  obtain ⟨hother, -⟩ := hu
  rw [State.active, (hother c hcd).1, State.active]

/-- A CS write of an inactive channel leaves it inactive: ACTIVE is not written, or the engine clears it. -/
theorem writeCs_inactive {c d : ChannelId} {v : Word} {s t : State} (h : writeCs d v s = .next t)
    (hs : s.active c = false) : t.active c = false := by
  by_cases hcd : c = d
  · subst hcd
    by_cases hv : v.getLsbD Config.csActive = true
    · rw [writeCs_start hv hs] at h
      exact (engine_exit h).2
    · rw [Bool.not_eq_true] at hv
      rw [writeCs_noStart (.inl hv)] at h
      cases h
      rw [csSteps_active, hv]
  · rw [active_of_unchangedOutside (unchangedOutside_writeCs h) hcd, hs]

theorem setCh_begin_active (c d : ChannelId) (s : State) (x : Channel) (hcs : x.cs = (s.ch d).cs) :
    (s.begin.setCh d x).active c = s.active c := by
  by_cases hcd : c = d
  · subst hcd
    rw [State.active, State.ch_setCh_self, hcs, State.active]
  · rw [State.active, State.ch_setCh_ne _ _ _ _ hcd, State.active, State.begin_ch]

theorem runBlock_active {g : Geometry} {c d : ChannelId} {b : Block} {s t : State}
    (h : runBlock g d b s = .next t) : t.active c = s.active c := by
  by_cases hcd : c = d
  · subst hcd
    exact runBlock_getLsbD h (by decide) (by decide)
  · obtain ⟨-, -, -, -, -, hout⟩ := runBlock_flags h
    exact active_of_unchangedOutside hout hcd

/-- Between two accesses every channel is inactive, whatever is executed. -/
theorem exec_inactive {i : Instr} {c : ChannelId} {s t : State} (h : exec i s = .next t)
    (hs : s.active c = false) : t.active c = false := by
  rcases exec_cases h with ⟨hctl, -⟩ | ⟨v, -, rfl⟩ | ⟨d, v, -, rfl⟩ | ⟨d, v, -, -, rfl⟩ |
    ⟨d, v, -, -, hw⟩ | ⟨d, b, -, -, g, hb⟩
  · rw [State.active, State.ch, hctl]
    exact hs
  · exact hs
  · exact (setCh_begin_active c d s { s.ch d with conblkAd := v } rfl).trans hs
  · exact (setCh_begin_active c d s { s.ch d with debug := v } rfl).trans hs
  · exact writeCs_inactive hw hs
  · exact (runBlock_active hb).trans hs

/-! The memory and its accessor. -/

theorem writeCs_wf {c : ChannelId} {v : Word} {s t : State} (h : writeCs c v s = .next t)
    (hs : s.mem.wf) : t.mem.wf := by
  have hsteps : (csSteps c v s.begin).mem.wf := by rw [csSteps_mem]; exact hs
  obtain rfl | ⟨-, -, hengine⟩ := writeCs_cases h
  · exact hsteps
  · exact engine_wf hengine hsteps

theorem exec_wf {i : Instr} {s t : State} (h : exec i s = .next t) (hs : s.mem.wf) : t.mem.wf := by
  rcases exec_cases h with ⟨-, hmem, -⟩ | ⟨v, -, rfl⟩ | ⟨d, v, -, rfl⟩ | ⟨d, v, -, -, rfl⟩ |
    ⟨d, v, -, -, hw⟩ | ⟨d, b, -, -, g, hb⟩
  · rw [hmem]
    exact hs
  · exact hs
  · exact hs
  · exact hs
  · exact writeCs_wf hw hs
  · exact runBlock_wf hb hs

theorem writeCs_accessor {c : ChannelId} {v : Word} {s t : State} (h : writeCs c v s = .next t) :
    t.mem.accessor = s.mem.accessor := by
  have hsteps : (csSteps c v s.begin).mem = s.mem := csSteps_mem c v s.begin
  obtain rfl | ⟨-, -, hengine⟩ := writeCs_cases h
  · rw [hsteps]
  · rw [engine_accessor hengine, hsteps]

theorem exec_accessor {i : Instr} {s t : State} (h : exec i s = .next t) :
    t.mem.accessor = s.mem.accessor := by
  rcases exec_cases h with ⟨-, hmem, -⟩ | ⟨v, -, rfl⟩ | ⟨d, v, -, rfl⟩ | ⟨d, v, -, -, rfl⟩ |
    ⟨d, v, -, -, hw⟩ | ⟨d, b, -, -, g, hb⟩
  · rw [hmem]
  · rfl
  · rfl
  · rfl
  · exact writeCs_accessor hw
  · exact runBlock_accessor hb

/-- Settles O52: no event reaches the accessor. -/
theorem noStepChangesTheAccessor : Obligations.NoStepChangesTheAccessor := by
  intro s t h
  rcases step_cases h with ⟨-, rfl⟩ | ⟨a, rest, i, -, -, hexec⟩ | ⟨a, v, rest, -, rfl⟩ | ⟨rest, -, rfl⟩
  · rfl
  · exact exec_accessor (s := { s with inbox := rest }) hexec
  · rfl
  · rfl

/-! The invariant (R30, R31, R32). -/

/-- A controller after reset has it, whatever the unspecified registers hold. -/
theorem inv_of_afterReset {s : State} {other : Vector (Vector Word 7) 16}
    (hctl : s.ctl = Controller.afterReset other) (hwf : s.mem.wf) : s.Inv := by
  have hch : ∀ c, s.ch c = Channel.afterReset other[c] := fun c => by
    rw [State.ch, hctl, Controller.afterReset_ch]
  have hcs : ∀ c, (s.ch c).cs = 0 := fun c => by rw [hch]; rfl
  have hirq : ∀ c, (s.ch c).irq = false := fun c => by rw [hch]; rfl
  have hint : s.ctl.intStatus = 0 := by rw [hctl]; rfl
  refine (inv_iff s).2 ⟨fun c => ⟨⟨?_, ?_, fun k _ _ => ?_⟩, ?_⟩, hwf⟩
  · rw [hint, hcs]
    exact BitVec.getLsbD_zero.trans BitVec.getLsbD_zero.symm
  · rw [hirq, hcs]
    exact BitVec.getLsbD_zero.symm
  · rw [hcs]
    exact BitVec.getLsbD_zero
  · rw [State.active, hcs]
    exact BitVec.getLsbD_zero

theorem exec_inv {i : Instr} {s t : State} (hs : s.Inv) (h : exec i s = .next t) : t.Inv := by
  obtain ⟨hch, hwf⟩ := (inv_iff s).1 hs
  refine (inv_iff t).2 ⟨fun c => ?_, exec_wf h hwf⟩
  obtain ⟨hflags, hactive⟩ := hch c
  exact ⟨hflags.of_exec h, exec_inactive h hactive⟩

/-- Settles O49: the instruction of an access keeps it, a store keeps the canonical memory, and a reset brings
it about. -/
theorem stepKeepsTheInvariant : Obligations.StepKeepsTheInvariant := by
  intro s t hs h
  rcases step_cases h with ⟨-, rfl⟩ | ⟨a, rest, i, -, -, hexec⟩ | ⟨a, v, rest, -, rfl⟩ | ⟨rest, -, rfl⟩
  · exact hs
  · exact exec_inv (s := { s with inbox := rest }) hs hexec
  · obtain ⟨hagree, hinactive, hreserved, hwf⟩ := hs
    exact ⟨hagree, hinactive, hreserved, Mem.wf_writeByte hwf (Accessor.location_lt _ _) _⟩
  · obtain ⟨-, -, -, hwf⟩ := hs
    exact inv_of_afterReset rfl hwf

/-- Settles O50: at reset no byte is listed and no access has been made. -/
theorem resetHasTheInvariant : Obligations.ResetHasTheInvariant :=
  ⟨inv_of_afterReset rfl Memory.wf_nil, nofun⟩

end Sys2Proof.Machine
end

section
/-! PROOFS. The memory port: every access shown on it was accepted, whatever step showed it (R51, D12,
D23). -/

namespace Sys2Proof.Machine

/-- The accesses shown after a pass were accepted if those shown before it were. -/
theorem State.TrafficAccepted.of_runBlock {g : Geometry} {c : ChannelId} {b : Block} {s t : State}
    (hs : s.TrafficAccepted) (h : runBlock g c b s = .next t) : t.TrafficAccepted := by
  obtain ⟨n, -, -, -, -, -, -, -, htraffic, hacc, -⟩ := runBlock_next h
  intro x hx
  rw [runBlock_accessor h]
  rw [htraffic, List.mem_append] at hx
  exact hx.elim (hacc x) (hs x)

/-- The six reads of a fetch that is not refused were accepted (R162). -/
theorem State.TrafficAccepted.of_fetchStep {c : ChannelId} {s : State} (hs : s.TrafficAccepted)
    (hf : s.fetchRefusal c = none) : (fetchStep c s).TrafficAccepted := by
  intro x hx
  rw [fetchStep_traffic, List.mem_append] at hx
  exact hx.elim (Accessor.firstRefusal_eq_none.1 hf x) (hs x)

theorem State.TrafficAccepted.of_engine {c : ChannelId} {s t : State} (hs : s.TrafficAccepted)
    (h : engine c s = .next t) : t.TrafficAccepted := by
  obtain ⟨u, hu, -, rfl⟩ := engine_induct State.TrafficAccepted
    (fun u w hu _ hf hw => by
      rw [runFetched_eq] at hw
      exact (hu.of_fetchStep hf).of_runBlock hw) hs h
  exact hu

theorem trafficAccepted_of_no_traffic {s : State} (h : s.out.traffic = []) : s.TrafficAccepted := by
  intro x hx
  rw [h] at hx
  cases hx

theorem writeCs_trafficAccepted {c : ChannelId} {v : Word} {s t : State}
    (h : writeCs c v s = .next t) : t.TrafficAccepted := by
  have hsteps : (csSteps c v s.begin).TrafficAccepted :=
    trafficAccepted_of_no_traffic (by rw [csSteps_out]; rfl)
  obtain rfl | ⟨-, -, hengine⟩ := writeCs_cases h
  · exact hsteps
  · exact hsteps.of_engine hengine

theorem State.TrafficAccepted.of_exec {i : Instr} {s t : State} (hs : s.TrafficAccepted)
    (h : exec i s = .next t) : t.TrafficAccepted := by
  rcases exec_cases h with ⟨-, -, -, -, hout⟩ | ⟨v, -, rfl⟩ | ⟨d, v, -, rfl⟩ | ⟨d, v, -, -, rfl⟩ |
    ⟨d, v, -, -, hw⟩ | ⟨d, b, -, -, g, hb⟩
  · exact trafficAccepted_of_no_traffic hout
  · exact trafficAccepted_of_no_traffic rfl
  · exact trafficAccepted_of_no_traffic rfl
  · exact trafficAccepted_of_no_traffic rfl
  · exact writeCs_trafficAccepted hw
  · exact hs.of_runBlock hb

/-- Settles O51: a pass completes only if its accesses are accepted, and a turn only if its fetch is. -/
theorem stepKeepsTheEngineOutOfTheWindows : Obligations.StepKeepsTheEngineOutOfTheWindows := by
  intro s t hs h
  rcases step_cases h with ⟨-, rfl⟩ | ⟨a, rest, i, -, -, hexec⟩ | ⟨a, v, rest, -, rfl⟩ | ⟨rest, -, rfl⟩
  · exact hs
  · exact State.TrafficAccepted.of_exec (s := { s with inbox := rest }) hs hexec
  · exact trafficAccepted_of_no_traffic rfl
  · exact trafficAccepted_of_no_traffic rfl

end Sys2Proof.Machine
end

section
/-! PROOFS. Exceptions: a line rises only by a descriptor with INTEN, run as such or found along the run of
a chain (R210). -/

namespace Sys2Proof.Machine

/-- A line that a chain raises, a block of it with INTEN raised: the turn it was fetched in is found along the
run. -/
theorem turns_interrupt_of_irq_rises {c : ChannelId} {n : Nat} {s t : State}
    (h : turns c n s = .ended t) (hs : (s.ch c).irq = false) (ht : (t.ch c).irq = true) :
    ∃ m u, turns c m s = .running u ∧ u.eligible c = true ∧
      interruptEnable (u.currentBlock c).ti = true := by
  induction n generalizing s with
  | zero => cases h
  | succ n ih =>
    rw [turns] at h
    rcases chainPass_cases c s with
      ⟨-, hp⟩ | ⟨he, -, u, hu, hp⟩ | ⟨-, -, -, hp⟩ | ⟨-, r, hp, -⟩ <;> rw [hp] at h
    · cases h
      rw [exitStep_ch] at ht
      exact (Bool.false_ne_true (hs.symm.trans ht)).elim
    · rw [runFetched_eq] at hu
      obtain ⟨-, hirq, -⟩ := runBlock_flags hu
      by_cases hinten : interruptEnable (s.currentBlock c).ti = true
      · exact ⟨0, s, rfl, he, hinten⟩
      · have hu : (u.ch c).irq = false := by
          rw [Bool.not_eq_true] at hinten
          rw [hirq, hinten, Bool.or_false]
          exact hs
        obtain ⟨m, w, hw, hblock⟩ := ih h hu
        exact ⟨m + 1, w, by rw [turns, hp]; exact hw, hblock⟩
    · cases h
    · cases h

/-- Settles O54: of what an instruction can do, only a pass over a block and a chain raise a line. -/
theorem onlyInterruptDescriptorsRaiseTheLine : Obligations.OnlyInterruptDescriptorsRaiseTheLine := by
  intro i c s t h hs ht
  have hne : (t.ch c).irq ≠ (s.ch c).irq := by rw [hs, ht]; decide
  rcases exec_cases h with ⟨hctl, -⟩ | ⟨v, -, rfl⟩ | ⟨d, v, -, rfl⟩ | ⟨d, v, -, -, rfl⟩ |
    ⟨d, v, hi, -, hw⟩ | ⟨d, b, hi, -, g, hb⟩
  · exact (hne (by rw [State.ch, hctl, State.ch])).elim
  · exact (hne rfl).elim
  · exact (hne (setCh_begin_irq c d s _ rfl)).elim
  · exact (hne (setCh_begin_irq c d s _ rfl)).elim
  · obtain rfl : c = d := by
      by_contra hcd
      exact hne (by rw [((unchangedOutside_writeCs hw).1 c hcd).1])
    have hsteps : ((csSteps c v s.begin).ch c).irq = false := by
      rw [csSteps_irq, State.begin_ch, hs, Bool.false_and]
    obtain rfl | ⟨hv, hactive, hengine⟩ := writeCs_cases hw
    · exact (Bool.false_ne_true (hsteps.symm.trans ht)).elim
    · obtain ⟨n, hn⟩ := engine_next hengine
      obtain ⟨m, u, hu, he, hinten⟩ := turns_interrupt_of_irq_rises hn hsteps ht
      exact .inr ⟨v, m, u, hi, hv, hactive, hu, he, hinten⟩
  · obtain ⟨-, hirq, -, -, -, hout⟩ := runBlock_flags hb
    obtain rfl : c = d := by
      by_contra hcd
      exact hne (by rw [(hout.1 c hcd).1])
    rw [hs, Bool.false_or] at hirq
    exact .inl ⟨b, hi, hirq.symm.trans ht⟩

end Sys2Proof.Machine
end

section
/-! PROOFS. Frames: the channels, ENABLE and DEBUG change only by their own writes, and two bits of CS are
sticky (R11, R19, R34, R141, R142). -/

namespace Sys2Proof.Machine

/-! What only its own write changes. -/

/-- An instruction that names a channel touches nothing outside it; one that names none touches ENABLE at
most (R11, R34). -/
theorem exec_unchangedOutside {i : Instr} {s t : State} (h : exec i s = .next t) :
    (t.ctl = s.ctl) ∨ (∃ v, i = .wrEnable v ∧ t = s.begin.setEnable (v.extractLsb' 0 16)) ∨
      ∃ c, i.channel = some c ∧ UnchangedOutside c s t := by
  rcases exec_cases h with ⟨hctl, -⟩ | hen | ⟨c, v, hc, rfl⟩ | ⟨c, v, -, hc, rfl⟩ |
    ⟨c, v, -, hc, hw⟩ | ⟨c, b, -, hc, g, hb⟩
  · exact .inl hctl
  · exact .inr (.inl hen)
  · exact .inr (.inr ⟨c, hc, (unchangedOutside_begin c s).trans (unchangedOutside_setCh c _ _)⟩)
  · exact .inr (.inr ⟨c, hc, (unchangedOutside_begin c s).trans (unchangedOutside_setCh c _ _)⟩)
  · exact .inr (.inr ⟨c, hc, unchangedOutside_writeCs hw⟩)
  · obtain ⟨-, -, -, -, -, hout⟩ := runBlock_flags hb
    exact .inr (.inr ⟨c, hc, hout⟩)

/-- Settles O56. -/
theorem onlyItsWriteChangesEnable : Obligations.OnlyItsWriteChangesEnable := by
  intro i s t h hne
  rcases exec_unchangedOutside h with hctl | ⟨v, hi, -⟩ | ⟨c, -, -, henable, -⟩
  · exact (hne (by rw [hctl])).elim
  · exact ⟨v, hi⟩
  · exact (hne henable).elim

/-- Settles O57. -/
theorem otherChannelsAreUntouched : Obligations.OtherChannelsAreUntouched := by
  intro i d s t h hd
  rcases exec_unchangedOutside h with hctl | ⟨v, -, rfl⟩ | ⟨c, hc, hother, -⟩
  · exact ⟨by rw [State.ch, hctl, State.ch], by rw [hctl]⟩
  · exact ⟨rfl, rfl⟩
  · exact hother d fun e => hd (by rw [hc, e])

/-- A chain touches no DEBUG (R19). -/
theorem engine_debug {c : ChannelId} {s t : State} (h : engine c s = .next t) :
    (t.ch c).debug = (s.ch c).debug := by
  obtain ⟨u, hu, -, rfl⟩ := engine_induct (fun u => (u.ch c).debug = (s.ch c).debug)
    (fun u w hu _ _ hw => by
      rw [runFetched_eq] at hw
      obtain ⟨-, -, -, -, hdebug, -⟩ := runBlock_flags hw
      exact hdebug.trans hu) rfl h
  rw [exitStep_ch]
  exact hu

theorem writeCs_debug {c : ChannelId} {v : Word} {s t : State} (h : writeCs c v s = .next t) :
    (t.ch c).debug = (s.ch c).debug := by
  have hsteps : ((csSteps c v s.begin).ch c).debug = (s.ch c).debug := by rw [csSteps_ch]; rfl
  obtain rfl | ⟨-, -, hengine⟩ := writeCs_cases h
  · exact hsteps
  · exact (engine_debug hengine).trans hsteps

/-- Settles O58: the channel is the one the instruction names, and only its DEBUG write touches DEBUG. -/
theorem onlyItsWriteChangesDebug : Obligations.OnlyItsWriteChangesDebug := by
  intro i c s t h hne
  have hchannel : i.channel = some c := by
    by_contra hc
    exact hne (by rw [(otherChannelsAreUntouched i c s t h hc).1])
  rcases exec_cases h with ⟨hctl, -⟩ | ⟨v, -, rfl⟩ | ⟨d, v, hd, rfl⟩ | ⟨d, v, hi, hd, rfl⟩ |
    ⟨d, v, -, hd, hw⟩ | ⟨d, b, -, hd, g, hb⟩
  · exact (hne (by rw [State.ch, hctl, State.ch])).elim
  · exact (hne rfl).elim
  · cases hd.symm.trans hchannel
    exact (hne (by rw [State.ch_setCh_self])).elim
  · cases hd.symm.trans hchannel
    exact hi.imp (fun ⟨c', hc'⟩ => ⟨c', v, hc'⟩) fun hb => ⟨v, hb⟩
  · cases hd.symm.trans hchannel
    exact (hne (writeCs_debug hw)).elim
  · cases hd.symm.trans hchannel
    obtain ⟨-, -, -, -, hdebug, -⟩ := runBlock_flags hb
    exact (hne hdebug).elim

/-! The sticky bits (R141, R142, D26). -/

/-- Bit `k` of CS of channel `c`, if set in `s`, is set in `t`. -/
def KeepsBit (k : Nat) (c : ChannelId) (s t : State) : Prop :=
  (s.ch c).cs.getLsbD k = true → (t.ch c).cs.getLsbD k = true

theorem KeepsBit.of_unchangedOutside {k : Nat} {c d : ChannelId} {s t : State}
    (hu : UnchangedOutside d s t) (hcd : c ≠ d) : KeepsBit k c s t := by
  obtain ⟨hother, -⟩ := hu
  intro hs
  rw [(hother c hcd).1]
  exact hs

theorem csBit_sticky {k : Nat} (hk : k = Config.csReset ∨ k = Config.csAbort) (v old : Word) :
    csBit v old k = (old.getLsbD k || v.getLsbD k) := by
  have hmask : Config.csRwMask.getLsbD k = false := by obtain rfl | rfl := hk <;> decide
  rw [csBit, hmask, if_neg Bool.false_ne_true, if_pos hk]

theorem engine_keepsBit {k : Nat} {c : ChannelId} {s t : State}
    (hk : k = Config.csReset ∨ k = Config.csAbort) (h : engine c s = .next t) : KeepsBit k c s t := by
  have hne : k ≠ Config.csEnd ∧ k ≠ Config.csInt ∧ k ≠ Config.csActive := by
    obtain rfl | rfl := hk <;> decide
  obtain ⟨hend, hint, hactive⟩ := hne
  obtain ⟨u, hu, -, rfl⟩ := engine_induct (fun u => (u.ch c).cs.getLsbD k = (s.ch c).cs.getLsbD k)
    (fun u w hu _ _ hw => by
      rw [runFetched_eq] at hw
      exact (runBlock_getLsbD hw hend hint).trans hu) rfl h
  intro hs
  rw [exitStep_getLsbD c u hactive, hu, hs]

theorem writeCs_keepsBit {k : Nat} {c : ChannelId} {v : Word} {s t : State}
    (hk : k = Config.csReset ∨ k = Config.csAbort) (h : writeCs c v s = .next t) :
    KeepsBit k c s t := by
  have hlt : k < 32 := by obtain rfl | rfl := hk <;> decide
  have hsteps : KeepsBit k c s (csSteps c v s.begin) := fun hs => by
    rw [csSteps_cs c v _ k hlt, csBit_sticky hk, State.begin_ch, hs, Bool.true_or]
  obtain rfl | ⟨-, -, hengine⟩ := writeCs_cases h
  · exact hsteps
  · exact fun hs => engine_keepsBit hk hengine (hsteps hs)

theorem exec_keepsBit {i : Instr} {k : Nat} {c : ChannelId} {s t : State}
    (hk : k = Config.csReset ∨ k = Config.csAbort) (h : exec i s = .next t) : KeepsBit k c s t := by
  by_cases hchannel : i.channel = some c
  · rcases exec_cases h with ⟨hctl, -⟩ | ⟨v, -, rfl⟩ | ⟨d, v, hd, rfl⟩ | ⟨d, v, -, hd, rfl⟩ |
      ⟨d, v, -, hd, hw⟩ | ⟨d, b, -, hd, g, hb⟩
    · intro hs
      rw [State.ch, hctl]
      exact hs
    · exact id
    · cases hd.symm.trans hchannel
      intro hs
      rw [State.ch_setCh_self]
      exact hs
    · cases hd.symm.trans hchannel
      intro hs
      rw [State.ch_setCh_self]
      exact hs
    · cases hd.symm.trans hchannel
      exact writeCs_keepsBit hk hw
    · cases hd.symm.trans hchannel
      have hne : k ≠ Config.csEnd ∧ k ≠ Config.csInt := by obtain rfl | rfl := hk <;> decide
      exact (runBlock_getLsbD hb hne.1 hne.2).trans
  · intro hs
    rw [(otherChannelsAreUntouched i c s t h hchannel).1]
    exact hs

/-- Settles O55. -/
theorem resetAndAbortBitsAreSticky : Obligations.ResetAndAbortBitsAreSticky :=
  fun _ _ _ _ h => ⟨exec_keepsBit (.inl rfl) h, exec_keepsBit (.inr rfl) h⟩

end Sys2Proof.Machine
end

section
/-! PROOFS. The memory port of a copy: which accesses a block makes and in which order, when it is refused and
when it never ends, and that memory changes only by the writes shown there (R165 to R169, R183, R193). -/

namespace Sys2Proof.Machine

/-! The accesses of a linear block. -/

/-- The accesses of R187 are those of the steps of the copy. -/
theorem linearTraffic_eq_stepsPort (b : Block) (m : Mem) (n : Nat) :
    linearTraffic b m n = Copied.stepsPort b.ti n ⟨m, b.src, b.dst⟩ := by
  induction n with
  | zero => rfl
  | succ n ih =>
    obtain ⟨hsrc, hdst⟩ := Copied.steps_cursors b.ti n ⟨m, b.src, b.dst⟩
    rw [linearTraffic, ih, Copied.stepsPort_succ, linearMemory_eq_steps]
    congr 2
    exact congrArg₂ (Copied.mk _) hsrc.symm hdst.symm

theorem passTraffic_linear {b : Block} (h : b.len.toNat % 4 = 0) (m : Mem) :
    passTraffic (linearGeometry b) b m = linearTraffic b m (b.len.toNat / 4) :=
  (passTraffic_linearGeometry h m).trans (linearTraffic_eq_stepsPort b m _).symm

theorem rowSteps_eq_none_iff {x : Word} : rowSteps x = none ↔ x.toNat % 4 ≠ 0 := by
  unfold rowSteps
  split <;> simp [*]

/-- The one row of a linear block ends if its count is of whole words (R183). -/
theorem linearGeometry_ends_iff (b : Block) :
    ((linearGeometry b).rows = 0 ∨ rowSteps (linearGeometry b).rowBytes ≠ none) ↔
      b.len.toNat % 4 = 0 := by
  rw [linearGeometry_rows, linearGeometry_rowBytes, ne_eq, rowSteps_eq_none_iff, not_not]
  exact or_iff_right Nat.one_ne_zero

/-- A 2D block ends if it has no row or its rows are of whole words (R183, R184). -/
theorem planeGeometry_ends_iff (b : Block) :
    ((planeGeometry b).rows = 0 ∨ rowSteps (planeGeometry b).rowBytes ≠ none) ↔
      (planeRows b = 0 ∨ planeBytes b % 4 = 0) := by
  rw [planeGeometry_rows, ne_eq, rowSteps_eq_none_iff, planeGeometry_rowBytes_toNat, not_not]

/-- A pass that completes has rows that end. -/
theorem runBlock_ends {g : Geometry} {c : ChannelId} {b : Block} {s t : State}
    (h : runBlock g c b s = .next t) : g.rows = 0 ∨ rowSteps g.rowBytes ≠ none := by
  obtain ⟨n, -, hrow, -⟩ := runBlock_next h
  exact hrow.imp_right fun hn => by rw [hn]; exact Option.some_ne_none n

theorem runBlock_traffic {g : Geometry} {c : ChannelId} {b : Block} {s t : State}
    (h : runBlock g c b s = .next t) : t.out.traffic = passTraffic g b s.mem ++ s.out.traffic := by
  obtain ⟨n, -, -, -, -, -, -, -, htraffic, -⟩ := runBlock_next h
  exact htraffic

/-- Settles O37. -/
theorem linearBlockUsesThePortInOrder : Obligations.LinearBlockUsesThePortInOrder := by
  intro c b s t h
  rw [exec_cbLinear] at h
  rw [runBlock_traffic h, passTraffic_linear ((linearGeometry_ends_iff b).1 (runBlock_ends h))]

/-! The accesses of a turn. -/

/-- A pass over a fetched block shows the accesses of its branch. -/
theorem runFetched_traffic {c : ChannelId} {b : Block} {s t : State}
    (h : runFetched c b s = .next t) : t.out.traffic =
      (if twoDimensional b.ti then planeTraffic b s.mem
        else linearTraffic b s.mem (b.len.toNat / 4)) ++ s.out.traffic := by
  unfold runFetched at h
  split at h
  next h2 =>
    have h : runBlock (planeGeometry b) c b s = .next t := h
    rw [if_pos h2, runBlock_traffic h,
      passTraffic_planeGeometry ((planeGeometry_ends_iff b).1 (runBlock_ends h))]
  next h2 =>
    have h : runBlock (linearGeometry b) c b s = .next t := h
    rw [if_neg h2, runBlock_traffic h,
      passTraffic_linear ((linearGeometry_ends_iff b).1 (runBlock_ends h))]

/-- Settles O45: the fetch, then the pass; each step of the copy makes the same number of accesses. -/
theorem turnUsesThePortAsCounted : Obligations.TurnUsesThePortAsCounted := by
  intro c s t h
  rcases chainPass_cases c s with
    ⟨-, hp⟩ | ⟨-, -, u, hu, hp⟩ | ⟨-, -, -, hp⟩ | ⟨-, r, hp, -⟩ <;> rw [hp] at h <;> cases h
  have htraffic := runFetched_traffic hu
  rw [fetchStep_traffic, ← List.append_assoc] at htraffic
  refine ⟨htraffic, ?_⟩
  have hfetch : (fetchTraffic (s.ch c).conblkAd (s.currentBlock c)).length = 6 := rfl
  rw [htraffic, List.length_append, List.length_append, hfetch]
  have hcopy : ∀ k n, k = n → k + 6 + s.out.traffic.length = s.out.traffic.length + 6 + n := by
    omega
  refine hcopy _ _ ?_
  split
  · rw [planeTraffic, Copied.rowsPort_length, Nat.mul_assoc]
  · rw [linearTraffic_eq_stepsPort, Copied.stepsPort_length]

/-! When a block stops. -/

/-- A row that never ends is refused for what its steps run into (R183, R51). -/
theorem Accessor.endlessRefusal_eq_some_iff {k : Accessor} {ti : Word} {q : Copied} {r : Refusal} :
    k.endlessRefusal ti q.src q.dst = some r ↔ ∃ n, k.firstRefusal (q.stepsPort ti n) = some r := by
  rcases k.endlessRefusal_cases ti q with ⟨he, hn⟩ | ⟨r', n', he, hn'⟩
  · simp [he, hn]
  · rw [he]
    constructor
    · rintro ⟨⟩
      exact ⟨n', hn'⟩
    · rintro ⟨n, hn⟩
      rw [← Accessor.firstRefusal_stepsPort_mono hn' (Nat.le_max_left n' n),
        Accessor.firstRefusal_stepsPort_mono hn (Nat.le_max_right n' n)]

theorem Accessor.endlessRefusal_eq_none_iff {k : Accessor} {ti : Word} {q : Copied} :
    k.endlessRefusal ti q.src q.dst = none ↔ ∀ n, k.firstRefusal (q.stepsPort ti n) = none := by
  rcases k.endlessRefusal_cases ti q with ⟨he, hn⟩ | ⟨r', n', he, hn'⟩
  · exact iff_of_true he hn
  · refine iff_of_false (by rw [he]; nofun) fun h => ?_
    rw [h n'] at hn'
    cases hn'

/-- A pass is refused exactly for the first of its accesses that is refused, whether or not its rows end. -/
theorem runBlock_refused_iff {g : Geometry} {c : ChannelId} {b : Block} {s : State} {r : Refusal} :
    runBlock g c b s = .refused r ↔
      if g.rows = 0 ∨ rowSteps g.rowBytes ≠ none then
        s.mem.accessor.firstRefusal (passTraffic g b s.mem) = some r
      else ∃ n, s.mem.accessor.firstRefusal
        (Copied.stepsPort b.ti n ⟨s.mem, b.src, b.dst⟩) = some r := by
  rw [← Accessor.endlessRefusal_eq_some_iff]
  rcases runBlock_outcome g c b s with ⟨hend, ⟨r', hr, hb⟩ | ⟨hr, hb⟩⟩ | ⟨hend, ⟨r', hr, hb⟩ | ⟨hr, t, hb⟩⟩
  · simp [if_neg hend, hr, hb]
  · simp [if_neg hend, hr, hb]
  · simp [if_pos hend, hr, hb]
  · simp [if_pos hend, hr, hb]

/-- A pass faults exactly where its rows never end and none of their accesses is refused. -/
theorem runBlock_fault_iff {g : Geometry} {c : ChannelId} {b : Block} {s : State} :
    runBlock g c b s = .fault (.rowNeverEnds c) ↔
      ¬ (g.rows = 0 ∨ rowSteps g.rowBytes ≠ none) ∧
      ∀ n, s.mem.accessor.firstRefusal
        (Copied.stepsPort b.ti n ⟨s.mem, b.src, b.dst⟩) = none := by
  rw [← Accessor.endlessRefusal_eq_none_iff]
  rcases runBlock_outcome g c b s with ⟨hend, ⟨r', hr, hb⟩ | ⟨hr, hb⟩⟩ | ⟨hend, ⟨r', hr, hb⟩ | ⟨hr, t, hb⟩⟩
  · simp [hr, hb]
  · exact iff_of_true hb ⟨hend, hr⟩
  · exact iff_of_false (by rw [hb]; nofun) fun h => h.1 hend
  · exact iff_of_false (by rw [hb]; nofun) fun h => h.1 hend

/-- Settles O46. -/
theorem blockIsRefusedAtItsFirstRefusedAccess : Obligations.BlockIsRefusedAtItsFirstRefusedAccess := by
  refine fun c b s r => ⟨?_, ?_⟩
  · rw [exec_cbLinear, runBlock_refused_iff]
    simp only [linearGeometry_ends_iff, linearTraffic_eq_stepsPort]
    split
    next h => rw [passTraffic_linearGeometry h]
    next => rfl
  · rw [exec_cb2D, runBlock_refused_iff]
    simp only [planeGeometry_ends_iff]
    split
    next h => rw [passTraffic_planeGeometry h]
    next => rfl

theorem planeGeometry_rowBytes (b : Block) :
    (planeGeometry b).rowBytes = BitVec.ofNat 32 (planeBytes b) := by
  rw [← planeGeometry_rowBytes_toNat, BitVec.ofNat_toNat, BitVec.setWidth_eq]

/-- Settles O38: a count never reaches 0 where it has no number of steps. -/
theorem blockStopsWhereARowNeverEnds : Obligations.BlockStopsWhereARowNeverEnds := by
  refine fun c b s => ⟨?_, ?_⟩
  · rw [exec_cbLinear, runBlock_fault_iff, linearGeometry_rows, linearGeometry_rowBytes,
      or_iff_right Nat.one_ne_zero, not_not, rowSteps_none]
    simp only [linearTraffic_eq_stepsPort]
  · rw [exec_cb2D, runBlock_fault_iff, planeGeometry_rows, not_or, not_not, rowSteps_none,
      planeGeometry_rowBytes, and_assoc]

/-! Memory changes only by the writes on the port. -/

/-- The byte at `x` stands in no word that the accesses write. -/
def NotWritten (k : Accessor) (l : List MemAccess) (x : Nat) : Prop :=
  ∀ w v, .write w v ∈ l → ¬ k.InWord x w

theorem notWritten_append {k : Accessor} {l older : List MemAccess} {x : Nat} :
    NotWritten k (l ++ older) x ↔ NotWritten k l x ∧ NotWritten k older x := by
  unfold NotWritten
  simp only [List.mem_append, or_imp, forall_and]

theorem Copied.readByte_step {ti : Word} {q : Copied} (hwf : q.mem.wf) {x : Nat}
    (hx : NotWritten q.mem.accessor (q.port ti) x) :
    (q.step ti).mem.readByte x = q.mem.readByte x := by
  by_cases hd : destIgnore ti = true
  · simp [Copied.step, hd]
  · simp only [Copied.step, if_neg hd]
    refine Mem.readByte_writeWord_of_not_inWord hwf _ _ _ (hx q.dst (if sourceIgnore ti then 0 else q.mem.readWord q.src) ?_)
    rw [Copied.port, if_neg hd]
    exact List.mem_cons_self

theorem Copied.readByte_steps {ti : Word} {n : Nat} {q : Copied} (hwf : q.mem.wf) {x : Nat}
    (hx : NotWritten q.mem.accessor (q.stepsPort ti n) x) :
    (q.steps ti n).mem.readByte x = q.mem.readByte x := by
  induction n generalizing q with
  | zero => rfl
  | succ n ih =>
    rw [Copied.stepsPort, notWritten_append] at hx
    obtain ⟨hlater, hfirst⟩ := hx
    rw [Copied.steps, ih (Copied.wf_step ti hwf) (by rwa [Copied.step_accessor]),
      Copied.readByte_step hwf hfirst]

/-- The strides added between two rows (R169). -/
def Copied.nextRow (ss ds : Word) (q : Copied) : Copied := ⟨q.mem, q.src + ss, q.dst + ds⟩

/-- The later rows are a copy that starts at the second; after the last row the memory is the same with and
without the strides. -/
theorem Copied.rows_succ_mem (ti ss ds : Word) (n rows : Nat) (q : Copied) :
    (q.rows ti ss ds n (rows + 1)).mem =
      (((q.steps ti n).nextRow ss ds).rows ti ss ds n rows).mem := by
  rw [Copied.rows]
  split
  next h => rw [h]; rfl
  next => rfl

theorem Copied.rowsPort_succ (ti ss ds : Word) (n rows : Nat) (q : Copied) :
    q.rowsPort ti ss ds n (rows + 1) =
      ((q.steps ti n).nextRow ss ds).rowsPort ti ss ds n rows ++ q.stepsPort ti n := by
  rw [Copied.rowsPort]
  congr 1
  split
  next h => rw [h]; rfl
  next => rfl

theorem Copied.nextRow_steps_accessor (ti ss ds : Word) (n : Nat) (q : Copied) :
    ((q.steps ti n).nextRow ss ds).mem.accessor = q.mem.accessor :=
  Copied.steps_accessor ti n q

theorem Copied.wf_nextRow_steps (ti ss ds : Word) (n : Nat) {q : Copied} (hwf : q.mem.wf) :
    ((q.steps ti n).nextRow ss ds).mem.wf :=
  Copied.wf_steps ti n hwf

theorem Copied.readByte_rows {ti ss ds : Word} {n rows : Nat} {q : Copied} (hwf : q.mem.wf) {x : Nat}
    (hx : NotWritten q.mem.accessor (q.rowsPort ti ss ds n rows) x) :
    (q.rows ti ss ds n rows).mem.readByte x = q.mem.readByte x := by
  induction rows generalizing q with
  | zero => rfl
  | succ rows ih =>
    rw [Copied.rowsPort_succ, notWritten_append] at hx
    obtain ⟨hlater, hfirst⟩ := hx
    rw [Copied.rows_succ_mem, ih (Copied.wf_nextRow_steps ti ss ds n hwf)
      (by rwa [Copied.nextRow_steps_accessor])]
    exact Copied.readByte_steps hwf hfirst

/-- A pass changes no byte that none of its accesses writes. -/
theorem runBlock_readByte {g : Geometry} {c : ChannelId} {b : Block} {s t : State} (hwf : s.mem.wf)
    (h : runBlock g c b s = .next t) {x : Nat}
    (hx : NotWritten s.mem.accessor (passTraffic g b s.mem) x) :
    t.mem.readByte x = s.mem.readByte x := by
  obtain ⟨n, rfl, -, hmem, -⟩ := runBlock_next h
  rw [hmem]
  exact Copied.readByte_rows hwf hx

/-- The memory of `t` is behind the accessor of `s`, and has the bytes of `s` but for words that the port of
`t` shows written. -/
structure WrittenThroughPort (s t : State) : Prop where
  wf : t.mem.wf
  accessor : t.mem.accessor = s.mem.accessor
  frame : ∀ x, NotWritten s.mem.accessor t.out.traffic x → t.mem.readByte x = s.mem.readByte x

theorem WrittenThroughPort.of_mem_eq {s t : State} (hwf : s.mem.wf) (h : t.mem = s.mem) :
    WrittenThroughPort s t :=
  ⟨by rwa [h], by rw [h], fun _ _ => by rw [h]⟩

/-- A turn adds its fetch, which writes nothing, and its pass. -/
theorem WrittenThroughPort.of_turn {c : ChannelId} {s u t : State} (hu : WrittenThroughPort s u)
    (h : runFetched c (u.currentBlock c) (fetchStep c u) = .next t) : WrittenThroughPort s t := by
  rw [runFetched_eq] at h
  refine ⟨runBlock_wf h hu.wf, (runBlock_accessor h).trans hu.accessor, fun x hx => ?_⟩
  rw [runBlock_traffic h, notWritten_append, fetchStep_traffic, notWritten_append] at hx
  obtain ⟨hpass, -, hbefore⟩ := hx
  rw [runBlock_readByte (s := fetchStep c u) hu.wf h (by
    rw [show (fetchStep c u).mem = u.mem from rfl, hu.accessor]
    exact hpass)]
  exact hu.frame x hbefore

theorem WrittenThroughPort.of_engine {c : ChannelId} {s u t : State} (hu : WrittenThroughPort s u)
    (h : engine c u = .next t) : WrittenThroughPort s t := by
  obtain ⟨w, hw, -, rfl⟩ := engine_induct (WrittenThroughPort s) (fun _ _ hu _ _ hw => hu.of_turn hw) hu h
  exact ⟨hw.wf, hw.accessor, hw.frame⟩

/-- Settles O59: of what an access can do only the chain of a CS write touches memory, and each turn keeps
the frame. -/
theorem memoryIsWrittenOnlyThroughThePort : Obligations.MemoryIsWrittenOnlyThroughThePort := by
  rintro i s t hwf ⟨key, v, henc⟩ h
  suffices hport : WrittenThroughPort s t from fun a ha => hport.frame a ha
  rcases exec_cases h with ⟨-, hmem, -⟩ | ⟨v, -, rfl⟩ | ⟨d, v, -, rfl⟩ | ⟨d, v, -, -, rfl⟩ |
    ⟨d, v, -, -, hw⟩ | ⟨d, b, hi, -⟩
  · exact .of_mem_eq hwf hmem
  · exact .of_mem_eq hwf rfl
  · exact .of_mem_eq hwf rfl
  · exact .of_mem_eq hwf rfl
  · have hsteps : WrittenThroughPort s (csSteps d v s.begin) := .of_mem_eq hwf (csSteps_mem d v s.begin)
    obtain rfl | ⟨-, -, hengine⟩ := writeCs_cases hw
    · exact hsteps
    · exact hsteps.of_engine hengine
  · obtain rfl | rfl := hi <;> cases henc

end Sys2Proof.Machine
end

section
/-! PROOFS. What a copy leaves in memory: the frame of both forms, and the words at the destination where they
are apart, where they overlap and where the source is ignored (R41, R42, R52, R166 to R169). -/

namespace Sys2Proof.Machine

/-! Words in memory. -/

/-- Bits `8 * i + 7 : 8 * i` of a word stored stand in its slot `i` (R42). -/
theorem Mem.readByte_writeWord_slot {m : Mem} (hwf : m.wf) (a v : Word) {i : Nat} (hi : i < 4) :
    (m.writeWord a v).readByte (m.slot a i) = v.extractLsb' (8 * i) 8 := by
  have hne : ∀ j, j < 4 → i ≠ j → m.slot a i ≠ m.slot a j := fun j hj hij e => hij (m.slot_inj hi hj e)
  rw [Mem.readByte_writeWord hwf]
  obtain rfl | rfl | rfl | rfl : i = 0 ∨ i = 1 ∨ i = 2 ∨ i = 3 := by omega
  · rw [if_neg (hne 3 (by omega) (by omega)), if_neg (hne 2 (by omega) (by omega)),
      if_neg (hne 1 (by omega) (by omega)), if_pos rfl]
  · rw [if_neg (hne 3 (by omega) (by omega)), if_neg (hne 2 (by omega) (by omega)), if_pos rfl]
  · rw [if_neg (hne 3 (by omega) (by omega)), if_pos rfl]
  · rw [if_pos rfl]

/-- Settles O48: byte `i` from the address up is the slot that the byte order places there. -/
theorem wordsStandInTheByteOrder : Obligations.WordsStandInTheByteOrder := by
  intro m a v hwf
  refine ⟨Mem.readWord_writeWord hwf a v,
    fun x => Mem.readByte_writeWord_of_not_inWord hwf a v x, fun i hi => ?_⟩
  have hslot : m.accessor.byteLocation a i = m.slot a (m.accessor.order.place i) := by
    rw [Mem.slot, ByteOrder.place_place _ hi]
  rw [hslot, Mem.readByte_writeWord_slot hwf a v (ByteOrder.place_lt _ hi)]
  cases m.accessor.order <;> rfl

/-- A word whose four bytes read alike reads alike. -/
theorem Mem.readWord_congr {m m' : Mem} (ha : m'.accessor = m.accessor) {a : Word}
    (h : ∀ x, m.accessor.InWord x a → m'.readByte x = m.readByte x) : m'.readWord a = m.readWord a := by
  have hslot : ∀ i, i < 4 → m'.readByte (m'.slot a i) = m.readByte (m.slot a i) := fun i hi => by
    rw [Mem.slot, ha]
    exact h _ ⟨_, m.accessor.order.place_lt hi, rfl⟩
  simp only [Mem.readWord, hslot, Nat.lt_add_one, Nat.one_lt_ofNat, Nat.ofNat_pos, Nat.reduceLT]

/-! Words a whole number of words apart: they share no byte, or every byte (the memory may wrap). -/

/-- Two bytes modulo the size of a memory that 4 divides: at a distance of words they are one byte only if
the distance wraps. -/
theorem dvd_of_mod_eq {size a m i j : Nat} (h4 : 4 ∣ size) (hi : i < 4) (hj : j < 4)
    (h : (a + 4 * m + i) % size = (a + j) % size) : size ∣ 4 * m := by
  have hmod : (a + 4 * m + i) % 4 = (a + j) % 4 := by
    rw [← Nat.mod_mod_of_dvd _ h4, h, Nat.mod_mod_of_dvd _ h4]
  obtain rfl : i = j := by omega
  have hcancel : 4 * m ≡ 0 [MOD size] := by
    refine Nat.ModEq.add_left_cancel' (a + i) ?_
    rw [Nat.add_right_comm, Nat.add_zero]
    exact h
  exact (Nat.modEq_zero_iff_dvd).1 hcancel

/-- How many bytes the memory behind the accessor has. -/
def Accessor.size (k : Accessor) : Nat := 2 ^ (32 - k.ignored.val)

theorem Accessor.size_dvd (k : Accessor) : k.size ∣ 2 ^ 32 := Nat.pow_dvd_pow 2 (Nat.sub_le 32 _)

theorem Accessor.four_dvd_size (k : Accessor) : 4 ∣ k.size := by
  have hlt := k.ignored.isLt
  exact Nat.pow_dvd_pow 2 (show 2 ≤ 32 - k.ignored.val by omega)

theorem Accessor.byteLocation_add (k : Accessor) (a : Word) (m i : Nat) :
    k.byteLocation (a + BitVec.ofNat 32 m) i = (a.toNat + m + i) % k.size := by
  have h : (a + BitVec.ofNat 32 m + BitVec.ofNat 32 i).toNat = (a.toNat + m + i) % 2 ^ 32 := by
    simp only [BitVec.toNat_add, BitVec.toNat_ofNat]
    omega
  rw [Accessor.byteLocation, Accessor.location, h]
  exact Nat.mod_mod_of_dvd _ k.size_dvd

theorem Accessor.byteLocation_eq (k : Accessor) (a : Word) (i : Nat) :
    k.byteLocation a i = (a.toNat + i) % k.size := by
  have h := k.byteLocation_add a 0 i
  rwa [BitVec.add_zero, Nat.add_zero] at h

theorem Accessor.apart_of_not_dvd {k : Accessor} {m : Nat} (h : ¬ k.size ∣ 4 * m) (a : Word) :
    k.Apart a (a + BitVec.ofNat 32 (4 * m)) := by
  rintro x ⟨i, hi, rfl⟩ ⟨j, hj, hx⟩
  rw [k.byteLocation_eq, k.byteLocation_add] at hx
  exact h (dvd_of_mod_eq k.four_dvd_size hj hi hx.symm)

theorem Accessor.byteLocation_of_dvd {k : Accessor} {m : Nat} (h : k.size ∣ 4 * m) (a : Word) (i : Nat) :
    k.byteLocation (a + BitVec.ofNat 32 (4 * m)) i = k.byteLocation a i := by
  rw [k.byteLocation_add, k.byteLocation_eq, Nat.add_right_comm]
  obtain ⟨q, hq⟩ := h
  rw [hq, Nat.add_mul_mod_self_left]

/-- Storing a value whole words away leaves a word that holds it already. -/
theorem Mem.readWord_writeWord_same_value {m : Mem} (hwf : m.wf) {a v : Word} (h : m.readWord a = v)
    (n : Nat) : (m.writeWord (a + BitVec.ofNat 32 (4 * n)) v).readWord a = v := by
  by_cases hdvd : m.accessor.size ∣ 4 * n
  · have hsame : ∀ i, (m.writeWord (a + BitVec.ofNat 32 (4 * n)) v).slot a i =
        (m.writeWord (a + BitVec.ofNat 32 (4 * n)) v).slot (a + BitVec.ofNat 32 (4 * n)) i := fun i => by
      rw [Mem.slot, Mem.slot, Mem.writeWord_accessor, Accessor.byteLocation_of_dvd hdvd]
    rw [Mem.readWord, hsame, hsame, hsame, hsame]
    exact Mem.readWord_writeWord hwf _ v
  · rw [Mem.readWord_writeWord_of_apart hwf _ _ _ (Accessor.apart_of_not_dvd hdvd a), h]

/-! Where the writes of a copy go. -/

theorem Copied.write_mem_port {ti : Word} {q : Copied} {w v : Word} (h : .write w v ∈ q.port ti) :
    destIgnore ti = false ∧ w = q.dst := by
  unfold Copied.port at h
  cases hd : destIgnore ti <;> cases hs : sourceIgnore ti <;> simp [hd, hs] at h
  · exact ⟨rfl, h.1⟩
  · exact ⟨rfl, h.1⟩

theorem Copied.write_mem_stepsPort {ti : Word} {n : Nat} {q : Copied} {w v : Word}
    (h : .write w v ∈ q.stepsPort ti n) :
    destIgnore ti = false ∧ ∃ i, i < n ∧ w = cursorAt (destIncrement ti) q.dst i := by
  induction n with
  | zero => cases h
  | succ n ih =>
    rw [Copied.stepsPort_succ, List.mem_append] at h
    obtain h | h := h
    · obtain ⟨hd, hw⟩ := Copied.write_mem_port h
      exact ⟨hd, n, Nat.lt_succ_self n, hw.trans (Copied.steps_cursors ti n q).2⟩
    · obtain ⟨hd, i, hi, hw⟩ := ih h
      exact ⟨hd, i, Nat.lt_succ_of_lt hi, hw⟩

theorem Copied.nextRow_steps_src (ti ss ds : Word) (n : Nat) (q : Copied) :
    ((q.steps ti n).nextRow ss ds).src = cursorAt (sourceIncrement ti) q.src n + ss :=
  congrArg (· + ss) (Copied.steps_cursors ti n q).1

theorem Copied.nextRow_steps_dst (ti ss ds : Word) (n : Nat) (q : Copied) :
    ((q.steps ti n).nextRow ss ds).dst = cursorAt (destIncrement ti) q.dst n + ds :=
  congrArg (· + ds) (Copied.steps_cursors ti n q).2

theorem Copied.write_mem_rowsPort {ti ss ds : Word} {n rows : Nat} {q : Copied} {w v : Word}
    (h : .write w v ∈ q.rowsPort ti ss ds n rows) :
    destIgnore ti = false ∧
      ∃ j i, j < rows ∧ i < n ∧ w = planeCursor (destIncrement ti) ds n q.dst j i := by
  induction rows generalizing q with
  | zero => cases h
  | succ rows ih =>
    rw [Copied.rowsPort_succ, List.mem_append] at h
    obtain h | h := h
    · obtain ⟨hd, j, i, hj, hi, hw⟩ := ih h
      rw [Copied.nextRow_steps_dst, ← planeCursor_succ] at hw
      exact ⟨hd, j + 1, i, Nat.succ_lt_succ hj, hi, hw⟩
    · obtain ⟨hd, i, hi, hw⟩ := Copied.write_mem_stepsPort h
      exact ⟨hd, 0, i, Nat.succ_pos rows, hi, by rw [planeCursor_zero, hw]⟩

/-! The frame of a block. -/

/-- A pass whose accesses write nothing leaves the memory as it was. -/
theorem runBlock_mem_of_no_write {g : Geometry} {c : ChannelId} {b : Block} {s t : State}
    (hwf : s.mem.wf) (h : runBlock g c b s = .next t)
    (hno : ∀ w v, .write w v ∉ passTraffic g b s.mem) : t.mem = s.mem :=
  Mem.ext_readByte (runBlock_wf h hwf) hwf (runBlock_accessor h) fun _ =>
    runBlock_readByte hwf h fun w v hw => (hno w v hw).elim

/-- Settles O39. -/
theorem linearBlockStoresOnlyToItsWords : Obligations.LinearBlockStoresOnlyToItsWords := by
  intro c b s t hwf h
  rw [exec_cbLinear] at h
  have hpass := passTraffic_linearGeometry ((linearGeometry_ends_iff b).1 (runBlock_ends h)) s.mem
  refine ⟨fun hd => runBlock_mem_of_no_write hwf h fun w v hw => ?_,
    fun a ha => runBlock_readByte hwf h fun w v hw => ?_⟩
  · rw [hpass] at hw
    exact Bool.false_ne_true ((Copied.write_mem_stepsPort hw).1.symm.trans hd)
  · rw [hpass] at hw
    obtain ⟨-, i, hi, rfl⟩ := Copied.write_mem_stepsPort hw
    exact ha i hi

/-- Settles O40. -/
theorem planeBlockStoresOnlyToItsWords : Obligations.PlaneBlockStoresOnlyToItsWords := by
  intro c b s t hwf h
  rw [exec_cb2D] at h
  have hpass := passTraffic_planeGeometry ((planeGeometry_ends_iff b).1 (runBlock_ends h)) s.mem
  refine ⟨fun hd => runBlock_mem_of_no_write hwf h fun w v hw => ?_,
    fun a ha => runBlock_readByte hwf h fun w v hw => ?_⟩
  · rw [hpass] at hw
    exact Bool.false_ne_true ((Copied.write_mem_rowsPort hw).1.symm.trans hd)
  · rw [hpass] at hw
    obtain ⟨-, j, i, hj, hi, rfl⟩ := Copied.write_mem_rowsPort hw
    exact ha j i hj hi

/-! Words that the copy leaves alone. -/

theorem Copied.readWord_steps {ti : Word} {n : Nat} {q : Copied} (hwf : q.mem.wf) {a : Word}
    (h : ∀ i, i < n → q.mem.accessor.Apart a (cursorAt (destIncrement ti) q.dst i)) :
    (q.steps ti n).mem.readWord a = q.mem.readWord a :=
  Mem.readWord_congr (Copied.steps_accessor ti n q) fun x hx => Copied.readByte_steps hwf fun w v hw => by
    obtain ⟨-, i, hi, rfl⟩ := Copied.write_mem_stepsPort hw
    exact h i hi x hx

theorem Copied.readWord_rows {ti ss ds : Word} {n rows : Nat} {q : Copied} (hwf : q.mem.wf) {a : Word}
    (h : ∀ j i, j < rows → i < n →
      q.mem.accessor.Apart a (planeCursor (destIncrement ti) ds n q.dst j i)) :
    (q.rows ti ss ds n rows).mem.readWord a = q.mem.readWord a :=
  Mem.readWord_congr (Copied.rows_accessor ti ss ds n rows q) fun x hx =>
    Copied.readByte_rows hwf fun w v hw => by
      obtain ⟨-, j, i, hj, hi, rfl⟩ := Copied.write_mem_rowsPort hw
      exact h j i hj hi x hx

/-! Words that the copy stores. -/

/-- The data of the next step (R166). -/
def Copied.data (ti : Word) (q : Copied) : Word :=
  if sourceIgnore ti then 0 else q.mem.readWord q.src

/-- One more step stores its data at its cursor (R167). -/
theorem Copied.steps_succ_mem {ti : Word} (hd : destIgnore ti = false) (n : Nat) (q : Copied) :
    (q.steps ti (n + 1)).mem =
      (q.steps ti n).mem.writeWord (cursorAt (destIncrement ti) q.dst n) ((q.steps ti n).data ti) := by
  rw [Copied.steps_succ, ← (Copied.steps_cursors ti n q).2]
  exact if_neg (by rw [hd]; decide)

theorem Copied.readWord_steps_last {ti : Word} (hd : destIgnore ti = false) (n : Nat) {q : Copied}
    (hwf : q.mem.wf) : (q.steps ti (n + 1)).mem.readWord (cursorAt (destIncrement ti) q.dst n) =
      (q.steps ti n).data ti := by
  rw [Copied.steps_succ_mem hd]
  exact Mem.readWord_writeWord (Copied.wf_steps ti n hwf) _ _

/-- Words stored apart from each other each keep the data of their step. -/
theorem Copied.readWord_steps_of_apart {ti : Word} (hd : destIgnore ti = false) {n : Nat} {q : Copied}
    (hwf : q.mem.wf) (h : ∀ i j, i < n → j < n → i ≠ j →
      q.mem.accessor.Apart (cursorAt (destIncrement ti) q.dst i) (cursorAt (destIncrement ti) q.dst j))
    {i : Nat} (hi : i < n) : (q.steps ti n).mem.readWord (cursorAt (destIncrement ti) q.dst i) =
      (q.steps ti i).data ti := by
  induction n with
  | zero => cases hi
  | succ n ih =>
    obtain hlt | rfl := Nat.lt_succ_iff_lt_or_eq.1 hi
    · rw [Copied.steps_succ_mem hd, Mem.readWord_writeWord_of_apart (Copied.wf_steps ti n hwf)]
      · exact ih (fun i j hi hj => h i j (by omega) (by omega)) hlt
      · rw [Copied.steps_accessor]
        exact h i n hi (Nat.lt_succ_self n) (by omega)
    · exact Copied.readWord_steps_last hd i hwf

/-- The data of a step whose source word no step before it stores to is the word the copy found there. -/
theorem Copied.data_steps {ti : Word} (hs : sourceIgnore ti = false) {i : Nat} {q : Copied}
    (hwf : q.mem.wf) (h : ∀ j, j < i → q.mem.accessor.Apart (cursorAt (sourceIncrement ti) q.src i)
      (cursorAt (destIncrement ti) q.dst j)) :
    (q.steps ti i).data ti = q.mem.readWord (cursorAt (sourceIncrement ti) q.src i) := by
  rw [Copied.data, hs, if_neg Bool.false_ne_true, (Copied.steps_cursors ti i q).1]
  exact Copied.readWord_steps hwf h

theorem cursorAt_add (up : Bool) (a : Word) (i k : Nat) :
    cursorAt up a (i + k) = cursorAt up a i + BitVec.ofNat 32 (4 * if up then k else 0) := by
  cases up
  · simp [cursorAt]
  · simp only [cursorAt, if_true, Nat.mul_add, BitVec.ofNat_add, BitVec.add_assoc]

/-- If every step stores one value, every word stored to holds it, however the words overlap. -/
theorem Copied.readWord_steps_of_data_eq {ti v : Word} (hd : destIgnore ti = false) {n : Nat} {q : Copied}
    (hwf : q.mem.wf) (h : ∀ i, i < n → (q.steps ti i).data ti = v) {i : Nat} (hi : i < n) :
    (q.steps ti n).mem.readWord (cursorAt (destIncrement ti) q.dst i) = v := by
  induction n with
  | zero => cases hi
  | succ n ih =>
    obtain hlt | rfl := Nat.lt_succ_iff_lt_or_eq.1 hi
    · have hbefore := ih (fun j hj => h j (by omega)) hlt
      rw [Copied.steps_succ_mem hd, h n (Nat.lt_succ_self n)]
      obtain ⟨k, rfl⟩ := Nat.exists_eq_add_of_lt hlt
      rw [Nat.add_assoc, cursorAt_add]
      rw [Nat.add_assoc] at hbefore
      exact Mem.readWord_writeWord_same_value (Copied.wf_steps ti _ hwf) hbefore _
    · rw [Copied.readWord_steps_last hd i hwf, h i hi]

/-! Linear blocks. -/

/-- The memory a linear block leaves is that of its steps. -/
theorem exec_cbLinear_mem {c : ChannelId} {b : Block} {s t : State}
    (h : exec (.cbLinear c b) s = .next t) :
    t.mem = (Copied.steps b.ti (b.len.toNat / 4) ⟨s.mem, b.src, b.dst⟩).mem := by
  rw [exec_cbLinear] at h
  have hlen := (linearGeometry_ends_iff b).1 (runBlock_ends h)
  obtain ⟨n, rfl, -, hmem, -⟩ := runBlock_next h
  rw [hmem, linearGeometry_rows, Copied.rows_one, linearGeometry_rowBytes, rowSteps_of_dvd hlen,
    Option.getD_some]

/-- Settles O44: every step stores 0. -/
theorem sourceIgnoreFillsWithZero : Obligations.SourceIgnoreFillsWithZero := by
  intro c b s t hwf h hs hd i hi
  rw [exec_cbLinear_mem h]
  refine Copied.readWord_steps_of_data_eq (q := ⟨s.mem, b.src, b.dst⟩) hd hwf (fun j _ => ?_) hi
  rw [Copied.data, hs, if_pos rfl]

/-- With both increments and the destination one word above the source, each step reads the word the step
before it stored (R52). -/
theorem Copied.data_steps_of_overlap {ti : Word} (hs : sourceIgnore ti = false)
    (hd : destIgnore ti = false) (hsi : sourceIncrement ti = true) (hdi : destIncrement ti = true)
    {q : Copied} (hwf : q.mem.wf) (hdst : q.dst = q.src + 4) (i : Nat) :
    (q.steps ti i).data ti = q.mem.readWord q.src := by
  have hdata : ∀ p : Copied, p.data ti = p.mem.readWord p.src := fun p => by
    rw [Copied.data, hs, if_neg Bool.false_ne_true]
  induction i with
  | zero => exact hdata q
  | succ i ih =>
    have hcursor : (q.steps ti (i + 1)).src = cursorAt (destIncrement ti) q.dst i := by
      rw [(Copied.steps_cursors ti (i + 1) q).1, hsi, hdi, hdst, Nat.add_comm]
      simp only [cursorAt, if_true, Nat.mul_add, BitVec.ofNat_add, BitVec.add_assoc]
      rfl
    rw [hdata, hcursor, Copied.readWord_steps_last hd i hwf, ih]

/-- Settles O43. -/
theorem overlappingCopyPropagatesTheFirstWord : Obligations.OverlappingCopyPropagatesTheFirstWord := by
  intro c b s t hwf h hs hd hsi hdi hdst i hi
  rw [exec_cbLinear_mem h]
  exact Copied.readWord_steps_of_data_eq (q := ⟨s.mem, b.src, b.dst⟩) hd hwf
    (fun j _ => Copied.data_steps_of_overlap hs hd hsi hdi hwf hdst j) hi

/-- On a memory that looks at every address bit, the destination words of a block with DEST_INC are apart: its
count is below 2^32. -/
theorem linearDest_apart {k : Accessor} (hk : k.ignored = 0) {b : Block}
    (hdi : destIncrement b.ti = true) {i j : Nat} (hij : i < j) (hj : j < b.len.toNat / 4) :
    k.Apart (linearDest b i) (linearDest b j) := by
  have hlen := b.len.isLt
  obtain ⟨m, rfl⟩ := Nat.exists_eq_add_of_lt hij
  have hsize : k.size = 2 ^ 32 := by rw [Accessor.size, hk]; rfl
  have hfar : linearDest b (i + m + 1) = linearDest b i + BitVec.ofNat 32 (4 * (m + 1)) := by
    have hadd := cursorAt_add (destIncrement b.ti) b.dst i (m + 1)
    rw [hdi] at hadd
    rw [linearDest, linearDest, hdi]
    exact hadd
  rw [hfar]
  refine Accessor.apart_of_not_dvd (fun hdvd => ?_) _
  have hle := Nat.le_of_dvd (by omega) hdvd
  omega

theorem Accessor.Apart.symm {k : Accessor} {v w : Word} (h : k.Apart v w) : k.Apart w v :=
  fun x hw hv => h x hv hw

/-- Settles O41: no step stores to a source word, so each stores what the block found there; with DEST_INC
each destination word keeps it, and without the last step's stands. -/
theorem linearBlockCopiesDisjointRegions : Obligations.LinearBlockCopiesDisjointRegions := by
  intro c b s t hwf h hs hd hsrc
  rw [exec_cbLinear_mem h]
  have hdata : ∀ i, i < b.len.toNat / 4 →
      (Copied.steps b.ti i ⟨s.mem, b.src, b.dst⟩).data b.ti = s.mem.readWord (linearSource b i) :=
    fun i hi => Copied.data_steps (q := ⟨s.mem, b.src, b.dst⟩) hs hwf
      fun j hj => hsrc i j hi (by omega)
  refine ⟨fun hdi hapart i hi => ?_, fun hdi hpos => ?_⟩
  · rw [← hdata i hi]
    refine Copied.readWord_steps_of_apart (q := ⟨s.mem, b.src, b.dst⟩) hd hwf
      (fun i j hi hj hij => ?_) hi
    obtain hk | hk := hapart
    · obtain hlt | hgt := Nat.lt_or_gt_of_ne hij
      · exact linearDest_apart hk hdi hlt hj
      · exact (linearDest_apart hk hdi hgt hi).symm
    · exact hk i j hi hj hij
  · obtain ⟨n, hn⟩ := Nat.exists_eq_succ_of_ne_zero (Nat.ne_of_gt hpos)
    have hlast := Copied.readWord_steps_last (q := ⟨s.mem, b.src, b.dst⟩) hd n hwf
    rw [hdata n (by omega)] at hlast
    rw [hn, Nat.succ_sub_one, ← hlast, hdi]
    simp [cursorAt]

/-! 2D blocks. -/

/-- Rows whose stored words are apart from each other and from the words read leave in each stored word what
its source word held (R169). -/
theorem Copied.readWord_rows_of_apart {ti ss ds : Word} (hs : sourceIgnore ti = false)
    (hd : destIgnore ti = false) {n rows : Nat} {q : Copied} (hwf : q.mem.wf)
    (hsrc : ∀ j i j' i', j < rows → i < n → j' < rows → i' < n →
      q.mem.accessor.Apart (planeCursor (sourceIncrement ti) ss n q.src j i)
        (planeCursor (destIncrement ti) ds n q.dst j' i'))
    (hdst : ∀ j i j' i', j < rows → i < n → j' < rows → i' < n → (j, i) ≠ (j', i') →
      q.mem.accessor.Apart (planeCursor (destIncrement ti) ds n q.dst j i)
        (planeCursor (destIncrement ti) ds n q.dst j' i'))
    {j i : Nat} (hj : j < rows) (hi : i < n) :
    (q.rows ti ss ds n rows).mem.readWord (planeCursor (destIncrement ti) ds n q.dst j i) =
      q.mem.readWord (planeCursor (sourceIncrement ti) ss n q.src j i) := by
  induction rows generalizing q j with
  | zero => cases hj
  | succ rows ih =>
    have hwf' := Copied.wf_nextRow_steps ti ss ds n hwf
    rw [Copied.rows_succ_mem]
    cases j with
    | zero =>
      rw [Copied.readWord_rows hwf' fun j' i' hj' hi' => ?later, planeCursor_zero, planeCursor_zero]
      case later =>
        rw [Copied.nextRow_steps_accessor, Copied.nextRow_steps_dst, ← planeCursor_succ]
        exact hdst 0 i (j' + 1) i' hj hi (Nat.succ_lt_succ hj') hi' (by simp)
      have hfirst := Copied.readWord_steps_of_apart hd hwf (n := n) (fun i i' hi hi' hne => by
        have := hdst 0 i 0 i' hj hi hj hi' (by simpa using hne)
        rwa [planeCursor_zero, planeCursor_zero] at this) hi
      have hdata := Copied.data_steps hs hwf (i := i) fun i' hi' => by
        have := hsrc 0 i 0 i' hj hi hj (by omega)
        rwa [planeCursor_zero, planeCursor_zero] at this
      exact hfirst.trans hdata
    | succ j =>
      have hcursors : ∀ j i, planeCursor (destIncrement ti) ds n q.dst (j + 1) i =
            planeCursor (destIncrement ti) ds n ((q.steps ti n).nextRow ss ds).dst j i ∧
          planeCursor (sourceIncrement ti) ss n q.src (j + 1) i =
            planeCursor (sourceIncrement ti) ss n ((q.steps ti n).nextRow ss ds).src j i := fun j i => by
        rw [Copied.nextRow_steps_dst, Copied.nextRow_steps_src, planeCursor_succ, planeCursor_succ]
        exact ⟨rfl, rfl⟩
      obtain ⟨hdstj, hsrcj⟩ := hcursors j i
      rw [hdstj, ih hwf' ?src ?dst (Nat.lt_of_succ_lt_succ hj), ← hsrcj]
      case src =>
        intro j i j' i' hj hi hj' hi'
        rw [Copied.nextRow_steps_accessor, ← (hcursors j i).2, ← (hcursors j' i').1]
        exact hsrc (j + 1) i (j' + 1) i' (Nat.succ_lt_succ hj) hi (Nat.succ_lt_succ hj') hi'
      case dst =>
        intro j i j' i' hj hi hj' hi' hne
        rw [Copied.nextRow_steps_accessor, ← (hcursors j i).1, ← (hcursors j' i').1]
        exact hdst (j + 1) i (j' + 1) i' (Nat.succ_lt_succ hj) hi (Nat.succ_lt_succ hj') hi'
          (by simpa using hne)
      refine Copied.readWord_steps hwf fun i' hi' => ?_
      rw [← planeCursor_zero _ ds n]
      exact hsrc (j + 1) i 0 i' hj hi (Nat.succ_pos rows) hi'

/-- The memory a 2D block leaves is that of its rows. -/
theorem exec_cb2D_mem {c : ChannelId} {b : Block} {s t : State} (h : exec (.cb2D c b) s = .next t) :
    t.mem = (Copied.rows b.ti (planeSourceStride b) (planeDestStride b) (planeBytes b / 4) (planeRows b)
      ⟨s.mem, b.src, b.dst⟩).mem := by
  rw [exec_cb2D] at h
  have hend := (planeGeometry_ends_iff b).1 (runBlock_ends h)
  obtain ⟨n, rfl, -, hmem, -⟩ := runBlock_next h
  rw [hmem, rows_planeGeometry hend]

/-- Settles O42. -/
theorem planeBlockCopiesEveryRow : Obligations.PlaneBlockCopiesEveryRow := by
  intro c b s t hwf h hs hd hapart j i hj hi
  rw [exec_cb2D_mem h]
  exact Copied.readWord_rows_of_apart (q := ⟨s.mem, b.src, b.dst⟩) hs hd hwf
    (fun j i j' i' hj hi hj' hi' => (hapart j i j' i' hj hi hj' hi').1)
    (fun j i j' i' hj hi hj' hi' => (hapart j i j' i' hj hi hj' hi').2) hj hi

end Sys2Proof.Machine
end
